-- ==== Sys2Proof/Word.lean ====
section
/-! DEFINITION. Words, bytes, field elements, coefficient arrays and register numbers of the block (00_scope.md R5, R7;
10_state.md R21, R24; 30_encoding.md R70). -/
namespace Sys2Proof

/-- The prime modulus `q` of Zq (R5). -/
abbrev q : Nat := 3329

/-- A byte of BUF or of an XOF stream (R50, R56). -/
abbrev Byte := BitVec 8

/-- A command word (R70): 32 bits, bit 31 the most significant (R71). Also the width of PC, EPC and ECMD (R32). -/
abbrev Word := BitVec 32

/-- A FieldElement: "an unsigned integer n with 0 ≤ n < q, q = 3329, stored in 12 bits" (R21). The bound is in the type,
so a register cell cannot hold a value of 3329 or more. -/
abbrev FieldElement := Fin 3329

/-- The 256 coefficients of a polynomial register, index 0 first (R24). -/
abbrev Coeffs := Vector FieldElement 256

/-- The number of a scalar register `s0..s15` or of a polynomial register `p0..p15` (R21, R24). -/
abbrev RegNo := Fin 16

end Sys2Proof
end

