-- ==== Sys2Proof/Machine/Field.lean ====
section
/-! DEFINITION. The field functions of 40_zq_arithmetic.md R100 to R103 and the elementwise maps over them. -/
namespace Sys2Proof.Machine

/-- The Euclidean remainder modulo 3329 (R7). -/
def toField (z : Int) : FieldElement := ⟨(z % 3329).toNat, by omega⟩

/-- `zadd(a, b) = (a + b) mod 3329` (R100). -/
def zadd (a b : FieldElement) : FieldElement := toField (a.val + b.val)

/-- `zsub(a, b) = (a − b) mod 3329` (R101). -/
def zsub (a b : FieldElement) : FieldElement := toField (a.val - b.val)

/-- `zmul(a, b) = (a · b) mod 3329` (R102). -/
def zmul (a b : FieldElement) : FieldElement := toField (a.val * b.val)

/-- One round of square-and-multiply, for bit `t` of the exponent (R103). -/
def powRound (a : FieldElement) (e : Nat) (r : FieldElement) (t : Nat) : FieldElement :=
  if e.testBit t then zmul (zmul r r) a else zmul r r

/-- `zpow(a, e)`: square-and-multiply over the 12 bits of `e`, most significant first (R103). -/
def zpow (a : FieldElement) (e : Nat) : FieldElement :=
  [11, 10, 9, 8, 7, 6, 5, 4, 3, 2, 1, 0].foldl (powRound a e) 1

/-- The array of the first 256 values of a list, filled up with 0. Every use has a list of 256 values. -/
def ofValues (l : List FieldElement) : Coeffs := 
  ⟨⟨(l ++ List.replicate 256 0).take 256⟩, by
    show ((l ++ List.replicate 256 0).take 256).length = 256
    rw [List.length_take, List.length_append, List.length_replicate]; omega⟩

end Sys2Proof.Machine
end

