-- ==== Sys2Proof/Config.lean ====
section
/-! DEFINITION. The one parameter the spec leaves open (00_scope.md R6, 92_eei_decisions.md D8): the bytes of the external
XOF. Every other parameter has a value in R5 or R6 and is written where it is used. -/
namespace Sys2Proof

/-- The XOF argument of R6: byte `n` of stream `(i, j)`. It has no body, so nothing in Lean can evaluate it and every
statement holds for every XOF unit. `State.xof` may list a first part of some streams (assumption 4); this constant answers
everywhere else. -/
opaque Config.xof : Byte → Byte → Nat → Byte

end Sys2Proof
end

