-- ==== Sys2Proof/Syntax.lean ====
section
/-! DEFINITION. The 21 commands of MMCORE-1 (30_encoding.md R74), one constructor per row of the opcode table, with the
operand order of the assembler (R78). -/
namespace Sys2Proof

/-- A command. Register fields are register numbers, immediates keep the width of their field (R71, R73); every immediate is
unsigned. Values that a command's own checks refuse (`d = 13`, `k = 9`, ...) are commands too: they decode, and their
meaning raises the fault the command's rule names (R75, R76). -/
inductive Instr where
  /-- `ZLI rd, imm12` (R104) -/
  | zli (rd : RegNo) (imm12 : BitVec 12)
  /-- `ZADD rd, ra, rb` (R105) -/
  | zadd (rd ra rb : RegNo)
  /-- `ZSUB rd, ra, rb` (R106) -/
  | zsub (rd ra rb : RegNo)
  /-- `ZMUL rd, ra, rb` (R107) -/
  | zmul (rd ra rb : RegNo)
  /-- `ZPOW rd, ra, imm12` (R108) -/
  | zpow (rd ra : RegNo) (imm12 : BitVec 12)
  /-- `ZLDZ rd, imm7` (R109) -/
  | zldz (rd : RegNo) (imm7 : BitVec 7)
  /-- `ZLDG rd, imm7` (R110) -/
  | zldg (rd : RegNo) (imm7 : BitVec 7)
  /-- `NTT pd, pa` (R122) -/
  | ntt (pd pa : RegNo)
  /-- `INTT pd, pa` (R124) -/
  | intt (pd pa : RegNo)
  /-- `PADD pd, pa, pb` (R141) -/
  | padd (pd pa pb : RegNo)
  /-- `PSUB pd, pa, pb` (R142) -/
  | psub (pd pa pb : RegNo)
  /-- `PMUL pd, pa, pb` (R144) -/
  | pmul (pd pa pb : RegNo)
  /-- `PLC pd, pe, pa, pb, k` (R145): `pd = rd`, `pe = ra`, `pa = rb`, `pb = rc`, `k = imm8` (R74) -/
  | plc (pd pe pa pb : RegNo) (k : BitVec 8)
  /-- `XOPEN i, j` (R163) -/
  | xopen (i j : Byte)
  /-- `SAMPLEU pd` (R165) -/
  | sampleu (pd : RegNo)
  /-- `SAMPLECBD pd, eta` (R169) -/
  | samplecbd (pd : RegNo) (eta : BitVec 4)
  /-- `BCLR` (R184) -/
  | bclr
  /-- `BPUT imm8` (R185) -/
  | bput (imm8 : Byte)
  /-- `ENCODE pa, d` (R183) -/
  | encode (pa : RegNo) (d : BitVec 4)
  /-- `DECODE.R pd, d` (R186) -/
  | decodeR (pd : RegNo) (d : BitVec 4)
  /-- `DECODE.T pd, d` (R187) -/
  | decodeT (pd : RegNo) (d : BitVec 4)
deriving DecidableEq, Repr

end Sys2Proof
end

