-- ==== Sys2Proof/Decode.lean ====
section
/-! DEFINITION. The decoder of 30_encoding.md R75 over the rows of R74, and the encoder of the layouts of R72. The decoder is
total: a word is one command or is rejected under a name of `Reject` (R76). -/
namespace Sys2Proof

/-- The 21 operations of R74, as the opcode table names them. -/
inductive Op where
  | zli | zadd | zsub | zmul | zpow | zldz | zldg | ntt | intt | padd | psub | pmul | plc
  | xopen | sampleu | samplecbd | bclr | bput | encode | decodeR | decodeT
deriving DecidableEq, Repr

/-- One row of the opcode map: a word `w` is the row's command when `(w AND mask) = pattern` (R74). -/
structure OpRow where
  op : Op
  pattern : Word
  mask : Word
deriving DecidableEq, Repr

/-- The scalar rows of R74. -/
def scalarRows : List OpRow :=
  [⟨.zli, 0x01000000, 0xFF0FF000⟩, ⟨.zadd, 0x02000000, 0xFF000FFF⟩, ⟨.zsub, 0x03000000, 0xFF000FFF⟩,
   ⟨.zmul, 0x04000000, 0xFF000FFF⟩, ⟨.zpow, 0x05000000, 0xFF00F000⟩, ⟨.zldz, 0x06000000, 0xFF0FFF80⟩,
   ⟨.zldg, 0x07000000, 0xFF0FFF80⟩]

/-- The transform and polynomial rows of R74. -/
def polyRows : List OpRow :=
  [⟨.ntt, 0x10000000, 0xFF00FFFF⟩, ⟨.intt, 0x11000000, 0xFF00FFFF⟩, ⟨.padd, 0x20000000, 0xFF000FFF⟩,
   ⟨.psub, 0x21000000, 0xFF000FFF⟩, ⟨.pmul, 0x22000000, 0xFF000FFF⟩, ⟨.plc, 0x23000000, 0xFF000000⟩]

/-- The sampler, buffer and codec rows of R74. -/
def byteRows : List OpRow :=
  [⟨.xopen, 0x30000000, 0xFFFF0000⟩, ⟨.sampleu, 0x31000000, 0xFF0FFFFF⟩, ⟨.samplecbd, 0x32000000, 0xFF0FFFF0⟩,
   ⟨.bclr, 0x40000000, 0xFFFFFFFF⟩, ⟨.bput, 0x41000000, 0xFFFFFF00⟩, ⟨.encode, 0x42000000, 0xFFF0FFF0⟩,
   ⟨.decodeR, 0x43000000, 0xFF0FFFF0⟩, ⟨.decodeT, 0x43000010, 0xFF0FFFF0⟩]

/-- The opcode map of R74, in the table's order. -/
def opRows : List OpRow := scalarRows ++ (polyRows ++ byteRows)

/-- `(w AND mask) = pattern` (R74). -/
def OpRow.accepts (r : OpRow) (w : Word) : Bool := w &&& r.mask == r.pattern

/-- `w[lo + n − 1 : lo]` as an unsigned integer (R7). -/
def fieldAt (w : Word) (lo n : Nat) : Nat := w.toNat / 2 ^ lo % 2 ^ n

/-- The 4-bit register field at bit `lo` (R71). -/
def regAt (w : Word) (lo : Nat) : RegNo := ⟨w.toNat / 2 ^ lo % 16, Nat.mod_lt _ (by decide)⟩

/-- `rd`, bits 23:20 (R71). -/
def rdOf (w : Word) : RegNo := regAt w 20
/-- `ra`, bits 19:16 (R71). -/
def raOf (w : Word) : RegNo := regAt w 16
/-- `rb`, bits 15:12 (R71). -/
def rbOf (w : Word) : RegNo := regAt w 12
/-- `rc`, bits 11:8 (R71). -/
def rcOf (w : Word) : RegNo := regAt w 8
/-- `imm12`, bits 11:0 (R71). -/
def imm12Of (w : Word) : BitVec 12 := BitVec.ofNat 12 (fieldAt w 0 12)
/-- `imm8`, bits 7:0; also `j8` (R71). -/
def imm8Of (w : Word) : Byte := BitVec.ofNat 8 (fieldAt w 0 8)
/-- `imm7`, bits 6:0 (R71). -/
def imm7Of (w : Word) : BitVec 7 := BitVec.ofNat 7 (fieldAt w 0 7)
/-- `imm4`, bits 3:0 (R71). -/
def imm4Of (w : Word) : BitVec 4 := BitVec.ofNat 4 (fieldAt w 0 4)
/-- `i8`, bits 15:8 (R71). -/
def i8Of (w : Word) : Byte := BitVec.ofNat 8 (fieldAt w 8 8)

/-- The command of an operation with the operand fields of `w` (R72, R74). -/
def operandsOf (op : Op) (w : Word) : Instr :=
  match op with
  | .zli => .zli (rdOf w) (imm12Of w)
  | .zadd => .zadd (rdOf w) (raOf w) (rbOf w)
  | .zsub => .zsub (rdOf w) (raOf w) (rbOf w)
  | .zmul => .zmul (rdOf w) (raOf w) (rbOf w)
  | .zpow => .zpow (rdOf w) (raOf w) (imm12Of w)
  | .zldz => .zldz (rdOf w) (imm7Of w)
  | .zldg => .zldg (rdOf w) (imm7Of w)
  | .ntt => .ntt (rdOf w) (raOf w)
  | .intt => .intt (rdOf w) (raOf w)
  | .padd => .padd (rdOf w) (raOf w) (rbOf w)
  | .psub => .psub (rdOf w) (raOf w) (rbOf w)
  | .pmul => .pmul (rdOf w) (raOf w) (rbOf w)
  | .plc => .plc (rdOf w) (raOf w) (rbOf w) (rcOf w) (imm8Of w)
  | .xopen => .xopen (i8Of w) (imm8Of w)
  | .sampleu => .sampleu (rdOf w)
  | .samplecbd => .samplecbd (rdOf w) (imm4Of w)
  | .bclr => .bclr
  | .bput => .bput (imm8Of w)
  | .encode => .encode (raOf w) (imm4Of w)
  | .decodeR => .decodeR (rdOf w) (imm4Of w)
  | .decodeT => .decodeT (rdOf w) (imm4Of w)

/-- Why a word matches no row (R76). -/
inductive Reject where
  /-- its bits 31:24 are the opcode of no command -/
  | unassignedOpcode
  /-- its opcode is assigned and a bit its format leaves unused is 1 -/
  | unusedBits
deriving DecidableEq, Repr

/-- What a word is: exactly one command with its fields, or illegal (R75). -/
inductive Decoded where
  | command (i : Instr)
  | illegal (why : Reject)
deriving DecidableEq, Repr

/-- Whether some row has the word's bits 31:24 as its opcode (R76). -/
def opcodeAssigned (w : Word) : Bool := opRows.any fun r => fieldAt w 24 8 == fieldAt r.pattern 24 8

/-- The decoding procedure of R75. -/
def decodeWord (w : Word) : Decoded :=
  match opRows.find? fun r => r.accepts w with
  | some r => .command (operandsOf r.op w)
  | none => .illegal (if opcodeAssigned w then .unusedBits else .unassignedOpcode)

/-- The command in a decoding, if there is one. -/
def Decoded.instr? : Decoded → Option Instr
  | .command i => some i
  | .illegal _ => none

/-- The decoder on a word numbered as the opcode table numbers it: the word's first `nbits` bits are `w`, the bits above
are 0. A command is one 32-bit word delivered whole (R55, R70), so the table's numbering is the word's own. -/
def decodeTableWord (nbits w : Nat) : Option Instr := (decodeWord (BitVec.ofNat 32 (w % 2 ^ nbits))).instr?

/-- Bits 31:24 of the command's word (R74). -/
def opcodeOf : Instr → Nat
  | .zli _ _ => 0x01
  | .zadd _ _ _ => 0x02
  | .zsub _ _ _ => 0x03
  | .zmul _ _ _ => 0x04
  | .zpow _ _ _ => 0x05
  | .zldz _ _ => 0x06
  | .zldg _ _ => 0x07
  | .ntt _ _ => 0x10
  | .intt _ _ => 0x11
  | .padd _ _ _ => 0x20
  | .psub _ _ _ => 0x21
  | .pmul _ _ _ => 0x22
  | .plc _ _ _ _ _ => 0x23
  | .xopen _ _ => 0x30
  | .sampleu _ => 0x31
  | .samplecbd _ _ => 0x32
  | .bclr => 0x40
  | .bput _ => 0x41
  | .encode _ _ => 0x42
  | .decodeR _ _ => 0x43
  | .decodeT _ _ => 0x43

/-- Bits 23:0 of the command's word: the layout of its format in R72, every unused bit 0. -/
def fieldsOf : Instr → Nat
  | .zli rd imm12 => rd.val * 2 ^ 20 + imm12.toNat
  | .zadd rd ra rb => rd.val * 2 ^ 20 + ra.val * 2 ^ 16 + rb.val * 2 ^ 12
  | .zsub rd ra rb => rd.val * 2 ^ 20 + ra.val * 2 ^ 16 + rb.val * 2 ^ 12
  | .zmul rd ra rb => rd.val * 2 ^ 20 + ra.val * 2 ^ 16 + rb.val * 2 ^ 12
  | .zpow rd ra imm12 => rd.val * 2 ^ 20 + ra.val * 2 ^ 16 + imm12.toNat
  | .zldz rd imm7 => rd.val * 2 ^ 20 + imm7.toNat
  | .zldg rd imm7 => rd.val * 2 ^ 20 + imm7.toNat
  | .ntt pd pa => pd.val * 2 ^ 20 + pa.val * 2 ^ 16
  | .intt pd pa => pd.val * 2 ^ 20 + pa.val * 2 ^ 16
  | .padd pd pa pb => pd.val * 2 ^ 20 + pa.val * 2 ^ 16 + pb.val * 2 ^ 12
  | .psub pd pa pb => pd.val * 2 ^ 20 + pa.val * 2 ^ 16 + pb.val * 2 ^ 12
  | .pmul pd pa pb => pd.val * 2 ^ 20 + pa.val * 2 ^ 16 + pb.val * 2 ^ 12
  | .plc pd pe pa pb k => pd.val * 2 ^ 20 + pe.val * 2 ^ 16 + pa.val * 2 ^ 12 + pb.val * 2 ^ 8 + k.toNat
  | .xopen i j => i.toNat * 2 ^ 8 + j.toNat
  | .sampleu pd => pd.val * 2 ^ 20
  | .samplecbd pd eta => pd.val * 2 ^ 20 + eta.toNat
  | .bclr => 0
  | .bput imm8 => imm8.toNat
  | .encode pa d => pa.val * 2 ^ 16 + d.toNat
  | .decodeR pd d => pd.val * 2 ^ 20 + d.toNat
  | .decodeT pd d => pd.val * 2 ^ 20 + 2 ^ 4 + d.toNat

/-- The encoder: the 32-bit word of a command (R72, R74). -/
def encodeWord (i : Instr) : Word := BitVec.ofNat 32 (opcodeOf i * 2 ^ 24 + fieldsOf i)

end Sys2Proof
end

