-- ==== Sys2Proof/Machine/State.lean ====
section
/-! DEFINITION. The architectural state of the block (10_state.md), the two inputs its environment feeds it (the host's
moves, R210, and the XOF unit's answers, R56), the reasons a step stops, and the state after reset (R40). -/
namespace Sys2Proof.Machine

/-- The six fault causes (60_exceptions.md R220). -/
inductive Cause where
  /-- 1: the word is no command, a reserved `d` or `η`, or a `PLC` window past `p15` (R221) -/
  | illegal
  /-- 2: a value of 3329 or more would be stored, or a coefficient of `2^d` or more would be encoded (R222) -/
  | range
  /-- 3: BUF does not hold exactly the bytes the command needs, or `BPUT` on a full BUF (R223) -/
  | length
  /-- 4: `PLC` with `k` not 2, 3 or 4 (R226) -/
  | shape
  /-- 5: a source register is tagged with the wrong domain (R227) -/
  | domain
  /-- 6: a source nothing has written, or no stream open (R228) -/
  | empty
deriving DecidableEq, Repr

/-- The tag of a polynomial register (10_state.md R25). -/
inductive Tag where
  /-- `E`: nothing has written the register since reset -/
  | empty
  /-- `R`: an element of Rq -/
  | rq
  /-- `T`: an element of Tq -/
  | tq
deriving DecidableEq, Repr

/-- What a host can do to the block between two steps (48_host_keygen_boundary.md R210; 10_state.md R20). -/
inductive HostMove where
  /-- issue this command word -/
  | command (w : Word)
  /-- assert reset -/
  | reset
deriving DecidableEq, Repr

/-- What the external unit answers for one XOF stream (assumption 4): first `bytes`, then `cycle` over and over; with an
empty `cycle`, `Config.xof` answers from the end of `bytes` on. -/
structure XofStream where
  i : Byte
  j : Byte
  bytes : List Byte
  cycle : List Byte
deriving DecidableEq, Repr

/-- A byte store in canonical form: addresses strictly rising, no byte equal to what an unlisted address reads as. -/
abbrev Memory := List Host.Cell

/-- The block. The fields after `xpos` are the environment's, not the block's (R38): no command reads or writes `pending`,
and none writes `xof`. -/
structure State where
  /-- `s0..s15` (R21) -/
  sreg : Vector FieldElement 16
  /-- `sval[0..15]` (R22) -/
  sval : Vector Bool 16
  /-- `p0..p15` (R24) -/
  preg : Vector Coeffs 16
  /-- `ptag[0..15]` (R25) -/
  ptag : Vector Tag 16
  /-- `PC`, the number of commands completed since reset (R30) -/
  pc : Word
  /-- `ERR`: the cause of the first fault since reset, `none` for code 0 (R34) -/
  err : Option Cause
  /-- `EPC` (R34) -/
  epc : Word
  /-- `ECMD` (R34) -/
  ecmd : Word
  /-- `BUF`, addresses 0..383 (R50) -/
  buf : Memory
  /-- `BLEN` (R35) -/
  blen : BitVec 9
  /-- `XVALID` (R33) -/
  xvalid : Bool
  /-- `XIJ`: `XI` in bits 15:8, `XJ` in bits 7:0 (R35) -/
  xij : BitVec 16
  /-- `XPOS`, without an upper bound (R36) -/
  xpos : Nat
  /-- the moves the host has still to make, the next one first (R210) -/
  pending : List HostMove
  /-- what the external XOF unit answers with (R56) -/
  xof : List XofStream
deriving DecidableEq, Repr

/-- Why a step has no next state. The faults of the spec are not here: they are next states that latch `ERR` (R224). -/
inductive Fault where
  /-- Raised by `SAMPLEU` (and by a step that runs one) on a stream with fewer than 256 acceptable candidates from `XPOS`
  on: the command never completes, and a model "gives `SAMPLEU` no successor state in this case" (R166). Safe: nothing can
  be proved of a state after it. -/
  | samplerHung
deriving DecidableEq, Repr

/-- Why an instruction has no meaning. -/
inductive Refusal where
  /-- Raised by `exec` for an instruction not modelled yet; no arm answers so. Safe: nothing can be proved of a state after
  it. -/
  | notModelled (mnemonic : String)
deriving DecidableEq, Repr

/-- The value the model names for the cells whose reset value R40 leaves unspecified. DESIGN CHOICE (assumption 1), unsafe:
93_implementation_defined.md U1 says never to model them as 0, and R21 keeps every stored value below 3329. -/
def unspecifiedElement : FieldElement := 3328

/-- The state after reset (R40, R250), with no host move waiting and no XOF stream listed. DESIGN CHOICE for the cells R40
leaves unspecified: register contents (assumption 1), `XIJ` and `XPOS` (assumption 2), and the bytes of BUF, which the state after
reset does not keep: `buf` lists nothing, so every byte reads as `bufDefault` (assumption 3), unsafe. -/
def State.reset : State where
  sreg := Vector.replicate 16 unspecifiedElement
  sval := Vector.replicate 16 false
  preg := Vector.replicate 16 (Vector.replicate 256 unspecifiedElement)
  ptag := Vector.replicate 16 .empty
  pc := 0
  err := none
  epc := 0
  ecmd := 0
  buf := []
  blen := 0
  xvalid := false
  xij := 0
  xpos := 0
  pending := []
  xof := []

end Sys2Proof.Machine
end

