-- ==== Sys2Proof/Machine/Ops.lean ====
section
/-! DEFINITION. The named operations over the state: the byte buffer (20_memory.md R52), the register files (00_scope.md R8),
the XOF port (R56), running a command's checks in order (R10), completing it (R30), taking a fault (R224), and reset (R250). -/
namespace Sys2Proof.Machine

/-- What an address of BUF that nothing has written reads as. DESIGN CHOICE (assumption 3): R40 leaves it unspecified, and no
command reads at or above `BLEN` (R52). -/
def bufDefault : Byte := 0

/-- The byte at `a` in a byte store. -/
def Memory.read : Memory → Nat → Byte
  | [], _ => bufDefault
  | (b, v) :: m, a => if a = b then v else Memory.read m a

/-- `m[a], m[a + 1], ..., m[a + n − 1]`. An entry at the address wanted is passed once it is read, so that a whole buffer is
read in one pass; `Laws/Memory.lean` has it as `n` reads. -/
def Memory.readList : Memory → (a n : Nat) → List Byte
  | _, _, 0 => []
  | [], a, n + 1 => bufDefault :: Memory.readList [] (a + 1) n
  | (b, v) :: m, a, n + 1 =>
    if b = a then v :: Memory.readList m (a + 1) n
    else Memory.read ((b, v) :: m) a :: Memory.readList ((b, v) :: m) (a + 1) n

/-- The entries of the bytes of a list at `a`, `a + 1`, ...: none for a byte that an unlisted address reads as. -/
def Memory.cells : Nat → List Byte → Memory
  | _, [] => []
  | a, v :: vs => if v = bufDefault then Memory.cells (a + 1) vs else (a, v) :: Memory.cells (a + 1) vs

/-- The byte store with the bytes of a list at `a`, `a + 1`, ...: what it lists below them, they, what it lists above them. -/
def Memory.writeList (m : Memory) (a : Nat) (vs : List Byte) : Memory :=
  m.filter (fun c => decide (c.1 < a)) ++ (Memory.cells a vs ++ m.filter fun c => decide (a + vs.length ≤ c.1))

/-- The byte store with `v` at `a`. -/
def Memory.write (m : Memory) (a : Nat) (v : Byte) : Memory := m.writeList a [v]

/-- Every address listed is at or above `lo`, they rise strictly, and no listed byte is the default. -/
def Memory.wfFrom : Nat → Memory → Bool
  | _, [] => true
  | lo, (b, v) :: m => decide (lo ≤ b) && (v != bufDefault && Memory.wfFrom (b + 1) m)

/-- The canonical form of a byte store. -/
def Memory.wf (m : Memory) : Bool := Memory.wfFrom 0 m

/-- Every address listed exists: BUF has the addresses 0..383 (R50). -/
def Memory.inBuf (m : Memory) : Bool := m.all fun c => decide (c.1 < 384)

/-- `MemRead(a, 1)` (R52). -/
def memRead (s : State) (a : Nat) : Byte := s.buf.read a

/-- `MemWrite(a, 1, v)` (R52): nothing but BUF changes, not even `BLEN`. -/
def memWrite (s : State) (a : Nat) (v : Byte) : State := { s with buf := s.buf.write a v }

/-- `MemWrite(a + n, 1, vs[n])` for every `n`, in ascending order (R183). -/
def memWriteList (s : State) (a : Nat) (vs : List Byte) : State := { s with buf := s.buf.writeList a vs }

/-- `(MemRead(0, 1), ..., MemRead(n − 1, 1))` (R169, R186). -/
def memReadList (s : State) (n : Nat) : List Byte := s.buf.readList 0 n

/-- `BLEN <- n` (R35). -/
def setBlen (s : State) (n : Nat) : State := { s with blen := BitVec.ofNat 9 n }

/-- `s[r]` (R8). -/
def readScalar (s : State) (r : RegNo) : FieldElement := s.sreg[r]

/-- `sval[r] = 0` (R22). -/
def scalarEmpty (s : State) (r : RegNo) : Bool := !s.sval[r]

/-- `s[r] <- v`: the write sets the valid bit (R8, R22). -/
def writeScalar (s : State) (r : RegNo) (v : FieldElement) : State :=
  { s with sreg := s.sreg.set r v, sval := s.sval.set r true }

/-- `p[r]` (R8). -/
def readPoly (s : State) (r : RegNo) : Coeffs := s.preg[r]

/-- `ptag[r]` (R8). -/
def polyTag (s : State) (r : RegNo) : Tag := s.ptag[r]

/-- `p[r] <- (f, t)`: coefficients and tag together (R8, R25). -/
def writePoly (s : State) (r : RegNo) (f : Coeffs) (t : Tag) : State :=
  { s with preg := s.preg.set r f, ptag := s.ptag.set r t }

/-- `XI = XIJ[15:8]` (R35). -/
def streamI (s : State) : Byte := BitVec.ofNat 8 (s.xij.toNat / 256)

/-- `XJ = XIJ[7:0]` (R35). -/
def streamJ (s : State) : Byte := BitVec.ofNat 8 s.xij.toNat

/-- The first entry of `State.xof` for stream `(i, j)`, if there is one. -/
def findStream : List XofStream → Byte → Byte → Option XofStream
  | [], _, _ => none
  | x :: xs, i, j => if x.i = i ∧ x.j = j then some x else findStream xs i j

/-- Byte `n` of a listed stream. -/
def XofStream.byte (x : XofStream) (n : Nat) : Byte :=
  if n < x.bytes.length then x.bytes.getD n 0
  else if x.cycle.isEmpty then Config.xof x.i x.j n
  else x.cycle.getD ((n - x.bytes.length) % x.cycle.length) 0

/-- `XOF(i, j, n)`: byte `n` of stream `(i, j)` (R56). DESIGN CHOICE (assumption 4): the state may list a stream, and
`Config.xof` answers wherever it does not. -/
def xofByte (s : State) (i j : Byte) (n : Nat) : Byte :=
  match findStream s.xof i j with
  | some x => x.byte n
  | none => Config.xof i j n

/-- `XI <- i; XJ <- j; XPOS <- 0; XVALID <- 1` (R163). -/
def openStream (s : State) (i j : Byte) : State :=
  { s with xij := BitVec.ofNat 16 (i.toNat * 256 + j.toNat), xpos := 0, xvalid := true }

/-- `XPOS <- n` (R56). -/
def setXpos (s : State) (n : Nat) : State := { s with xpos := n }

/-- The outcome of one step of the block. -/
abbrev Outcome := Host.Outcome State Fault Refusal

/-- Fault entry (R224): `ERR <- c; EPC <- PC; ECMD <- w`, and nothing else changes. There is no return from it: only reset
leaves a latched fault (R225, R232). -/
def faultEntry (s : State) (c : Cause) (w : Word) : State :=
  { s with err := some c, epc := s.pc, ecmd := w }

/-- The cause of the first check that fails, of checks listed in the order they are made (R10, R229). A check is written as
the condition under which it fails. -/
def firstFailing : List (Bool × Cause) → Option Cause
  | [] => none
  | (bad, c) :: rest => if bad then some c else firstFailing rest

/-- One command: ignored while a fault is latched (R225); else its checks in order, all made before any write (R230), the
first that fails raising its cause with the command's word in ECMD (R10, R224); else its effect. -/
def command (i : Instr) (s : State) (checks : List (Bool × Cause)) (effect : Outcome) : Outcome :=
  if s.err.isSome then .next s
  else
    match firstFailing checks with
    | some c => .next (faultEntry s c (encodeWord i))
    | none => effect

/-- The end of a command that completes, `t` being the state its writes leave: `PC <- (PC + 1) mod 2^32` (R30). -/
def complete (t : State) : Outcome := .next { t with pc := t.pc + 1 }

/-- A delivered word that matches no row raises `ILLEGAL` (R76, R221), unless a fault is latched already (R225). -/
def illegalWord (w : Word) (s : State) : Outcome :=
  if s.err.isSome then .next s else .next (faultEntry s .illegal w)

/-- The block between commands with no move of the host waiting: idle, and it keeps all state (R240). -/
def idle (s : State) : Outcome := .next s

/-- The host has made its next move; `rest` is what it has still to do (R210). -/
def withPending (s : State) (rest : List HostMove) : State := { s with pending := rest }

/-- Reset, from any state (R250): the state of R40. The host's later moves and the XOF unit are outside the block and stay
(R38, R210). That none of the old register contents, `XIJ`, `XPOS` and bytes of BUF is kept, where R250 calls them unspecified, is a
DESIGN CHOICE (assumptions 1, 2 and 3), unsafe. -/
def hostReset (s : State) (rest : List HostMove) : State := { State.reset with pending := rest, xof := s.xof }

/-- Reset is the way out of a hung `SAMPLEU` (R210, R250): a command that never completes is followed by the host's next
move only if that move is reset, and the cut command leaves no trace (R251). -/
def resetIfHung (s : State) : Outcome → Outcome
  | .next t => .next t
  | .refused r => .refused r
  | .fault .samplerHung =>
    match s.pending with
    | .reset :: rest => .next (hostReset s rest)
    | _ => .fault .samplerHung

end Sys2Proof.Machine
end

