-- ==== Sys2Proof/Machine/Operands.lean ====
section
/-! DEFINITION. The immediate checks of 30_encoding.md R73 and R76, the source checks of 60_exceptions.md R227 and R228, and
the register windows of `PLC` (42_poly_arithmetic.md R145). -/
namespace Sys2Proof.Machine

/-- `d` is not in 1..12 (R76). -/
def badWidth (d : BitVec 4) : Bool := decide (d.toNat < 1) || decide (12 < d.toNat)

/-- `η` is not in 1..6 (R76). -/
def badEta (eta : BitVec 4) : Bool := decide (eta.toNat < 1) || decide (6 < eta.toNat)

/-- `k` is not 2, 3 or 4 (R226). -/
def badRank (k : BitVec 8) : Bool := k.toNat != 2 && (k.toNat != 3 && k.toNat != 4)

/-- `r + k − 1 > 15`: the window of `k` registers at `r` runs past `p15` (R76, R145). -/
def pastLast (r : RegNo) (k : BitVec 8) : Bool := decide (16 < r.val + k.toNat)

/-- The `k` consecutive registers that start at `r` (R145). The numbers do not wrap: `pastLast` has been checked. -/
def window (r : RegNo) (k : BitVec 8) : List RegNo := (List.range k.toNat).map fun j => Fin.ofNat 16 (r.val + j)

/-- `ptag[r] = E` (R228). -/
def polyEmpty (s : State) (r : RegNo) : Bool := polyTag s r == .empty

/-- `ptag[r] ≠ t`, for a command that needs domain `t` (R227). -/
def notDomain (s : State) (t : Tag) (r : RegNo) : Bool := polyTag s r != t

/-- `BLEN ≠ n` (R223). -/
def blenNot (s : State) (n : Nat) : Bool := s.blen.toNat != n

/-- `2k + 1` source registers of `PLC`: the addend, then the two windows (R145). -/
def plcSources (pe pa pb : RegNo) (k : BitVec 8) : List RegNo := pe :: (window pa k ++ window pb k)

end Sys2Proof.Machine
end

