-- ==== Sys2Proof/Machine/Codec.lean ====
section
/-! DEFINITION. The bit string (20_memory.md R54), the codec (44_codec.md R181, R182) and the buffer and codec commands `BCLR`,
`BPUT`, `ENCODE`, `DECODE.R` and `DECODE.T` (R183 to R187). -/
namespace Sys2Proof.Machine

/-- The low `n` bits of a number, least significant first (R54). -/
def toBits : (n v : Nat) → List Nat
  | 0, _ => []
  | n + 1, v => v % 2 :: toBits n (v / 2)

/-- The number of a bit string, least significant bit first: `Σ bit(i)·2^i` (R181, R182). -/
def ofBits : List Nat → Nat
  | [] => 0
  | b :: bs => b + 2 * ofBits bs

/-- The first `count` groups of `n` elements of a list. -/
def groups {α : Type} (n : Nat) : (count : Nat) → List α → List (List α)
  | 0, _ => []
  | count + 1, l => l.take n :: groups n count (l.drop n)

/-- The bit string of a byte sequence: `bit(g)` is bit `g mod 8` of byte `g div 8` (R54). -/
def bitString (bytes : List Byte) : List Nat := bytes.flatMap fun b => toBits 8 b.toNat

/-- `encode(d, f)` for a sequence of numbers (R181): their `d` bits one after another, cut into `32·d` bytes. -/
def encodeValues (d : Nat) (vs : List Nat) : List Byte :=
  (groups 8 (32 * d) (vs.flatMap (toBits d))).map fun bs => BitVec.ofNat 8 (ofBits bs)

/-- `encode(d, f)` for the coefficients of a polynomial (R181). -/
def encodeBytes (d : Nat) (f : Coeffs) : List Byte := encodeValues d (f.toList.map fun c => c.val)

/-- `decode(d, E)` (R182): the bit string cut into 256 groups of `d` bits. -/
def decodeValues (d : Nat) (bytes : List Byte) : List Nat := (groups d 256 (bitString bytes)).map ofBits

/-- Some coefficient is `2^d` or more (R183). -/
def tooWide (d : Nat) (f : Coeffs) : Bool := f.toList.any fun c => decide (2 ^ d ≤ c.val)

/-- Some decoded value is 3329 or more (R186). -/
def outOfField (vs : List Nat) : Bool := vs.any fun v => decide (3329 ≤ v)

/-- `BCLR` (R184): `BLEN <- 0`; the stored bytes stay. -/
def execBclr (s : State) : Outcome := command .bclr s [] (complete (setBlen s 0))

/-- `BPUT imm8` (R185): a full BUF raises `LENGTH` (R52: "`BPUT` checks `BLEN < 384`"); else
`MemWrite(BLEN, 1, imm8); BLEN <- BLEN + 1`. -/
def execBput (imm8 : Byte) (s : State) : Outcome :=
  command (.bput imm8) s [(decide (384 ≤ s.blen.toNat), .length)]
    (complete (setBlen (memWrite s s.blen.toNat imm8) (s.blen.toNat + 1)))

/-- `ENCODE pa, d` (R183): a reserved `d` raises `ILLEGAL`, tag `E` `EMPTY`, a coefficient of `2^d` or more `RANGE`; else
bytes `0 .. 32·d − 1` of BUF are `encode(d, p[pa])` and `BLEN <- 32·d`. -/
def execEncode (pa : RegNo) (d : BitVec 4) (s : State) : Outcome :=
  command (.encode pa d) s
    [(badWidth d, .illegal), (polyEmpty s pa, .empty), (tooWide d.toNat (readPoly s pa), .range)]
    (complete (setBlen (memWriteList s 0 (encodeBytes d.toNat (readPoly s pa))) (32 * d.toNat)))

/-- The values `DECODE.R` and `DECODE.T` read from BUF (R186). -/
def bufValues (s : State) (d : BitVec 4) : List Nat := decodeValues d.toNat (memReadList s (32 * d.toNat))

/-- The checks of the decoder in order (R186): a reserved `d` raises `ILLEGAL`, `BLEN ≠ 32·d` `LENGTH`, a value of 3329 or
more `RANGE`. For `d ≤ 11` every value is below 2048, so the last one fails at `d = 12` only. -/
def decodeChecks (s : State) (d : BitVec 4) : List (Bool × Cause) :=
  [(badWidth d, .illegal), (blenNot s (32 * d.toNat), .length), (outOfField (bufValues s d), .range)]

/-- The decoded polynomial (R186). -/
def decodedPoly (s : State) (d : BitVec 4) : Coeffs := ofValues ((bufValues s d).map fun v : Nat => toField v)

/-- `DECODE.R pd, d` (R186): `p[pd] <- (decode(d, BUF), R)`. -/
def execDecodeR (pd : RegNo) (d : BitVec 4) (s : State) : Outcome :=
  command (.decodeR pd d) s (decodeChecks s d) (complete (writePoly s pd (decodedPoly s d) .rq))

/-- `DECODE.T pd, d` (R187): `p[pd] <- (decode(d, BUF), T)`. -/
def execDecodeT (pd : RegNo) (d : BitVec 4) (s : State) : Outcome :=
  command (.decodeT pd d) s (decodeChecks s d) (complete (writePoly s pd (decodedPoly s d) .tq))

end Sys2Proof.Machine
end

