-- ==== Sys2Proof/Machine/PolyArith.lean ====
section
/-! DEFINITION. Polynomial arithmetic (42_poly_arithmetic.md R140, R143) and its commands `PADD`, `PSUB`, `PMUL` and `PLC`
(R141, R142, R144, R145). -/
namespace Sys2Proof.Machine

/-- `padd(a, b)[n] = zadd(a[n], b[n])` (R140). -/
def padd (a b : Coeffs) : Coeffs := ofValues (List.zipWith zadd a.toList b.toList)

/-- `psub(a, b)[n] = zsub(a[n], b[n])` (R140). -/
def psub (a b : Coeffs) : Coeffs := ofValues (List.zipWith zsub a.toList b.toList)

/-- The products of adjacent pairs, pair `m` modulo `X^2 − GAMMA[m]` (R143):
`c0 = a0·b0 + γ·(a1·b1)`, `c1 = a0·b1 + a1·b0`. -/
def pmulPairs : (m : Nat) → List FieldElement → List FieldElement → List FieldElement
  | m, a0 :: a1 :: as, b0 :: b1 :: bs =>
    zadd (zmul a0 b0) (zmul (gamma m) (zmul a1 b1)) :: zadd (zmul a0 b1) (zmul a1 b0) :: pmulPairs (m + 1) as bs
  | _, _, _ => []

/-- `pmul(a, b)` (R143). -/
def pmul (a b : Coeffs) : Coeffs := ofValues (pmulPairs 0 a.toList b.toList)

/-- `acc <- padd(acc, pmul(a_j, s_j))` for each pair in order, from `acc = e` (R145). -/
def linearCombination (e : Coeffs) (terms : List (Coeffs × Coeffs)) : Coeffs :=
  terms.foldl (fun acc t => padd acc (pmul t.1 t.2)) e

/-- The pairs `(p[pa + j], p[pb + j])` for `j < k` (R145). -/
def plcTerms (s : State) (pa pb : RegNo) (k : BitVec 8) : List (Coeffs × Coeffs) :=
  ((window pa k).map (readPoly s)).zip ((window pb k).map (readPoly s))

/-- `PADD pd, pa, pb` (R141): an empty source raises `EMPTY`, two tags that differ `DOMAIN`; else
`p[pd] <- (padd(p[pa], p[pb]), ptag[pa])`. -/
def execPadd (pd pa pb : RegNo) (s : State) : Outcome :=
  command (.padd pd pa pb) s
    [(polyEmpty s pa || polyEmpty s pb, .empty), (notDomain s (polyTag s pb) pa, .domain)]
    (complete (writePoly s pd (padd (readPoly s pa) (readPoly s pb)) (polyTag s pa)))

/-- `PSUB pd, pa, pb` (R142): an empty source raises `EMPTY`, two tags that differ `DOMAIN`; else
`p[pd] <- (psub(p[pa], p[pb]), ptag[pa])`. -/
def execPsub (pd pa pb : RegNo) (s : State) : Outcome :=
  command (.psub pd pa pb) s
    [(polyEmpty s pa || polyEmpty s pb, .empty), (notDomain s (polyTag s pb) pa, .domain)]
    (complete (writePoly s pd (psub (readPoly s pa) (readPoly s pb)) (polyTag s pa)))

/-- `PMUL pd, pa, pb` (R144): an empty source raises `EMPTY`, a source not tagged `T` `DOMAIN`; else
`p[pd] <- (pmul(p[pa], p[pb]), T)`. -/
def execPmul (pd pa pb : RegNo) (s : State) : Outcome :=
  command (.pmul pd pa pb) s
    [(polyEmpty s pa || polyEmpty s pb, .empty), (notDomain s .tq pa || notDomain s .tq pb, .domain)]
    (complete (writePoly s pd (pmul (readPoly s pa) (readPoly s pb)) .tq))

/-- `PLC pd, pe, pa, pb, k` (R145): `k` not 2, 3 or 4 raises `SHAPE`, a window past `p15` `ILLEGAL`, an empty source `EMPTY`,
a source tagged `R` `DOMAIN`; else `p[pd] <- (p[pe] + Σ_j pmul(p[pa + j], p[pb + j]), T)`. -/
def execPlc (pd pe pa pb : RegNo) (k : BitVec 8) (s : State) : Outcome :=
  command (.plc pd pe pa pb k) s
    [(badRank k, .shape), (pastLast pa k || pastLast pb k, .illegal),
     ((plcSources pe pa pb k).any (polyEmpty s), .empty), ((plcSources pe pa pb k).any (notDomain s .tq), .domain)]
    (complete (writePoly s pd (linearCombination (readPoly s pe) (plcTerms s pa pb k)) .tq))

end Sys2Proof.Machine
end

