-- ==== Sys2Proof/Machine/Samplers.lean ====
section
/-! DEFINITION. The samplers (43_samplers.md R164, R167) and their commands `XOPEN`, `SAMPLEU` and `SAMPLECBD` (R163, R165,
R169). -/
namespace Sys2Proof.Machine

/-- `XOPEN i, j` (R163): `XI <- i; XJ <- j; XPOS <- 0; XVALID <- 1`. -/
def execXopen (i j : Byte) (s : State) : Outcome := command (.xopen i j) s [] (complete (openStream s i j))

/-- Rejection sampling in progress: the values accepted so far, the newest first (so that Lean's kernel evaluates a sample
fast), and the position of the next byte (R164). -/
structure Sampling where
  out : List FieldElement
  pos : Nat
deriving DecidableEq, Repr

/-- `out` with a candidate added if it is below 3329 and fewer than 256 values have been accepted (R164). -/
def accept (out : List FieldElement) (d : Nat) : List FieldElement :=
  if h : d < 3329 then (if out.length < 256 then ⟨d, h⟩ :: out else out) else out

/-- `d1 = b0 + 256·(b1 mod 16)` (R164). -/
def candidate1 (b0 b1 : Byte) : Nat := b0.toNat + 256 * (b1.toNat % 16)

/-- `d2 = (b1 div 16) + 16·b2` (R164). -/
def candidate2 (b1 b2 : Byte) : Nat := b1.toNat / 16 + 16 * b2.toNat

/-- One turn of the loop of R164: `XofRead3()` (R56), then the two candidates in order. -/
def readChunk (stream : Nat → Byte) (a : Sampling) : Sampling where
  out := accept (accept a.out (candidate1 (stream a.pos) (stream (a.pos + 1))))
    (candidate2 (stream (a.pos + 1)) (stream (a.pos + 2)))
  pos := a.pos + 3

/-- 256 values have been accepted (R164). -/
def Sampling.full (a : Sampling) : Bool := decide (256 ≤ a.out.length)

/-- The loop of R164, "while length(out) < 256": the sample when it ends, `none` when it never ends (R166). -/
def sampleLoop (stream : Nat → Byte) (a : Sampling) : Option Sampling :=
  if a.full then some a else sampleLoop stream (readChunk stream a)
partial_fixpoint

/-- At most `n` turns of the loop of R164, stopping when it ends. -/
def readChunks (stream : Nat → Byte) : (n : Nat) → Sampling → Sampling
  | 0, a => a
  | n + 1, a => if a.full then a else readChunks stream n (readChunk stream a)

/-- The loop of R164, its first `n` turns by structural recursion. The result does not depend on `n`; Lean's kernel can
evaluate a sample that ends within them. -/
def sampleFrom (stream : Nat → Byte) (n : Nat) (a : Sampling) : Option Sampling :=
  if (readChunks stream n a).full then some (readChunks stream n a) else sampleLoop stream (readChunks stream n a)

/-- The bytes of the open stream (R56). -/
def openBytes (s : State) (n : Nat) : Byte := xofByte s (streamI s) (streamJ s) n

/-- How many turns the loop is run by structural recursion: as many as the open stream is listed for, and enough to
decide a stream that repeats. No result depends on it. -/
def listedTurns (s : State) : Nat :=
  match findStream s.xof (streamI s) (streamJ s) with
  | some x => if x.cycle.isEmpty then (x.bytes.length - s.xpos) / 3 else x.bytes.length + 256 * x.cycle.length
  | none => 0

/-- The sample `SAMPLEU` draws from the open stream at `XPOS`; `none` if the loop never ends (R165, R166). -/
def uniformSample (s : State) : Option Sampling := sampleFrom (openBytes s) (listedTurns s) ⟨[], s.xpos⟩

/-- The end of `SAMPLEU` (R165): `p[pd] <- (out, T)` with `XPOS` advanced by the reads; stuck if the loop never ends
(R166). -/
def finishSample (pd : RegNo) (s : State) : Option Sampling → Outcome
  | some a => complete (setXpos (writePoly s pd (ofValues a.out.reverse) .tq) a.pos)
  | none => .fault .samplerHung

/-- `SAMPLEU pd` (R165): `XVALID = 0` raises `EMPTY`; else the sample of R164. -/
def execSampleu (pd : RegNo) (s : State) : Outcome :=
  command (.sampleu pd) s [(!s.xvalid, .empty)] (finishSample pd s (uniformSample s))

/-- One coefficient of the centered-binomial sample from its `2η` bits: the first `η` bits summed, minus the sum of the rest
(R167). -/
def cbdCoefficient (eta : Nat) (bits : List Nat) : FieldElement :=
  toField (((bits.take eta).sum : Int) - ((bits.drop eta).sum : Int))

/-- `cbd(η, B)` (R167), with the bit order of R168. -/
def cbd (eta : Nat) (bytes : List Byte) : Coeffs :=
  ofValues ((groups (2 * eta) 256 (bitString bytes)).map (cbdCoefficient eta))

/-- `SAMPLECBD pd, eta` (R169): a reserved `η` raises `ILLEGAL`, `BLEN ≠ 64·η` `LENGTH`; else
`p[pd] <- (cbd(η, BUF), R)`. -/
def execSamplecbd (pd : RegNo) (eta : BitVec 4) (s : State) : Outcome :=
  command (.samplecbd pd eta) s [(badEta eta, .illegal), (blenNot s (64 * eta.toNat), .length)]
    (complete (writePoly s pd (cbd eta.toNat (memReadList s (64 * eta.toNat))) .rq))

end Sys2Proof.Machine
end

