-- ==== Sys2Proof/Machine/Transform.lean ====
section
/-! DEFINITION. The forward and inverse transform (41_ntt.md R121, R123) and their commands `NTT` and `INTT` (R122, R124).
A stage works block by block, with one running twiddle index; the butterflies of a block touch disjoint pairs of cells, so a
block is written as a map over its two halves. `Reference.lean` holds the in-place loops of R121 and R123 word for word. -/
namespace Sys2Proof.Machine

/-- The butterflies of one forward block: `f[j] + ζ·f[j+len]` in the first half, `f[j] − ζ·f[j+len]` in the second (R121). -/
def nttBlock (z : FieldElement) (lo hi : List FieldElement) : List FieldElement :=
  List.zipWith (fun a b => zadd a (zmul z b)) lo hi ++ List.zipWith (fun a b => zsub a (zmul z b)) lo hi

/-- `blocks` blocks of width `2·len` of a forward stage, the first with twiddle `ZETA[k]` and each next with the next one up
(R121). -/
def nttBlocks (len : Nat) : (blocks k : Nat) → List FieldElement → List FieldElement
  | 0, _, f => f
  | blocks + 1, k, f =>
    nttBlock (zeta k) (f.take len) ((f.drop len).take len) ++ nttBlocks len blocks (k + 1) (f.drop (2 * len))

/-- `ntt(f)` (R121): stages `len = 128, 64, ..., 2` of `1, 2, ..., 64` blocks; stage `len` starts at twiddle `128/len`. -/
def ntt (f : Coeffs) : Coeffs :=
  ofValues ([128, 64, 32, 16, 8, 4, 2].foldl (fun g len => nttBlocks len (128 / len) (128 / len) g) f.toList)

/-- The butterflies of one inverse block: `f[j] + f[j+len]` in the first half, `ζ·(f[j+len] − f[j])` in the second (R123). -/
def inttBlock (z : FieldElement) (lo hi : List FieldElement) : List FieldElement :=
  List.zipWith (fun a b => zadd a b) lo hi ++ List.zipWith (fun a b => zmul z (zsub b a)) lo hi

/-- `blocks` blocks of width `2·len` of an inverse stage, the first with twiddle `ZETA[k]` and each next with the next one
down, in ascending order of `start` (R123; 90_conflicts.md C3). -/
def inttBlocks (len : Nat) : (blocks k : Nat) → List FieldElement → List FieldElement
  | 0, _, f => f
  | blocks + 1, k, f =>
    inttBlock (zeta k) (f.take len) ((f.drop len).take len) ++ inttBlocks len blocks (k - 1) (f.drop (2 * len))

/-- `intt(f)` (R123): stages `len = 2, 4, ..., 128`; stage `len` starts at twiddle `256/len − 1`; then every coefficient is
multiplied by 3303, the inverse of 128. -/
def intt (f : Coeffs) : Coeffs :=
  ofValues (([2, 4, 8, 16, 32, 64, 128].foldl (fun g len => inttBlocks len (128 / len) (256 / len - 1) g) f.toList).map
    fun x => zmul x 3303)

/-- `NTT pd, pa` (R122): tag `E` raises `EMPTY`, tag `T` raises `DOMAIN`; else `p[pd] <- (ntt(p[pa]), T)`. -/
def execNtt (pd pa : RegNo) (s : State) : Outcome :=
  command (.ntt pd pa) s [(polyEmpty s pa, .empty), (notDomain s .rq pa, .domain)]
    (complete (writePoly s pd (ntt (readPoly s pa)) .tq))

/-- `INTT pd, pa` (R124): tag `E` raises `EMPTY`, tag `R` raises `DOMAIN`; else `p[pd] <- (intt(p[pa]), R)`. -/
def execIntt (pd pa : RegNo) (s : State) : Outcome :=
  command (.intt pd pa) s [(polyEmpty s pa, .empty), (notDomain s .tq pa, .domain)]
    (complete (writePoly s pd (intt (readPoly s pa)) .rq))

end Sys2Proof.Machine
end

