-- ==== Sys2Proof/Machine/Zq.lean ====
section
/-! DEFINITION. The scalar commands, unit `modular_mult` (40_zq_arithmetic.md R104 to R110). -/
namespace Sys2Proof.Machine

/-- `ZLI rd, imm12` (R104): `imm12 ≥ 3329` raises `RANGE`; else `s[rd] <- imm12`. -/
def execZli (rd : RegNo) (imm12 : BitVec 12) (s : State) : Outcome :=
  command (.zli rd imm12) s [(decide (3329 ≤ imm12.toNat), .range)]
    (complete (writeScalar s rd (toField imm12.toNat)))

/-- `ZADD rd, ra, rb` (R105): an empty source raises `EMPTY`; else `s[rd] <- zadd(s[ra], s[rb])`. -/
def execZadd (rd ra rb : RegNo) (s : State) : Outcome :=
  command (.zadd rd ra rb) s [(scalarEmpty s ra || scalarEmpty s rb, .empty)]
    (complete (writeScalar s rd (zadd (readScalar s ra) (readScalar s rb))))

/-- `ZSUB rd, ra, rb` (R106): an empty source raises `EMPTY`; else `s[rd] <- zsub(s[ra], s[rb])`. -/
def execZsub (rd ra rb : RegNo) (s : State) : Outcome :=
  command (.zsub rd ra rb) s [(scalarEmpty s ra || scalarEmpty s rb, .empty)]
    (complete (writeScalar s rd (zsub (readScalar s ra) (readScalar s rb))))

/-- `ZMUL rd, ra, rb` (R107): an empty source raises `EMPTY`; else `s[rd] <- zmul(s[ra], s[rb])`. -/
def execZmul (rd ra rb : RegNo) (s : State) : Outcome :=
  command (.zmul rd ra rb) s [(scalarEmpty s ra || scalarEmpty s rb, .empty)]
    (complete (writeScalar s rd (zmul (readScalar s ra) (readScalar s rb))))

/-- `ZPOW rd, ra, imm12` (R108): an empty source raises `EMPTY`; else `s[rd] <- zpow(s[ra], imm12)`. -/
def execZpow (rd ra : RegNo) (imm12 : BitVec 12) (s : State) : Outcome :=
  command (.zpow rd ra imm12) s [(scalarEmpty s ra, .empty)]
    (complete (writeScalar s rd (zpow (readScalar s ra) imm12.toNat)))

/-- `ZLDZ rd, imm7` (R109): `s[rd] <- ZETA[imm7]`. -/
def execZldz (rd : RegNo) (imm7 : BitVec 7) (s : State) : Outcome :=
  command (.zldz rd imm7) s [] (complete (writeScalar s rd (zeta imm7.toNat)))

/-- `ZLDG rd, imm7` (R110): `s[rd] <- GAMMA[imm7]`. -/
def execZldg (rd : RegNo) (imm7 : BitVec 7) (s : State) : Outcome :=
  command (.zldg rd imm7) s [] (complete (writeScalar s rd (gamma imm7.toNat)))

end Sys2Proof.Machine
end

