-- ==== Sys2Proof/Machine/Dispatch.lean ====
section
/-! DEFINITION. One arm per command of 30_encoding.md R74, each one call of its meaning. -/
namespace Sys2Proof.Machine

/-- Runs one command (R70). -/
def exec (i : Instr) (s : State) : Host.Outcome State Fault Refusal :=
  match i with
  | .zli rd imm12 => Sys2Proof.Machine.execZli rd imm12 s
  | .zadd rd ra rb => Sys2Proof.Machine.execZadd rd ra rb s
  | .zsub rd ra rb => Sys2Proof.Machine.execZsub rd ra rb s
  | .zmul rd ra rb => Sys2Proof.Machine.execZmul rd ra rb s
  | .zpow rd ra imm12 => Sys2Proof.Machine.execZpow rd ra imm12 s
  | .zldz rd imm7 => Sys2Proof.Machine.execZldz rd imm7 s
  | .zldg rd imm7 => Sys2Proof.Machine.execZldg rd imm7 s
  | .ntt pd pa => Sys2Proof.Machine.execNtt pd pa s
  | .intt pd pa => Sys2Proof.Machine.execIntt pd pa s
  | .padd pd pa pb => Sys2Proof.Machine.execPadd pd pa pb s
  | .psub pd pa pb => Sys2Proof.Machine.execPsub pd pa pb s
  | .pmul pd pa pb => Sys2Proof.Machine.execPmul pd pa pb s
  | .plc pd pe pa pb k => Sys2Proof.Machine.execPlc pd pe pa pb k s
  | .xopen i8 j8 => Sys2Proof.Machine.execXopen i8 j8 s
  | .sampleu pd => Sys2Proof.Machine.execSampleu pd s
  | .samplecbd pd eta => Sys2Proof.Machine.execSamplecbd pd eta s
  | .bclr => Sys2Proof.Machine.execBclr s
  | .bput imm8 => Sys2Proof.Machine.execBput imm8 s
  | .encode pa d => Sys2Proof.Machine.execEncode pa d s
  | .decodeR pd d => Sys2Proof.Machine.execDecodeR pd d s
  | .decodeT pd d => Sys2Proof.Machine.execDecodeT pd d s

end Sys2Proof.Machine
end

