-- ==== Sys2Proof/Machine/Step.lean ====
section
/-! DEFINITION. One step of the machine: the host's next move (10_state.md R20), a whole command at a time (30_encoding.md
R70). -/
namespace Sys2Proof.Machine

/-- The host has issued the word `w` (R70): it is decoded (R75), raises `ILLEGAL` if it is no command (R76), and is executed
completely otherwise; `s` is the state with the word taken from the host's moves. -/
def deliver (w : Word) (s : State) : Host.Outcome State Fault Refusal :=
  match decodeWord w with
  | .illegal _ => illegalWord w s
  | .command i => resetIfHung s (exec i s)

/-- One step: idle while the host makes no move (R240), reset (R250), or one delivered command (R70). -/
def step (s : State) : Host.Outcome State Fault Refusal :=
  match s.pending with
  | [] => idle s
  | .reset :: rest => .next (hostReset s rest)
  | .command w :: rest => deliver w (withPending s rest)

/-- `s` with the word of an instruction as the host's next move. Commands are not fetched from memory (R63): the next
instruction is the next word the host issues. -/
def State.withFetchWord (s : State) (nbits w : Nat) : State :=
  { s with pending := .command (BitVec.ofNat 32 (w % 2 ^ nbits)) :: s.pending }

end Sys2Proof.Machine
end

