-- ==== Sys2Proof/Machine/Flags.lean ====
section
/-! DEFINITION. The status bits and the host's read port. The block has no condition codes and no command writes a flag
(10_state.md R31): the only status bits are the fields of STATUS, functions of other state (R33). The host reads control
registers 0..7, scalar registers with their valid bits, valid BUF bytes and tags (R41). -/
namespace Sys2Proof.Machine

/-- The code latched in `ERR` (R220); 0 means no fault. -/
def errCode : Option Cause → BitVec 4
  | none => 0
  | some .illegal => 1
  | some .range => 2
  | some .length => 3
  | some .shape => 4
  | some .domain => 5
  | some .empty => 6

/-- `FAULT`: 1 exactly when `ERR ≠ 0` (R33). -/
def faultBit (s : State) : Bool := errCode s.err != 0

/-- `STATUS` with a given `BUSY` (R33): bit 0 `FAULT`, bit 1 `XVALID`, bit 2 `BUSY`. -/
def statusWith (busy : Bool) (s : State) : BitVec 3 :=
  BitVec.ofNat 3 ((faultBit s).toNat + 2 * s.xvalid.toNat + 4 * busy.toNat)

/-- `STATUS` between commands, where `BUSY` is 0 (R33). -/
def status (s : State) : BitVec 3 := statusWith false s

/-- `STATUS` while a `SAMPLEU` issued in state `s` hangs, where `BUSY` is 1 (R33, R166). -/
def statusHung (s : State) : BitVec 3 := statusWith true s

/-- The host's read of control register `n` (R32, R41). `none`: there is no such register, or the spec leaves its value
unspecified (`XIJ` and `XPOS` while `XVALID = 0`, R40). -/
def hostReadControl (s : State) : Nat → Option Nat
  | 0 => some (status s).toNat
  | 1 => some (errCode s.err).toNat
  | 2 => some s.epc.toNat
  | 3 => some s.ecmd.toNat
  | 4 => some s.pc.toNat
  | 5 => some s.blen.toNat
  | 6 => if s.xvalid then some s.xij.toNat else none
  | 7 => if s.xvalid then some s.xpos else none
  | _ => none

/-- The host's read of `s[r]` with `sval[r]` (R41): `none` when the valid bit is 0, since the value is then unspecified
(93_implementation_defined.md U1). -/
def hostReadScalar (s : State) (r : RegNo) : Option FieldElement :=
  if s.sval[r] then some s.sreg[r] else none

/-- The host's read of `BUF[a]` (R41): `none` at or above `BLEN`, where the byte is unspecified. -/
def hostReadByte (s : State) (a : Nat) : Option Byte := if a < s.blen.toNat then some (memRead s a) else none

/-- The host's read of `ptag[r]` (R41). -/
def hostReadTag (s : State) (r : RegNo) : Tag := polyTag s r

end Sys2Proof.Machine
end

