-- ==== Sys2Proof/Machine/Reference.lean ====
section
/-! DEFINITION. Functions of the spec that no command computes and that the laws are stated with: the in-place loops of
41_ntt.md R121 and R123 as they are written there, `bitrev7` (10_state.md R27), and the reference multiplication
(42_poly_arithmetic.md R150). -/
namespace Sys2Proof.Machine

/-- `f[n]`, for `n` in 0..255; no loop reads another cell. -/
def cell (f : Coeffs) (n : Nat) : FieldElement := f.toList.getD n 0

/-- `f[n] <- v`. -/
def setCell (f : Coeffs) (n : Nat) (v : FieldElement) : Coeffs := f.setIfInBounds n v

/-- The body of the innermost loop of R121, for one `j`. -/
def nttButterfly (z : FieldElement) (len : Nat) (f : Coeffs) (j : Nat) : Coeffs :=
  setCell (setCell f (j + len) (zsub (cell f j) (zmul z (cell f (j + len))))) j
    (zadd (cell f j) (zmul z (cell f (j + len))))

/-- The body of the middle loop of R121, for one `start`; the pair holds `f` and the running index `k`. -/
def nttLoopBlock (len : Nat) (fk : Coeffs × Nat) (start : Nat) : Coeffs × Nat :=
  ((List.range' start len).foldl (nttButterfly (zeta fk.2) len) fk.1, fk.2 + 1)

/-- The starts `0, 2·len, 4·len, ..., 256 − 2·len` of the blocks of a stage. -/
def blockStarts (len : Nat) : List Nat := (List.range (128 / len)).map fun b => b * (2 * len)

/-- The three loops of R121. -/
def nttLoops (f : Coeffs) : Coeffs :=
  ([128, 64, 32, 16, 8, 4, 2].foldl (fun fk len => (blockStarts len).foldl (nttLoopBlock len) fk) (f, 1)).1

/-- The body of the innermost loop of R123, for one `j`. -/
def inttButterfly (z : FieldElement) (len : Nat) (f : Coeffs) (j : Nat) : Coeffs :=
  setCell (setCell f j (zadd (cell f j) (cell f (j + len)))) (j + len)
    (zmul z (zsub (cell f (j + len)) (cell f j)))

/-- The body of the middle loop of R123, for one `start`. -/
def inttLoopBlock (len : Nat) (fk : Coeffs × Nat) (start : Nat) : Coeffs × Nat :=
  ((List.range' start len).foldl (inttButterfly (zeta fk.2) len) fk.1, fk.2 - 1)

/-- The loops of R123, with the final scaling by 3303. -/
def inttLoops (f : Coeffs) : Coeffs :=
  (([2, 4, 8, 16, 32, 64, 128].foldl (fun fk len => (blockStarts len).foldl (inttLoopBlock len) fk) (f, 127)).1).map
    fun x => zmul x 3303

/-- `bitrev7`: the low 7 bits of `k` reversed (R27). -/
def bitrev7 (k : Nat) : Nat :=
  k % 2 * 64 + k / 2 % 2 * 32 + k / 4 % 2 * 16 + k / 8 % 2 * 8 + k / 16 % 2 * 4 + k / 32 % 2 * 2 + k / 64 % 2

/-- `c[m]` of R150: the sum of the products `f[i]·g[j]` with `i + j = m`, `i` ascending. -/
def convolution (f g : Coeffs) (m : Nat) : FieldElement :=
  ((List.range 256).filter fun i => decide (i ≤ m) && decide (m < i + 256)).foldl
    (fun c i => zadd c (zmul (cell f i) (cell g (m - i)))) 0

/-- `rmul(f, g)` (R150): `r[i] = c[i] − c[i + 256]` for `i` in 0..254, and `r[255] = c[255]`. -/
def rmul (f g : Coeffs) : Coeffs :=
  ofValues ((List.range 256).map fun i =>
    if i < 255 then zsub (convolution f g i) (convolution f g (i + 256)) else convolution f g i)

end Sys2Proof.Machine
end

