-- ==== Sys2Proof/Machine/Run.lean ====
section
/-! DEFINITION. A run of a program from a start state (70_reset_and_hazards.md R256): the program is a finite list of command
words, so the host's moves in a run are those words and no reset. -/
namespace Sys2Proof.Machine

/-- The host's moves in a run of `prog` (R256): it issues the words one after another and then stops. -/
def issued (prog : List Word) : List HostMove := prog.map .command

/-- The state after `n` steps; `none` if one of them has no next state. -/
def afterSteps : Nat → State → Option State
  | 0, s => some s
  | n + 1, s =>
    match step s with
    | .next t => afterSteps n t
    | _ => none

/-- Command `n` of the run from `s` completed (R30): its step began and ended with no fault latched, and `PC` advanced. -/
def CommandCompletes (s : State) (n : Nat) : Prop :=
  ∃ u v, afterSteps n s = some u ∧ step u = .next v ∧ u.err = none ∧ v.err = none ∧ v.pc = u.pc + 1

/-- Commands `0 .. n − 1` of the run from `s` completed, one after another, and left `u`. -/
def CompletesFirst (s : State) (n : Nat) (u : State) : Prop :=
  afterSteps n s = some u ∧ ∀ m, m < n → CommandCompletes s m

/-- A run of `prog` from `s` has completed in `t` (R256 a): all `L` commands completed, `ERR = 0`, `PC = PC0 + L`, and the host
has no word left. The only good end. -/
def Completed (prog : List Word) (s t : State) : Prop :=
  CompletesFirst s prog.length t ∧ t.err = none ∧ t.pc = s.pc + BitVec.ofNat 32 prog.length ∧ t.pending = []

/-- A run of `prog` from `s` has faulted in `t` (R256 b): after some completed commands the next one, `w`, took a fault, and `t`
is the state of R224. The words after `w` have not run. -/
def Faulted (prog : List Word) (s t : State) : Prop :=
  ∃ n u w c, CompletesFirst s n u ∧ prog[n]? = some w ∧ step u = .next t ∧
    t = faultEntry (withPending u (issued (prog.drop (n + 1)))) c w

/-- A run of `prog` from `s` hangs (R256 c): after some completed commands the next one is a `SAMPLEU` that never completes
(R166). There is no end state. -/
def Hung (prog : List Word) (s : State) : Prop :=
  ∃ n u w pd, CompletesFirst s n u ∧ prog[n]? = some w ∧ decodeWord w = .command (.sampleu pd) ∧
    step u = .fault .samplerHung

end Sys2Proof.Machine
end

