-- ==== Sys2Proof/WellFormed.lean ====
section
/-! DEFINITION. Which commands pass every check that reads the command word alone (60_exceptions.md R229 steps 1 and 2):
the legal ranges of 30_encoding.md R73 and R76. An ill-formed command still has a meaning: it raises the fault its rule
names. -/
namespace Sys2Proof

/-- The codec width `d` is in 1..12 (R73). -/
def codecWidthOk (d : BitVec 4) : Bool := decide (1 ≤ d.toNat) && decide (d.toNat ≤ 12)

/-- The binomial parameter `η` is in 1..6 (R73). -/
def etaOk (eta : BitVec 4) : Bool := decide (1 ≤ eta.toNat) && decide (eta.toNat ≤ 6)

/-- The module rank `k` is 2, 3 or 4 (R73). -/
def rankOk (k : BitVec 8) : Bool := k.toNat == 2 || k.toNat == 3 || k.toNat == 4

/-- The window of `k` registers that starts at `r` does not run past `p15` (R76). -/
def windowOk (r : RegNo) (k : BitVec 8) : Bool := decide (r.val + k.toNat ≤ 16)

/-- A command none of whose immediate checks fails (R229 steps 1 and 2). -/
def WellFormed : Instr → Bool
  | .zli _ imm12 => decide (imm12.toNat < 3329)
  | .zadd _ _ _ => true
  | .zsub _ _ _ => true
  | .zmul _ _ _ => true
  | .zpow _ _ _ => true
  | .zldz _ _ => true
  | .zldg _ _ => true
  | .ntt _ _ => true
  | .intt _ _ => true
  | .padd _ _ _ => true
  | .psub _ _ _ => true
  | .pmul _ _ _ => true
  | .plc _ _ pa pb k => rankOk k && windowOk pa k && windowOk pb k
  | .xopen _ _ => true
  | .sampleu _ => true
  | .samplecbd _ eta => etaOk eta
  | .bclr => true
  | .bput _ => true
  | .encode _ d => codecWidthOk d
  | .decodeR _ d => codecWidthOk d
  | .decodeT _ d => codecWidthOk d

end Sys2Proof
end

