-- ==== Sys2Proof/Safety.lean ====
section
/-! DEFINITION. What claims are stated with: well-formed states (10_state.md R39), the start of a run (70_reset_and_hazards.md
R256), what a command leaves unchanged, which command can raise which cause (60_exceptions.md R234), and the index formulas of
the samplers and the codec (R164, R167, R181, R182). -/
namespace Sys2Proof.Machine

/-- A well-formed state (R39). That valid scalars and tagged coefficients are below 3329, bytes at most 255 and `ERR` at most 6
is in the types; the form of the byte store is the model's own. -/
structure WellFormedState (s : State) : Prop where
  /-- `BLEN ≤ 384` -/
  blen : s.blen.toNat ≤ 384
  /-- `EPC = ECMD = 0` when `ERR = 0` -/
  latch : s.err = none → s.epc = 0 ∧ s.ecmd = 0
  /-- `XPOS mod 3 = 0` when `XVALID = 1` -/
  xpos : s.xvalid = true → s.xpos % 3 = 0
  /-- the byte store is in canonical form -/
  form : s.buf.wf = true
  /-- the byte store lists no address outside BUF (R50) -/
  range : s.buf.inBuf = true

/-- The start of a run of `prog` (R39, R256): a well-formed state with `ERR = 0`, in which the host has the words of `prog` and
no other move to make. -/
def Launch (prog : List Word) (s : State) : Prop := WellFormedState s ∧ s.err = none ∧ s.pending = issued prog

/-- No scalar register and no valid bit changes. -/
def SameScalars (s t : State) : Prop := t.sreg = s.sreg ∧ t.sval = s.sval

/-- No polynomial register and no tag changes. -/
def SamePolys (s t : State) : Prop := t.preg = s.preg ∧ t.ptag = s.ptag

/-- Every byte of BUF reads as before, and `BLEN` is the same. -/
def SameBuffer (s t : State) : Prop := (∀ a, memRead t a = memRead s a) ∧ t.blen = s.blen

/-- `XVALID`, `XIJ` and `XPOS` are the same. -/
def SameStream (s t : State) : Prop := t.xvalid = s.xvalid ∧ t.xij = s.xij ∧ t.xpos = s.xpos

/-- `ERR`, `EPC` and `ECMD` are the same. -/
def SameLatch (s t : State) : Prop := t.err = s.err ∧ t.epc = s.epc ∧ t.ecmd = s.ecmd

/-- The host's later moves and the XOF unit are the same. -/
def SameEnvironment (s t : State) : Prop := t.pending = s.pending ∧ t.xof = s.xof

/-- A scalar command completed: `s[rd]` holds `v` and is valid, `PC` has advanced, and nothing else has changed. -/
structure WroteScalar (s t : State) (rd : RegNo) (v : Nat) : Prop where
  value : t.sreg[rd].val = v
  valid : t.sval[rd] = true
  others : ∀ r : RegNo, r ≠ rd → t.sreg[r] = s.sreg[r] ∧ t.sval[r] = s.sval[r]
  pc : t.pc = s.pc + 1
  polys : SamePolys s t
  buffer : SameBuffer s t
  stream : SameStream s t
  latch : SameLatch s t
  environment : SameEnvironment s t

/-- A command with a polynomial destination completed: `p[pd]` is tagged `tag`, `PC` has advanced, and of everything else only
the coefficients of `p[pd]` and the stream position may have changed. -/
structure WrotePoly (s t : State) (pd : RegNo) (tag : Tag) : Prop where
  tagged : t.ptag[pd] = tag
  others : ∀ r : RegNo, r ≠ pd → t.preg[r] = s.preg[r] ∧ t.ptag[r] = s.ptag[r]
  pc : t.pc = s.pc + 1
  scalars : SameScalars s t
  buffer : SameBuffer s t
  stream : t.xvalid = s.xvalid ∧ t.xij = s.xij
  latch : SameLatch s t
  environment : SameEnvironment s t

/-- A buffer command completed: `BLEN` holds `n`, `PC` has advanced, and of everything else only bytes of BUF may have
changed. -/
structure WroteBuffer (s t : State) (n : Nat) : Prop where
  blen : t.blen.toNat = n
  pc : t.pc = s.pc + 1
  scalars : SameScalars s t
  polys : SamePolys s t
  stream : SameStream s t
  latch : SameLatch s t
  environment : SameEnvironment s t

/-- Command `i` in state `s` raises cause `c` (R224): the latch is written, with the command's word in ECMD, and nothing else
changes. -/
def Raises (i : Instr) (s : State) (c : Cause) : Prop :=
  exec i s = .next { s with err := some c, epc := s.pc, ecmd := encodeWord i }

/-- The command `i` is the decoding of the 32-bit word `n`, and of no other word (R74, R75). -/
def IsTheWordOf (n : Nat) (i : Instr) : Prop := ∀ w : Word, decodeWord w = .command i ↔ w.toNat = n

/-- Register `r + j`, a member of a window of `PLC` (R145). -/
def regAfter (r : RegNo) (j : Nat) : RegNo := Fin.ofNat 16 (r.val + j)

/-- The state after some commands issued one after another (R77); `none` if one of them has no next state. -/
def runAll : List Instr → State → Option State
  | [], s => some s
  | i :: is, s =>
    match exec i s with
    | .next t => runAll is t
    | _ => none

/-- `PMUL px, pa, pb; PADD pd, pe, px; PMUL px, pa+1, pb+1; PADD pd, pd, px; ...` with `k` products (R146). -/
def plcExpansion (pd pe pa pb px : RegNo) (k : Nat) : List Instr :=
  (List.range k).flatMap fun j =>
    [.pmul px (regAfter pa j) (regAfter pb j), .padd pd (if j = 0 then pe else pd) px]

/-- The table of R234. A word that is no command raises `ILLEGAL` whatever its opcode, so every row has that mark. -/
def mayRaise : Instr → Cause → Bool
  | _, .illegal => true
  | .zli _ _, c => c == .range
  | .zadd _ _ _, c => c == .empty
  | .zsub _ _ _, c => c == .empty
  | .zmul _ _ _, c => c == .empty
  | .zpow _ _ _, c => c == .empty
  | .zldz _ _, _ => false
  | .zldg _ _, _ => false
  | .ntt _ _, c => c == .domain || c == .empty
  | .intt _ _, c => c == .domain || c == .empty
  | .padd _ _ _, c => c == .domain || c == .empty
  | .psub _ _ _, c => c == .domain || c == .empty
  | .pmul _ _ _, c => c == .domain || c == .empty
  | .plc _ _ _ _ _, c => c == .shape || c == .domain || c == .empty
  | .xopen _ _, _ => false
  | .sampleu _, c => c == .empty
  | .samplecbd _ _, c => c == .length
  | .bclr, _ => false
  | .bput _, c => c == .length
  | .encode _ _, c => c == .range || c == .empty
  | .decodeR _ _, c => c == .range || c == .length
  | .decodeT _ _, c => c == .range || c == .length

/-- The scalar register a command writes (R23). -/
def scalarDest : Instr → Option RegNo
  | .zli rd _ => some rd
  | .zadd rd _ _ => some rd
  | .zsub rd _ _ => some rd
  | .zmul rd _ _ => some rd
  | .zpow rd _ _ => some rd
  | .zldz rd _ => some rd
  | .zldg rd _ => some rd
  | _ => none

/-- The polynomial register a command writes (R26). -/
def polyDest : Instr → Option RegNo
  | .ntt pd _ => some pd
  | .intt pd _ => some pd
  | .padd pd _ _ => some pd
  | .psub pd _ _ => some pd
  | .pmul pd _ _ => some pd
  | .plc pd _ _ _ _ => some pd
  | .sampleu pd => some pd
  | .samplecbd pd _ => some pd
  | .decodeR pd _ => some pd
  | .decodeT pd _ => some pd
  | _ => none

/-- The commands that change BUF or `BLEN` (R53). -/
def writesBuffer : Instr → Bool
  | .bclr => true
  | .bput _ => true
  | .encode _ _ => true
  | _ => false

/-- `cand(n)` of R164, read from `XPOS` of the open stream: `cand(2c)` is `d1` and `cand(2c + 1)` is `d2` of chunk `c`. -/
def candidate (s : State) (n : Nat) : Nat :=
  if n % 2 = 0 then
    (openBytes s (s.xpos + 3 * (n / 2))).toNat + 256 * ((openBytes s (s.xpos + 3 * (n / 2) + 1)).toNat % 16)
  else (openBytes s (s.xpos + 3 * (n / 2) + 1)).toNat / 16 + 16 * (openBytes s (s.xpos + 3 * (n / 2) + 2)).toNat

/-- The candidates below 3329 of the first `m` chunks, in order (R164). -/
def acceptable (s : State) (m : Nat) : List Nat :=
  ((List.range (2 * m)).map (candidate s)).filter fun d => decide (d < 3329)

/-- `bit(g)` of the bytes in BUF: bit `g mod 8` of byte `g div 8` (R54). -/
def bufBit (s : State) (g : Nat) : Nat := (memRead s (g / 8)).toNat / 2 ^ (g % 8) % 2

/-- `bitstr(g)` of the codec: bit `g mod d` of coefficient `g div d` (R181). -/
def coeffBit (d : Nat) (f : Coeffs) (g : Nat) : Nat := (cell f (g / d)).val / 2 ^ (g % d) % 2

/-- `f[c]` of R182, from the bytes in BUF. -/
def bufValue (s : State) (d c : Nat) : Nat := ∑ i ∈ Finset.range d, bufBit s (c * d + i) * 2 ^ i

end Sys2Proof.Machine
end

