-- ==== Sys2Proof/Certificates/Slice0/Obligations.lean ====
section
/-! DEFINITION. The statements for the provers, each a `def Obligations.<Name> : Prop`; OBLIGATIONS.json gives their rules. -/
open Sys2Proof Sys2Proof.Machine

/-! ### Reset, the host's moves and the fault latch -/

/-- R40: the values the spec gives the state after reset. -/
def Obligations.ResetLeavesTheListedValues : Prop :=
  (∀ r : RegNo, State.reset.sval[r] = false) ∧ (∀ r : RegNo, State.reset.ptag[r] = .empty) ∧
  State.reset.pc = 0 ∧ errCode State.reset.err = 0 ∧ State.reset.epc = 0 ∧ State.reset.ecmd = 0 ∧
  State.reset.blen = 0 ∧ State.reset.xvalid = false ∧ status State.reset = 0 ∧
  (∀ k, k < 128 → (zeta k).val = 17 ^ bitrev7 k % 3329 ∧ (gamma k).val = 17 ^ (2 * bitrev7 k + 1) % 3329)

/-- R250: reset by the host, from any state, a faulted one too, gives the reset state; the host's later moves and the XOF unit
are outside the block and stay (log entries 4 and 5). What the cells R250 calls unspecified hold is the model's choice (log entries
1, 2 and 3, DESIGN CHOICE): the old bytes of BUF are dropped. -/
def Obligations.HostResetIsTotal : Prop :=
  ∀ (s : State) (rest : List HostMove), s.pending = .reset :: rest →
    step s = .next { State.reset with pending := rest, xof := s.xof }

/-- R70, R75: a step with a delivered word that decodes to `i` is `exec i` on the state with the word taken from the host's
moves, and no command is refused; around it the step adds one thing, that a host whose next move is reset ends a hung
`SAMPLEU` (R250; log entry 7). What the cells unspecified after reset hold is the model's choice (log entries 1, 2 and 3). -/
def Obligations.StepRunsTheDeliveredCommand : Prop :=
  ∀ (s : State) (w : Word) (rest : List HostMove) (i : Instr), s.pending = .command w :: rest →
    decodeWord w = .command i →
    (∀ t, exec i { s with pending := rest } = .next t → step s = .next t) ∧
    (∀ r, exec i { s with pending := rest } ≠ .refused r) ∧
    (exec i { s with pending := rest } = .fault .samplerHung → (∀ more, rest ≠ .reset :: more) →
      step s = .fault .samplerHung) ∧
    (∀ more, exec i { s with pending := rest } = .fault .samplerHung → rest = .reset :: more →
      step s = .next { State.reset with pending := more, xof := s.xof })

/-- R76, R221, R224: a word is illegal exactly when it is the word of no command; delivered, it raises `ILLEGAL`, decided from
the word alone, and changes nothing else. -/
def Obligations.UnmatchedWordsRaiseIllegal : Prop :=
  (∀ w : Word, (∃ why, decodeWord w = .illegal why) ↔ ∀ i, encodeWord i ≠ w) ∧
  ∀ (s : State) (w : Word) (rest : List HostMove), s.pending = .command w :: rest → s.err = none →
    (∀ i, encodeWord i ≠ w) →
    step s = .next { s with pending := rest, err := some .illegal, epc := s.pc, ecmd := w }

/-- R225: while `ERR ≠ 0` a word the host issues changes nothing of the block, as a command or as a delivered word, and no step
but reset leaves the fault. -/
def Obligations.FaultedBlockIgnoresCommands : Prop :=
  (∀ (i : Instr) (s : State), s.err ≠ none → exec i s = .next s) ∧
  (∀ (s : State) (w : Word) (rest : List HostMove), s.err ≠ none → s.pending = .command w :: rest →
    ∃ moves, step s = .next { s with pending := moves }) ∧
  ∀ s t : State, s.err ≠ none → step s = .next t → (∀ rest, s.pending ≠ .reset :: rest) → t.err = s.err

/-- R240: between commands the block is idle and keeps all state. -/
def Obligations.IdleBlockKeepsAllState : Prop :=
  ∀ s : State, s.pending = [] → step s = .next s

/-- R166, R257: `SAMPLEU` has no successor state exactly when it runs on an open stream with fewer than 256 acceptable
candidates from `XPOS` on, and no other command ever lacks one. Which numbers are candidates (R164, R165) rests on log entry 12
(PRESUMED: the weights of the three bytes of a chunk). -/
def Obligations.OnlyAStarvedSamplerHangs : Prop :=
  ∀ (i : Instr) (s : State), (∀ t, exec i s ≠ .next t) ↔
    ((∃ pd, i = .sampleu pd) ∧ s.err = none ∧ s.xvalid = true ∧ ∀ m, (acceptable s m).length < 256)

/-- R166, R210, R250: a starved `SAMPLEU` ends in a reset if that is the host's next move, and never ends otherwise. That the
reset ends the same step is log entry 7 (DEDUCED); which streams are starved (R164) rests on log entry 12 (PRESUMED: the weights
of the three bytes of a chunk). What the cells unspecified after reset hold is the model's choice (log entries 1, 2 and 3). -/
def Obligations.ResetEndsAHungSampler : Prop :=
  ∀ (s : State) (w : Word) (rest : List HostMove) (pd : RegNo), s.pending = .command w :: rest →
    decodeWord w = .command (.sampleu pd) → s.err = none → s.xvalid = true →
    (∀ m, (acceptable s m).length < 256) →
    (∀ more, rest = .reset :: more → step s = .next { State.reset with pending := more, xof := s.xof }) ∧
    ((∀ more, rest ≠ .reset :: more) → step s = .fault .samplerHung)

/-- R224, R230: a command that leaves a fault latched has written the latch (the cause, the index of the command, its word)
and nothing else. -/
def Obligations.FaultsArePreciseAndWriteOnlyTheLatch : Prop :=
  ∀ (i : Instr) (s t : State), s.err = none → exec i s = .next t → t.err ≠ none →
    t = { s with err := t.err, epc := s.pc, ecmd := encodeWord i }

/-- R30: `PC` is 0 after reset and counts the commands completed without a fault, modulo 2^32; a command that faults leaves it;
a completed command does not read it. -/
def Obligations.PcCountsCompletedCommands : Prop :=
  State.reset.pc = 0 ∧
  ∀ (i : Instr) (s t : State), s.err = none → exec i s = .next t →
    (t.err = none → t.pc.toNat = (s.pc.toNat + 1) % 2 ^ 32 ∧
      ∀ p : Word, exec i { s with pc := p } = .next { t with pc := p + 1 }) ∧
    (t.err ≠ none → t.pc = s.pc)

/-- R234: a command raises only the causes its row of the table marks. -/
def Obligations.CommandsRaiseOnlyTheirMarkedCauses : Prop :=
  ∀ (i : Instr) (s t : State) (c : Cause), s.err = none → exec i s = .next t → t.err = some c → mayRaise i c = true

/-- R229: a command that fails an immediate check raises the same cause whatever the state. -/
def Obligations.ImmediateFaultsDependOnTheWordAlone : Prop :=
  ∀ i : Instr, WellFormed i = false → ∃ c, ∀ s : State, s.err = none → Raises i s c

/-- R33, R34, R41, R220: the fields of `STATUS`, and everything the host reads: the control registers by number (R32), with the
code of each cause; a valid scalar register, a byte below `BLEN`, a tag; a twiddle table through `ZLDZ` or `ZLDG` and the scalar
register, a polynomial through `ENCODE pa, 12` and BUF. `BUSY` is no field of the state (log entry 11, DEDUCED). -/
def Obligations.StatusReflectsTheState : Prop :=
  (∀ s : State, ((status s).getLsbD 0 = true ↔ errCode s.err ≠ 0) ∧ (status s).getLsbD 1 = s.xvalid ∧
    (status s).getLsbD 2 = false ∧ (statusHung s).getLsbD 2 = true ∧
    hostReadControl s 0 = some ((if s.err = none then 0 else 1) + (if s.xvalid = true then 2 else 0)) ∧
    (s.err = none → hostReadControl s 1 = some 0) ∧ (s.err = some .illegal → hostReadControl s 1 = some 1) ∧
    (s.err = some .range → hostReadControl s 1 = some 2) ∧ (s.err = some .length → hostReadControl s 1 = some 3) ∧
    (s.err = some .shape → hostReadControl s 1 = some 4) ∧ (s.err = some .domain → hostReadControl s 1 = some 5) ∧
    (s.err = some .empty → hostReadControl s 1 = some 6) ∧
    hostReadControl s 2 = some s.epc.toNat ∧ hostReadControl s 3 = some s.ecmd.toNat ∧
    hostReadControl s 4 = some s.pc.toNat ∧ hostReadControl s 5 = some s.blen.toNat ∧
    (s.xvalid = true → hostReadControl s 6 = some ((streamI s).toNat * 256 + (streamJ s).toNat) ∧
      hostReadControl s 7 = some s.xpos)) ∧
  (∀ (s : State) (r : RegNo) (a : Nat), (s.sval[r] = true → hostReadScalar s r = some s.sreg[r]) ∧
    (a < s.blen.toNat → hostReadByte s a = some (memRead s a)) ∧ hostReadTag s r = s.ptag[r]) ∧
  ∀ s : State, s.err = none →
    (∀ (rd : RegNo) (imm7 : BitVec 7),
      (∃ t, exec (.zldz rd imm7) s = .next t ∧ hostReadScalar t rd = some (zeta imm7.toNat)) ∧
      ∃ t, exec (.zldg rd imm7) s = .next t ∧ hostReadScalar t rd = some (gamma imm7.toNat)) ∧
    ∀ pa : RegNo, s.ptag[pa] ≠ .empty → ∃ t, exec (.encode pa 12) s = .next t ∧ ∀ m, m < 128 →
      ∃ b0 b1 b2 : Byte, hostReadByte t (3 * m) = some b0 ∧ hostReadByte t (3 * m + 1) = some b1 ∧
        hostReadByte t (3 * m + 2) = some b2 ∧
        (cell s.preg[pa] (2 * m)).val = b0.toNat + 256 * (b1.toNat % 16) ∧
        (cell s.preg[pa] (2 * m + 1)).val = b1.toNat / 16 + 16 * b2.toNat

/-! ### Runs -/

/-- R256: a run of a program from a launch state.
It ends in exactly one of three ways, completed, faulted or hung, and in at most one end state.
After `n` completed commands `PC` is `PC0 + n` (so `n` is `PC − PC0` while `n` is below `2^32`), no fault is latched, the XOF argument
is the same, and the next step is the command of `prog[n]`, whether it completes, faults or hangs.
Nothing runs after the end: a completed block is idle, after a fault only the host's own moves differ until a reset, and a hung run
has no state after its command.
The words of the program stand in the model's own field `pending` (log entry 5), and a hung `SAMPLEU` is log entry 7. -/
def Obligations.RunsEndInExactlyOneOfThreeWays : Prop :=
  ∀ (prog : List Word) (s : State), Launch prog s →
    ((∃ t, Completed prog s t) ∨ (∃ t, Faulted prog s t) ∨ Hung prog s) ∧
    (∀ t, Completed prog s t → (∀ t', Completed prog s t' → t' = t) ∧ (∀ t', ¬ Faulted prog s t') ∧ ¬ Hung prog s ∧
      ∀ k, afterSteps k t = some t) ∧
    (∀ t, Faulted prog s t → (∀ t', Faulted prog s t' → t' = t) ∧ ¬ Hung prog s ∧ t.err ≠ none ∧
      ∀ k, ∃ moves, afterSteps k t = some { t with pending := moves }) ∧
    (Hung prog s → ∃ n, n < prog.length ∧ ∀ k, n < k → afterSteps k s = none) ∧
    ∀ (n : Nat) (u : State), n ≤ prog.length → CompletesFirst s n u →
      u.pc = s.pc + BitVec.ofNat 32 n ∧ (n < 2 ^ 32 → (u.pc - s.pc).toNat = n) ∧ u.err = none ∧ u.xof = s.xof ∧
      ∀ w, prog[n]? = some w →
        (∀ i, decodeWord w = .command i → step u = exec i { u with pending := issued (prog.drop (n + 1)) }) ∧
        ((∃ why, decodeWord w = .illegal why) →
          step u = .next { u with pending := issued (prog.drop (n + 1)), err := some .illegal, epc := u.pc, ecmd := w })

/-! ### Encoding -/

/-- R79: the words of the encoding examples and the illegal neighbours. -/
def Obligations.ExampleWordsDecode : Prop :=
  (decodeWord 0x40000000 = .command .bclr ∧ decodeWord 0x31500000 = .command (.sampleu 5) ∧
    decodeWord 0x10100000 = .command (.ntt 1 0) ∧ decodeWord 0x11210000 = .command (.intt 2 1) ∧
    decodeWord 0x04312000 = .command (.zmul 3 1 2) ∧ decodeWord 0x22201000 = .command (.pmul 2 0 1) ∧
    decodeWord 0x23C48003 = .command (.plc 12 4 8 0 3) ∧ decodeWord 0x01100011 = .command (.zli 1 17) ∧
    decodeWord 0x01000D00 = .command (.zli 0 3328) ∧ decodeWord 0x05210040 = .command (.zpow 2 1 64) ∧
    decodeWord 0x06300001 = .command (.zldz 3 1) ∧ decodeWord 0x0740007F = .command (.zldg 4 127) ∧
    decodeWord 0x32400002 = .command (.samplecbd 4 2) ∧ decodeWord 0x4300000C = .command (.decodeR 0 12) ∧
    decodeWord 0x4300001C = .command (.decodeT 0 12) ∧ decodeWord 0x4203000C = .command (.encode 3 12) ∧
    decodeWord 0x410000A5 = .command (.bput 0xA5) ∧ decodeWord 0x30000201 = .command (.xopen 2 1)) ∧
  (decodeWord 0x01100D01 = .command (.zli 1 3329) ∧ decodeWord 0x4203000D = .command (.encode 3 13) ∧
    decodeWord 0x02312001 = .illegal .unusedBits ∧ decodeWord 0x4213000C = .illegal .unusedBits ∧
    decodeWord 0x00000000 = .illegal .unassignedOpcode) ∧
  ∀ s : State, s.err = none → Raises (.zli 1 3329) s .range ∧ Raises (.encode 3 13) s .illegal

/-- R72, R74: decoding the encoding of a command, with every operand at every value its field admits, gives it back. -/
def Obligations.DecodeOfEncodeIsTheCommand : Prop := ∀ i : Instr, decodeWord (encodeWord i) = .command i

/-- R75: a word that decodes to a command is that command's encoding, so no bit of it was ignored. -/
def Obligations.EncodeOfDecodeIsTheWord : Prop :=
  ∀ (w : Word) (i : Instr), decodeWord w = .command i → encodeWord i = w

/-- R74: the masks make the rows disjoint. -/
def Obligations.OpcodeRowsAreDisjoint : Prop :=
  opRows.Pairwise fun r r' => ∀ w : Word, ¬ (r.accepts w = true ∧ r'.accepts w = true)

/-! ### Invariants and what only some commands may change -/

/-- R39: every step maps well-formed states to well-formed states. -/
def Obligations.StepKeepsWellFormedStates : Prop :=
  ∀ s t : State, WellFormedState s → step s = .next t → WellFormedState t

/-- R39: the reset state is well-formed. -/
def Obligations.ResetIsWellFormed : Prop := WellFormedState State.reset

/-- R23: only the scalar commands write a scalar register, and only their destination. -/
def Obligations.OnlyScalarCommandsWriteScalars : Prop :=
  ∀ (i : Instr) (s t : State) (r : RegNo), exec i s = .next t → scalarDest i ≠ some r →
    t.sreg[r] = s.sreg[r] ∧ t.sval[r] = s.sval[r]

/-- R26: only the commands of the table write a polynomial register or a tag, and only their destination. -/
def Obligations.OnlyListedCommandsWritePolynomials : Prop :=
  ∀ (i : Instr) (s t : State) (r : RegNo), exec i s = .next t → polyDest i ≠ some r →
    t.preg[r] = s.preg[r] ∧ t.ptag[r] = s.ptag[r]

/-- R53: only `BCLR`, `BPUT` and `ENCODE` change a byte of BUF or `BLEN`. -/
def Obligations.OnlyBufferCommandsChangeTheBuffer : Prop :=
  ∀ (i : Instr) (s t : State), exec i s = .next t → writesBuffer i = false → SameBuffer s t

/-- R32, R36: `XVALID` and `XIJ` change only by `XOPEN`, `XPOS` only by `XOPEN` and `SAMPLEU`, and `SAMPLEU` never moves it
backwards. -/
def Obligations.OnlyStreamCommandsMoveTheStream : Prop :=
  ∀ (i : Instr) (s t : State), exec i s = .next t → (∀ a b, i ≠ .xopen a b) →
    t.xvalid = s.xvalid ∧ t.xij = s.xij ∧ s.xpos ≤ t.xpos ∧ ((∀ pd, i ≠ .sampleu pd) → t.xpos = s.xpos)

/-- R22, R25: nothing but reset clears a valid bit or makes a tag `E` again. -/
def Obligations.OnlyResetInvalidatesRegisters : Prop :=
  ∀ (i : Instr) (s t : State) (r : RegNo), exec i s = .next t →
    (s.sval[r] = true → t.sval[r] = true) ∧ (s.ptag[r] ≠ .empty → t.ptag[r] ≠ .empty)

/-- R38, R63: no command changes what the host will issue or what the XOF unit answers. -/
def Obligations.CommandsDoNotChangeTheEnvironment : Prop :=
  ∀ (i : Instr) (s t : State), exec i s = .next t → SameEnvironment s t

/-- R51, R52: a read returns the last byte written there, a write changes no other byte, and the canonical form of the byte
store stays. -/
def Obligations.BufferReadsTheLastByteWritten : Prop :=
  ∀ (s : State) (a b : Nat) (v : Byte),
    memRead (memWrite s a v) b = (if b = a then v else memRead s b) ∧
    (s.buf.wf = true → (memWrite s a v).buf.wf = true)

/-! ### The scalar commands -/

/-- R104: `ZLI`. -/
def Obligations.ZliLoadsAFieldElement : Prop :=
  ∀ (rd : RegNo) (imm12 : BitVec 12),
    IsTheWordOf (0x01 * 2 ^ 24 + rd.val * 2 ^ 20 + imm12.toNat) (.zli rd imm12) ∧
    ∀ s : State, s.err = none →
      (imm12.toNat < 3329 → ∃ t, exec (.zli rd imm12) s = .next t ∧ WroteScalar s t rd imm12.toNat) ∧
      (3329 ≤ imm12.toNat → Raises (.zli rd imm12) s .range)

/-- R105, R100: `ZADD`. -/
def Obligations.ZaddAddsModuloQ : Prop :=
  ∀ rd ra rb : RegNo,
    IsTheWordOf (0x02 * 2 ^ 24 + rd.val * 2 ^ 20 + ra.val * 2 ^ 16 + rb.val * 2 ^ 12) (.zadd rd ra rb) ∧
    ∀ s : State, s.err = none →
      (s.sval[ra] = true → s.sval[rb] = true →
        ∃ t, exec (.zadd rd ra rb) s = .next t ∧ WroteScalar s t rd ((s.sreg[ra].val + s.sreg[rb].val) % 3329)) ∧
      (s.sval[ra] = false ∨ s.sval[rb] = false → Raises (.zadd rd ra rb) s .empty)

/-- R106, R101: `ZSUB`; "when `a < b` the result is `a − b + 3329`". -/
def Obligations.ZsubSubtractsModuloQ : Prop :=
  ∀ rd ra rb : RegNo,
    IsTheWordOf (0x03 * 2 ^ 24 + rd.val * 2 ^ 20 + ra.val * 2 ^ 16 + rb.val * 2 ^ 12) (.zsub rd ra rb) ∧
    ∀ s : State, s.err = none →
      (s.sval[ra] = true → s.sval[rb] = true →
        ∃ t, exec (.zsub rd ra rb) s = .next t ∧ WroteScalar s t rd
          (if s.sreg[ra].val < s.sreg[rb].val then s.sreg[ra].val + 3329 - s.sreg[rb].val
           else s.sreg[ra].val - s.sreg[rb].val)) ∧
      (s.sval[ra] = false ∨ s.sval[rb] = false → Raises (.zsub rd ra rb) s .empty)

/-- R107, R102: `ZMUL`. -/
def Obligations.ZmulMultipliesModuloQ : Prop :=
  ∀ rd ra rb : RegNo,
    IsTheWordOf (0x04 * 2 ^ 24 + rd.val * 2 ^ 20 + ra.val * 2 ^ 16 + rb.val * 2 ^ 12) (.zmul rd ra rb) ∧
    ∀ s : State, s.err = none →
      (s.sval[ra] = true → s.sval[rb] = true →
        ∃ t, exec (.zmul rd ra rb) s = .next t ∧ WroteScalar s t rd (s.sreg[ra].val * s.sreg[rb].val % 3329)) ∧
      (s.sval[ra] = false ∨ s.sval[rb] = false → Raises (.zmul rd ra rb) s .empty)

/-- R108, R103: `ZPOW` computes `a^e mod 3329` for every 12-bit exponent, `a^0 = 1` also for `a = 0`. -/
def Obligations.ZpowRaisesToThePower : Prop :=
  ∀ (rd ra : RegNo) (imm12 : BitVec 12),
    IsTheWordOf (0x05 * 2 ^ 24 + rd.val * 2 ^ 20 + ra.val * 2 ^ 16 + imm12.toNat) (.zpow rd ra imm12) ∧
    ∀ s : State, s.err = none →
      (s.sval[ra] = true →
        ∃ t, exec (.zpow rd ra imm12) s = .next t ∧ WroteScalar s t rd (s.sreg[ra].val ^ imm12.toNat % 3329)) ∧
      (s.sval[ra] = false → Raises (.zpow rd ra imm12) s .empty)

/-- R109, R27: `ZLDZ` reads `ZETA[imm7] = 17^bitrev7(imm7) mod 3329`. -/
def Obligations.ZldzReadsZeta : Prop :=
  ∀ (rd : RegNo) (imm7 : BitVec 7),
    IsTheWordOf (0x06 * 2 ^ 24 + rd.val * 2 ^ 20 + imm7.toNat) (.zldz rd imm7) ∧
    ∀ s : State, s.err = none →
      ∃ t, exec (.zldz rd imm7) s = .next t ∧ WroteScalar s t rd (17 ^ bitrev7 imm7.toNat % 3329)

/-- R110, R27: `ZLDG` reads `GAMMA[imm7] = 17^(2·bitrev7(imm7) + 1) mod 3329`. -/
def Obligations.ZldgReadsGamma : Prop :=
  ∀ (rd : RegNo) (imm7 : BitVec 7),
    IsTheWordOf (0x07 * 2 ^ 24 + rd.val * 2 ^ 20 + imm7.toNat) (.zldg rd imm7) ∧
    ∀ s : State, s.err = none →
      ∃ t, exec (.zldg rd imm7) s = .next t ∧ WroteScalar s t rd (17 ^ (2 * bitrev7 imm7.toNat + 1) % 3329)

/-- R111: the values with these operations are a field: commutative, associative, distributive, with the neutral elements, and
every nonzero `a` has the inverse `zpow(a, 3327)`; the values at zero, and 3303 as the inverse of 128. -/
def Obligations.FieldFunctionsFormAField : Prop :=
  (∀ a b c : FieldElement,
    zadd a b = zadd b a ∧ zmul a b = zmul b a ∧ zadd (zadd a b) c = zadd a (zadd b c) ∧
    zmul (zmul a b) c = zmul a (zmul b c) ∧ zmul a (zadd b c) = zadd (zmul a b) (zmul a c) ∧
    zsub a b = zadd a (zsub 0 b) ∧ zadd a 0 = a ∧ zmul a 1 = a ∧ zmul 0 b = 0 ∧
    (a ≠ 0 → zmul a (zpow a 3327) = 1 ∧ (zsub 0 a).val = 3329 - a.val)) ∧
  zadd 0 0 = 0 ∧ zsub 0 0 = 0 ∧ zmul 128 3303 = 1

/-! ### The transforms -/

/-- R122: `NTT`. -/
def Obligations.NttTransformsRqToTq : Prop :=
  ∀ pd pa : RegNo,
    IsTheWordOf (0x10 * 2 ^ 24 + pd.val * 2 ^ 20 + pa.val * 2 ^ 16) (.ntt pd pa) ∧
    ∀ s : State, s.err = none →
      (s.ptag[pa] = .rq → ∃ t, exec (.ntt pd pa) s = .next t ∧ WrotePoly s t pd .tq ∧ t.xpos = s.xpos ∧
        t.preg[pd] = ntt s.preg[pa]) ∧
      (s.ptag[pa] = .empty → Raises (.ntt pd pa) s .empty) ∧
      (s.ptag[pa] = .tq → Raises (.ntt pd pa) s .domain)

/-- R124: `INTT`. -/
def Obligations.InttTransformsTqToRq : Prop :=
  ∀ pd pa : RegNo,
    IsTheWordOf (0x11 * 2 ^ 24 + pd.val * 2 ^ 20 + pa.val * 2 ^ 16) (.intt pd pa) ∧
    ∀ s : State, s.err = none →
      (s.ptag[pa] = .tq → ∃ t, exec (.intt pd pa) s = .next t ∧ WrotePoly s t pd .rq ∧ t.xpos = s.xpos ∧
        t.preg[pd] = intt s.preg[pa]) ∧
      (s.ptag[pa] = .empty → Raises (.intt pd pa) s .empty) ∧
      (s.ptag[pa] = .rq → Raises (.intt pd pa) s .domain)

/-- R121, R123: the transforms are the in-place loops the spec writes. -/
def Obligations.TransformsAreTheInPlaceLoops : Prop := ∀ f : Coeffs, ntt f = nttLoops f ∧ intt f = inttLoops f

/-- R120: pair `m` of the forward transform is the residue of the polynomial modulo `X^2 − GAMMA[m]`. -/
def Obligations.NttPairsAreResidues : Prop :=
  ∀ (f : Coeffs) (m : Nat), m < 128 →
    (cell (ntt f) (2 * m)).val = (∑ n ∈ Finset.range 128, (cell f (2 * n)).val * (gamma m).val ^ n) % 3329 ∧
    (cell (ntt f) (2 * m + 1)).val = (∑ n ∈ Finset.range 128, (cell f (2 * n + 1)).val * (gamma m).val ^ n) % 3329

/-- R125: the round trip of the transforms, as functions and as two commands. -/
def Obligations.TransformsAreInverse : Prop :=
  (∀ f : Coeffs, intt (ntt f) = f ∧ ntt (intt f) = f) ∧
  ∀ (s : State) (p0 p1 p2 : RegNo), s.err = none → s.ptag[p0] = .rq →
    ∃ t u, exec (.ntt p1 p0) s = .next t ∧ exec (.intt p2 p1) t = .next u ∧ u.preg[p2] = s.preg[p0] ∧
      u.ptag[p2] = .rq

/-- R126, R152: both transforms are additive, as functions and as commands, and commute with the multiplication of every
coefficient by a constant. -/
def Obligations.TransformsAreLinear : Prop :=
  (∀ (f g : Coeffs) (c : FieldElement),
    ntt (padd f g) = padd (ntt f) (ntt g) ∧ intt (padd f g) = padd (intt f) (intt g) ∧
    ntt (f.map (zmul c)) = (ntt f).map (zmul c) ∧ intt (f.map (zmul c)) = (intt f).map (zmul c)) ∧
  ∀ s : State, s.err = none → s.ptag[(0 : RegNo)] = .rq → s.ptag[(1 : RegNo)] = .rq →
    ∃ t, runAll [.padd 2 0 1, .ntt 3 2, .ntt 4 0, .ntt 5 1, .padd 6 4 5] s = some t ∧ t.err = none ∧
      t.preg[(3 : RegNo)] = t.preg[(6 : RegNo)]

/-! ### Polynomial arithmetic -/

/-- R141, R140: `PADD`. -/
def Obligations.PaddAddsElementwise : Prop :=
  ∀ pd pa pb : RegNo,
    IsTheWordOf (0x20 * 2 ^ 24 + pd.val * 2 ^ 20 + pa.val * 2 ^ 16 + pb.val * 2 ^ 12) (.padd pd pa pb) ∧
    ∀ s : State, s.err = none →
      (s.ptag[pa] ≠ .empty → s.ptag[pb] = s.ptag[pa] →
        ∃ t, exec (.padd pd pa pb) s = .next t ∧ WrotePoly s t pd s.ptag[pa] ∧ t.xpos = s.xpos ∧
          ∀ n, n < 256 → (cell t.preg[pd] n).val = ((cell s.preg[pa] n).val + (cell s.preg[pb] n).val) % 3329) ∧
      (s.ptag[pa] = .empty ∨ s.ptag[pb] = .empty → Raises (.padd pd pa pb) s .empty) ∧
      (s.ptag[pa] ≠ .empty → s.ptag[pb] ≠ .empty → s.ptag[pa] ≠ s.ptag[pb] → Raises (.padd pd pa pb) s .domain)

/-- R142, R140: `PSUB`. -/
def Obligations.PsubSubtractsElementwise : Prop :=
  ∀ pd pa pb : RegNo,
    IsTheWordOf (0x21 * 2 ^ 24 + pd.val * 2 ^ 20 + pa.val * 2 ^ 16 + pb.val * 2 ^ 12) (.psub pd pa pb) ∧
    ∀ s : State, s.err = none →
      (s.ptag[pa] ≠ .empty → s.ptag[pb] = s.ptag[pa] →
        ∃ t, exec (.psub pd pa pb) s = .next t ∧ WrotePoly s t pd s.ptag[pa] ∧ t.xpos = s.xpos ∧
          ∀ n, n < 256 → (cell t.preg[pd] n).val =
            ((cell s.preg[pa] n).val + 3329 - (cell s.preg[pb] n).val) % 3329) ∧
      (s.ptag[pa] = .empty ∨ s.ptag[pb] = .empty → Raises (.psub pd pa pb) s .empty) ∧
      (s.ptag[pa] ≠ .empty → s.ptag[pb] ≠ .empty → s.ptag[pa] ≠ s.ptag[pb] → Raises (.psub pd pa pb) s .domain)

/-- R144, R143: `PMUL`, pair `m` multiplied modulo `X^2 − GAMMA[m]`. -/
def Obligations.PmulMultipliesPairs : Prop :=
  ∀ pd pa pb : RegNo,
    IsTheWordOf (0x22 * 2 ^ 24 + pd.val * 2 ^ 20 + pa.val * 2 ^ 16 + pb.val * 2 ^ 12) (.pmul pd pa pb) ∧
    ∀ s : State, s.err = none →
      (s.ptag[pa] = .tq → s.ptag[pb] = .tq →
        ∃ t, exec (.pmul pd pa pb) s = .next t ∧ WrotePoly s t pd .tq ∧ t.xpos = s.xpos ∧
          ∀ m, m < 128 →
            (cell t.preg[pd] (2 * m)).val =
              ((cell s.preg[pa] (2 * m)).val * (cell s.preg[pb] (2 * m)).val +
                (gamma m).val * ((cell s.preg[pa] (2 * m + 1)).val * (cell s.preg[pb] (2 * m + 1)).val)) % 3329 ∧
            (cell t.preg[pd] (2 * m + 1)).val =
              ((cell s.preg[pa] (2 * m)).val * (cell s.preg[pb] (2 * m + 1)).val +
                (cell s.preg[pa] (2 * m + 1)).val * (cell s.preg[pb] (2 * m)).val) % 3329) ∧
      (s.ptag[pa] = .empty ∨ s.ptag[pb] = .empty → Raises (.pmul pd pa pb) s .empty) ∧
      (s.ptag[pa] ≠ .empty → s.ptag[pb] ≠ .empty → s.ptag[pa] = .rq ∨ s.ptag[pb] = .rq →
        Raises (.pmul pd pa pb) s .domain)

/-- R145, R229: `PLC`. The faults in their order: `SHAPE`, then a window past `p15`, then `EMPTY`, then `DOMAIN`; with legal `k`
and windows and every source in Tq, `e + Σ_j A_j·s_j`, pair by pair. -/
def Obligations.PlcAccumulatesProducts : Prop :=
  ∀ (pd pe pa pb : RegNo) (k : BitVec 8),
    IsTheWordOf (0x23 * 2 ^ 24 + pd.val * 2 ^ 20 + pe.val * 2 ^ 16 + pa.val * 2 ^ 12 + pb.val * 2 ^ 8 + k.toNat)
      (.plc pd pe pa pb k) ∧
    ∀ s : State, s.err = none →
      (k.toNat ≠ 2 ∧ k.toNat ≠ 3 ∧ k.toNat ≠ 4 → Raises (.plc pd pe pa pb k) s .shape) ∧
      ((k.toNat = 2 ∨ k.toNat = 3 ∨ k.toNat = 4) →
        (16 < pa.val + k.toNat ∨ 16 < pb.val + k.toNat → Raises (.plc pd pe pa pb k) s .illegal) ∧
        (pa.val + k.toNat ≤ 16 → pb.val + k.toNat ≤ 16 →
          ((s.ptag[pe] = .empty ∨
              ∃ j, j < k.toNat ∧ (s.ptag[regAfter pa j] = .empty ∨ s.ptag[regAfter pb j] = .empty)) →
            Raises (.plc pd pe pa pb k) s .empty) ∧
          (s.ptag[pe] ≠ .empty →
            (∀ j, j < k.toNat → s.ptag[regAfter pa j] ≠ .empty ∧ s.ptag[regAfter pb j] ≠ .empty) →
            (s.ptag[pe] = .rq ∨ ∃ j, j < k.toNat ∧ (s.ptag[regAfter pa j] = .rq ∨ s.ptag[regAfter pb j] = .rq)) →
            Raises (.plc pd pe pa pb k) s .domain) ∧
          (s.ptag[pe] = .tq → (∀ j, j < k.toNat → s.ptag[regAfter pa j] = .tq ∧ s.ptag[regAfter pb j] = .tq) →
            ∃ t, exec (.plc pd pe pa pb k) s = .next t ∧ WrotePoly s t pd .tq ∧ t.xpos = s.xpos ∧
              ∀ m, m < 128 →
                (cell t.preg[pd] (2 * m)).val = ((cell s.preg[pe] (2 * m)).val + ∑ j ∈ Finset.range k.toNat,
                  ((cell s.preg[regAfter pa j] (2 * m)).val * (cell s.preg[regAfter pb j] (2 * m)).val +
                    (gamma m).val * ((cell s.preg[regAfter pa j] (2 * m + 1)).val *
                      (cell s.preg[regAfter pb j] (2 * m + 1)).val))) % 3329 ∧
                (cell t.preg[pd] (2 * m + 1)).val = ((cell s.preg[pe] (2 * m + 1)).val + ∑ j ∈ Finset.range k.toNat,
                  ((cell s.preg[regAfter pa j] (2 * m)).val * (cell s.preg[regAfter pb j] (2 * m + 1)).val +
                    (cell s.preg[regAfter pa j] (2 * m + 1)).val * (cell s.preg[regAfter pb j] (2 * m)).val)) % 3329)))

/-- R146: `PLC` leaves its destination as its expansion into `PMUL` and `PADD` does, for a scratch register that is none of the
operands, whenever the expansion raises no fault and the destination is no source of a later product. -/
def Obligations.PlcIsItsExpansion : Prop :=
  ∀ (pd pe pa pb px : RegNo) (k : BitVec 8) (s t : State), s.err = none → (k.toNat = 2 ∨ k.toNat = 3 ∨ k.toNat = 4) →
    pa.val + k.toNat ≤ 16 → pb.val + k.toNat ≤ 16 → px ≠ pd → px ≠ pe →
    (∀ j, j < k.toNat → px ≠ regAfter pa j ∧ px ≠ regAfter pb j) →
    (∀ j, 0 < j → j < k.toNat → pd ≠ regAfter pa j ∧ pd ≠ regAfter pb j) →
    runAll (plcExpansion pd pe pa pb px k.toNat) s = some t → t.err = none →
    ∃ u, exec (.plc pd pe pa pb k) s = .next u ∧ u.err = none ∧ u.preg[pd] = t.preg[pd] ∧ u.ptag[pd] = t.ptag[pd]

/-- R143: `pmul` is commutative and associative, distributes over `padd`, and has the identity of 128 pairs `(1, 0)`. -/
def Obligations.PmulIsARingMultiplication : Prop :=
  ∀ a b c : Coeffs,
    pmul a b = pmul b a ∧ pmul (pmul a b) c = pmul a (pmul b c) ∧ pmul a (padd b c) = padd (pmul a b) (pmul a c) ∧
    pmul (ofValues ((List.range 256).map fun n => if n % 2 = 0 then 1 else 0)) a = a

/-- R151: the multiplicative correspondence with the reference product in Zq[X]/(X^256 + 1), as functions and as commands. -/
def Obligations.PointwiseProductIsRingProduct : Prop :=
  (∀ f g : Coeffs, intt (pmul (ntt f) (ntt g)) = rmul f g) ∧
  ∀ s : State, s.err = none → s.ptag[(0 : RegNo)] = .rq → s.ptag[(1 : RegNo)] = .rq →
    ∃ t, runAll [.ntt 2 0, .ntt 3 1, .pmul 4 2 3, .intt 5 4] s = some t ∧ t.err = none ∧
      t.preg[(5 : RegNo)] = rmul s.preg[(0 : RegNo)] s.preg[(1 : RegNo)] ∧ t.ptag[(5 : RegNo)] = .rq

/-- R153: what `PLC` computes on transformed operands is, transformed back, `e + Σ_j rmul(a_j, s_j)` in Rq, as functions and as
the commands `PLC` and `INTT`. -/
def Obligations.LinearCombinationIsRingCombination : Prop :=
  (∀ (e : Coeffs) (terms : List (Coeffs × Coeffs)),
    intt (linearCombination (ntt e) (terms.map fun t => (ntt t.1, ntt t.2))) =
      terms.foldl (fun acc t => padd acc (rmul t.1 t.2)) e) ∧
  ∀ (pd pe pa pb p2 : RegNo) (k : BitVec 8) (e : Coeffs) (a b : Nat → Coeffs) (s : State), s.err = none →
    (k.toNat = 2 ∨ k.toNat = 3 ∨ k.toNat = 4) → pa.val + k.toNat ≤ 16 → pb.val + k.toNat ≤ 16 →
    s.ptag[pe] = .tq → s.preg[pe] = ntt e →
    (∀ j, j < k.toNat → s.ptag[regAfter pa j] = .tq ∧ s.preg[regAfter pa j] = ntt (a j) ∧
      s.ptag[regAfter pb j] = .tq ∧ s.preg[regAfter pb j] = ntt (b j)) →
    ∃ t u, exec (.plc pd pe pa pb k) s = .next t ∧ exec (.intt p2 pd) t = .next u ∧ u.err = none ∧ u.ptag[p2] = .rq ∧
      u.preg[p2] = (List.range k.toNat).foldl (fun acc j => padd acc (rmul (a j) (b j))) e

/-! ### The samplers -/

/-- R163: `XOPEN`. -/
def Obligations.XopenSelectsAndRewinds : Prop :=
  ∀ i j : Byte,
    IsTheWordOf (0x30 * 2 ^ 24 + i.toNat * 2 ^ 8 + j.toNat) (.xopen i j) ∧
    ∀ s : State, s.err = none →
      ∃ t, exec (.xopen i j) s = .next t ∧ streamI t = i ∧ streamJ t = j ∧ t.xpos = 0 ∧ t.xvalid = true ∧
        t.pc = s.pc + 1 ∧ SameScalars s t ∧ SamePolys s t ∧ SameBuffer s t ∧ SameLatch s t ∧ SameEnvironment s t

/-- R164, R165: `SAMPLEU` on a stream with enough acceptable candidates: the first 256 of them in order, read in the least
number `m` of whole chunks; a stream that was never opened raises `EMPTY`. The weights with which the three bytes of a chunk make
two candidates are presumed (log entry 12; R164 has them from general knowledge). -/
def Obligations.SampleuTakesTheFirst256Acceptable : Prop :=
  ∀ pd : RegNo,
    IsTheWordOf (0x31 * 2 ^ 24 + pd.val * 2 ^ 20) (.sampleu pd) ∧
    ∀ s : State, s.err = none →
      (s.xvalid = true → (∃ m, 256 ≤ (acceptable s m).length) →
        ∃ m t, exec (.sampleu pd) s = .next t ∧ WrotePoly s t pd .tq ∧ t.xpos = s.xpos + 3 * m ∧ 128 ≤ m ∧
          256 ≤ (acceptable s m).length ∧ (∀ l, l < m → (acceptable s l).length < 256) ∧
          (t.preg[pd].toList.map fun c => c.val) = (acceptable s m).take 256) ∧
      (s.xvalid = false → Raises (.sampleu pd) s .empty)

/-- R167, R168, R169: `SAMPLECBD`: coefficient `i` is `x − y mod 3329` of its `2η` bits; the checks in order. The order in which
the bits of a byte are taken is presumed (log entry 12; R168 has it from general knowledge). -/
def Obligations.SamplecbdSubtractsBitSums : Prop :=
  ∀ (pd : RegNo) (eta : BitVec 4),
    IsTheWordOf (0x32 * 2 ^ 24 + pd.val * 2 ^ 20 + eta.toNat) (.samplecbd pd eta) ∧
    ∀ s : State, s.err = none →
      (1 ≤ eta.toNat → eta.toNat ≤ 6 → s.blen.toNat = 64 * eta.toNat →
        ∃ t, exec (.samplecbd pd eta) s = .next t ∧ WrotePoly s t pd .rq ∧ t.xpos = s.xpos ∧
          ∀ i, i < 256 → ((cell t.preg[pd] i).val : Int) =
            ((∑ u ∈ Finset.range eta.toNat, (bufBit s (2 * i * eta.toNat + u) : Int)) -
              ∑ u ∈ Finset.range eta.toNat, (bufBit s (2 * i * eta.toNat + eta.toNat + u) : Int)) % 3329) ∧
      (eta.toNat < 1 ∨ 6 < eta.toNat → Raises (.samplecbd pd eta) s .illegal) ∧
      (1 ≤ eta.toNat → eta.toNat ≤ 6 → s.blen.toNat ≠ 64 * eta.toNat → Raises (.samplecbd pd eta) s .length)

/-- R170: every coefficient of `cbd(η, B)` lies in `[−η, η]`, for every `B` of `64·η` bytes. -/
def Obligations.CbdCoefficientsAreSmall : Prop :=
  ∀ (eta : Nat) (bytes : List Byte), 1 ≤ eta → eta ≤ 6 → bytes.length = 64 * eta →
    ∀ c ∈ (cbd eta bytes).toList, c.val ≤ eta ∨ 3329 - eta ≤ c.val

/-! ### The buffer and the codec -/

/-- R184: `BCLR`. That every byte still reads as before is the model's choice (log entry 3, DESIGN CHOICE): the spec calls the
bytes at and above `BLEN`, here all of them, unspecified. -/
def Obligations.BclrEmptiesTheBuffer : Prop :=
  IsTheWordOf 0x40000000 .bclr ∧
  ∀ s : State, s.err = none →
    ∃ t, exec .bclr s = .next t ∧ WroteBuffer s t 0 ∧ ∀ a, memRead t a = memRead s a

/-- R185: `BPUT`. That the bytes above the new `BLEN` read as before is the model's choice (log entry 3, DESIGN CHOICE): the spec
calls them unspecified. -/
def Obligations.BputAppendsAByte : Prop :=
  ∀ imm8 : Byte,
    IsTheWordOf (0x41 * 2 ^ 24 + imm8.toNat) (.bput imm8) ∧
    ∀ s : State, s.err = none →
      (s.blen.toNat < 384 →
        ∃ t, exec (.bput imm8) s = .next t ∧ WroteBuffer s t (s.blen.toNat + 1) ∧
          memRead t s.blen.toNat = imm8 ∧ ∀ a, a ≠ s.blen.toNat → memRead t a = memRead s a) ∧
      (s.blen.toNat = 384 → Raises (.bput imm8) s .length)

/-- R181, R183: `ENCODE`: byte `n` collects bits `8n .. 8n + 7` of the coefficients' bit string; the checks in order. That the
bytes from `32·d` on read as before is the model's choice (log entry 3, DESIGN CHOICE): the spec calls them unspecified. -/
def Obligations.EncodePacksCoefficients : Prop :=
  ∀ (pa : RegNo) (d : BitVec 4),
    IsTheWordOf (0x42 * 2 ^ 24 + pa.val * 2 ^ 16 + d.toNat) (.encode pa d) ∧
    ∀ s : State, s.err = none →
      (d.toNat < 1 ∨ 12 < d.toNat → Raises (.encode pa d) s .illegal) ∧
      (1 ≤ d.toNat → d.toNat ≤ 12 →
        (s.ptag[pa] = .empty → Raises (.encode pa d) s .empty) ∧
        (s.ptag[pa] ≠ .empty → (∃ n, n < 256 ∧ 2 ^ d.toNat ≤ (cell s.preg[pa] n).val) →
          Raises (.encode pa d) s .range) ∧
        (s.ptag[pa] ≠ .empty → (∀ n, n < 256 → (cell s.preg[pa] n).val < 2 ^ d.toNat) →
          ∃ t, exec (.encode pa d) s = .next t ∧ WroteBuffer s t (32 * d.toNat) ∧
            (∀ n, n < 32 * d.toNat → (memRead t n).toNat =
              ∑ u ∈ Finset.range 8, coeffBit d.toNat s.preg[pa] (8 * n + u) * 2 ^ u) ∧
            ∀ a, 32 * d.toNat ≤ a → memRead t a = memRead s a))

/-- R182, R186: `DECODE.R`: coefficient `c` collects bits `c·d .. c·d + d − 1` of the bytes' bit string; the checks in order. -/
def Obligations.DecodeRUnpacksIntoRq : Prop :=
  ∀ (pd : RegNo) (d : BitVec 4),
    IsTheWordOf (0x43 * 2 ^ 24 + pd.val * 2 ^ 20 + d.toNat) (.decodeR pd d) ∧
    ∀ s : State, s.err = none →
      (d.toNat < 1 ∨ 12 < d.toNat → Raises (.decodeR pd d) s .illegal) ∧
      (1 ≤ d.toNat → d.toNat ≤ 12 →
        (s.blen.toNat ≠ 32 * d.toNat → Raises (.decodeR pd d) s .length) ∧
        (s.blen.toNat = 32 * d.toNat → (∃ c, c < 256 ∧ 3329 ≤ bufValue s d.toNat c) → Raises (.decodeR pd d) s .range) ∧
        (s.blen.toNat = 32 * d.toNat → (∀ c, c < 256 → bufValue s d.toNat c < 3329) →
          ∃ t, exec (.decodeR pd d) s = .next t ∧ WrotePoly s t pd .rq ∧ t.xpos = s.xpos ∧
            ∀ c, c < 256 → (cell t.preg[pd] c).val = bufValue s d.toNat c))

/-- R182, R187: `DECODE.T`, which differs from `DECODE.R` in the tag alone. -/
def Obligations.DecodeTUnpacksIntoTq : Prop :=
  ∀ (pd : RegNo) (d : BitVec 4),
    IsTheWordOf (0x43 * 2 ^ 24 + pd.val * 2 ^ 20 + 2 ^ 4 + d.toNat) (.decodeT pd d) ∧
    ∀ s : State, s.err = none →
      (d.toNat < 1 ∨ 12 < d.toNat → Raises (.decodeT pd d) s .illegal) ∧
      (1 ≤ d.toNat → d.toNat ≤ 12 →
        (s.blen.toNat ≠ 32 * d.toNat → Raises (.decodeT pd d) s .length) ∧
        (s.blen.toNat = 32 * d.toNat → (∃ c, c < 256 ∧ 3329 ≤ bufValue s d.toNat c) → Raises (.decodeT pd d) s .range) ∧
        (s.blen.toNat = 32 * d.toNat → (∀ c, c < 256 → bufValue s d.toNat c < 3329) →
          ∃ t, exec (.decodeT pd d) s = .next t ∧ WrotePoly s t pd .tq ∧ t.xpos = s.xpos ∧
            ∀ c, c < 256 → (cell t.preg[pd] c).val = bufValue s d.toNat c))

/-- R182, R186: every value the decoder makes of any bytes is below `2^d`, so for `d` in 1..11 the range check cannot fail:
`DECODE.R` and `DECODE.T` on a BUF of the right length complete. -/
def Obligations.DecodedValuesFitTheirWidth : Prop :=
  (∀ (d : Nat) (bytes : List Byte), ∀ v ∈ decodeValues d bytes, v < 2 ^ d) ∧
  ∀ (pd : RegNo) (d : BitVec 4) (s : State), s.err = none → 1 ≤ d.toNat → d.toNat ≤ 11 → s.blen.toNat = 32 * d.toNat →
    (∃ t, exec (.decodeR pd d) s = .next t ∧ t.err = none ∧ t.ptag[pd] = .rq) ∧
    ∃ t, exec (.decodeT pd d) s = .next t ∧ t.err = none ∧ t.ptag[pd] = .tq

/-- R188: the codec round trip, both ways, for every width, and as two commands. -/
def Obligations.CodecRoundTrip : Prop :=
  ∀ d : BitVec 4, 1 ≤ d.toNat → d.toNat ≤ 12 →
    (∀ vs : List Nat, vs.length = 256 → (∀ v ∈ vs, v < 2 ^ d.toNat) →
      decodeValues d.toNat (encodeValues d.toNat vs) = vs) ∧
    (∀ bytes : List Byte, bytes.length = 32 * d.toNat → encodeValues d.toNat (decodeValues d.toNat bytes) = bytes) ∧
    ∀ (s : State) (p0 p1 : RegNo), s.err = none → s.ptag[p0] ≠ .empty →
      (∀ n, n < 256 → (cell s.preg[p0] n).val < 2 ^ d.toNat) →
      ∃ t, runAll [.encode p0 d, .decodeR p1 d] s = some t ∧ t.err = none ∧ t.preg[p1] = s.preg[p0] ∧ t.ptag[p1] = .rq
end

