-- ==== Sys2Proof/Laws/Memory.lean ====
section
/-! SUPPORT. The laws of the byte store: read after write (20_memory.md R51, R52), the canonical form, and the addresses
listed. -/
namespace Sys2Proof.Machine

namespace Memory

theorem read_of_unlisted (m : Memory) (b : Nat) (h : ∀ c ∈ m, c.1 ≠ b) : m.read b = bufDefault := by
  induction m with
  | nil => rfl
  | cons c m ih =>
    have hc : b ≠ c.1 := fun e => h c (by simp) e.symm
    rw [read, if_neg hc, ih fun d hd => h d (by simp [hd])]

/-- A read passes over a first part that does not list the address. -/
theorem read_append_right (m m' : Memory) (b : Nat) (h : ∀ c ∈ m, c.1 ≠ b) : read (m ++ m') b = read m' b := by
  induction m with
  | nil => rfl
  | cons c m ih =>
    have hc : b ≠ c.1 := fun e => h c (by simp) e.symm
    rw [List.cons_append, read, if_neg hc, ih fun d hd => h d (by simp [hd])]

/-- A read ends in the first part if the second does not list the address. -/
theorem read_append_left (m m' : Memory) (b : Nat) (h : ∀ c ∈ m', c.1 ≠ b) : read (m ++ m') b = read m b := by
  induction m with
  | nil => exact read_of_unlisted m' b h
  | cons c m ih => rw [List.cons_append, read, read, ih]

/-- Filtering by address keeps what the addresses kept read as. -/
theorem read_filter (m : Memory) (p : Nat → Bool) (b : Nat) (h : p b = true) :
    read (m.filter fun c => p c.1) b = read m b := by
  induction m with
  | nil => rfl
  | cons c m ih =>
    rw [List.filter_cons]
    split_ifs with hp
    · rw [read, read, ih]
    · rw [read, ih, if_neg]
      rintro rfl; exact hp h

theorem mem_cells (a : Nat) (vs : List Byte) : ∀ c ∈ cells a vs, a ≤ c.1 ∧ c.1 < a + vs.length := by
  induction vs generalizing a with
  | nil => simp [cells]
  | cons v vs ih =>
    have := ih (a + 1)
    intro c hc
    rw [List.length_cons]
    rw [cells] at hc
    split_ifs at hc
    · have := this c hc; omega
    · rcases List.mem_cons.1 hc with rfl | hc
      · simp
      · have := this c hc; omega

theorem read_cells (a : Nat) (vs : List Byte) (b : Nat) (h : a ≤ b) : read (cells a vs) b = vs.getD (b - a) bufDefault := by
  induction vs generalizing a with
  | nil => simp [cells, read]
  | cons v vs ih =>
    by_cases hb : b = a
    · subst hb
      have hu : ∀ c ∈ cells (b + 1) vs, c.1 ≠ b := fun c hc => by have := mem_cells _ _ c hc; omega
      rw [cells, Nat.sub_self, List.getD_cons_zero]
      split_ifs with hv
      · rw [read_of_unlisted _ _ hu, hv]
      · rw [read, if_pos rfl]
    · rw [show b - a = b - (a + 1) + 1 by omega, List.getD_cons_succ, ← ih (a + 1) (by omega), cells]
      split_ifs
      · rfl
      · rw [read, if_neg hb]

/-- A read after a list of writes: the byte of the list inside its range, the old one outside it. -/
theorem read_writeList (m : Memory) (a b : Nat) (vs : List Byte) :
    (m.writeList a vs).read b = if a ≤ b ∧ b < a + vs.length then vs.getD (b - a) bufDefault else m.read b := by
  have hlow : ∀ c ∈ m.filter fun c => decide (c.1 < a), c.1 < a := fun c hc => by simpa using (List.mem_filter.1 hc).2
  have hhigh : ∀ c ∈ m.filter fun c => decide (a + vs.length ≤ c.1), a + vs.length ≤ c.1 :=
    fun c hc => by simpa using (List.mem_filter.1 hc).2
  have hmid := mem_cells a vs
  unfold writeList
  by_cases h1 : b < a
  · rw [if_neg (by omega), read_append_left _ _ _ (fun c hc => ?_)]
    · exact read_filter m (fun x => decide (x < a)) b (by simpa using h1)
    · rcases List.mem_append.1 hc with hc | hc
      · have := hmid c hc; omega
      · have := hhigh c hc; omega
  · rw [read_append_right _ _ _ (fun c hc => by have := hlow c hc; omega)]
    by_cases h2 : b < a + vs.length
    · rw [if_pos ⟨by omega, h2⟩, read_append_left _ _ _ (fun c hc => by have := hhigh c hc; omega),
        read_cells _ _ _ (by omega)]
    · rw [if_neg (by omega), read_append_right _ _ _ (fun c hc => by have := hmid c hc; omega)]
      exact read_filter m (fun x => decide (a + vs.length ≤ x)) b (by simp; omega)

/-- A read after a write: the new byte at the address written, the old one elsewhere (R51, R52). -/
theorem read_write (m : Memory) (a b : Nat) (v : Byte) :
    (m.write a v).read b = if b = a then v else m.read b := by
  rw [write, read_writeList, List.length_singleton]
  by_cases h : b = a
  · rw [if_pos (by omega), if_pos h, h, Nat.sub_self]; rfl
  · rw [if_neg (by omega), if_neg h]

theorem map_read_succ (m : Memory) (a n : Nat) : ((List.range (n + 1)).map fun k => m.read (a + k)) =
    m.read a :: (List.range n).map fun k => m.read (a + 1 + k) := by
  rw [List.range_succ_eq_map, List.map_cons, List.map_map, Nat.add_zero]
  refine congrArg _ (List.map_congr_left fun k _ => ?_)
  rw [Function.comp, Nat.succ_eq_add_one, Nat.add_right_comm, Nat.add_assoc]

/-- `readList` is one read after another. -/
theorem readList_eq (m : Memory) (a n : Nat) : m.readList a n = (List.range n).map fun k => m.read (a + k) := by
  induction n generalizing m a with
  | zero => cases m <;> rfl
  | succ n ih =>
    rw [map_read_succ]
    match m with
    | [] => rw [readList, ih]; rfl
    | (b, v) :: m =>
      rw [readList]
      split_ifs with h
      · rw [ih, read, if_pos h.symm]
        refine congrArg _ (List.map_congr_left fun k _ => ?_)
        rw [read, if_neg (by omega)]
      · rw [ih]

theorem wfFrom_mono (m : Memory) (lo lo' : Nat) (h : wfFrom lo m = true) (hl : lo' ≤ lo) : wfFrom lo' m = true := by
  cases m with
  | nil => rfl
  | cons c m =>
    obtain ⟨x, u⟩ := c
    simp only [wfFrom, Bool.and_eq_true, decide_eq_true_eq] at h ⊢
    exact ⟨by omega, h.2⟩

theorem wfFrom_filter (m : Memory) (lo : Nat) (p : Host.Cell → Bool) (h : wfFrom lo m = true) :
    wfFrom lo (m.filter p) = true := by
  induction m generalizing lo with
  | nil => rfl
  | cons c m ih =>
    obtain ⟨x, u⟩ := c
    simp only [wfFrom, Bool.and_eq_true, decide_eq_true_eq] at h
    rw [List.filter_cons]
    split_ifs
    · simp [wfFrom, h.1, h.2.1, ih _ h.2.2]
    · exact wfFrom_mono _ _ lo (ih (x + 1) h.2.2) (by omega)

/-- A list in canonical form that lists no address below `k` is in canonical form from `k` on. -/
theorem wfFrom_of_ge (m : Memory) (lo k : Nat) (h : wfFrom lo m = true) (hk : ∀ c ∈ m, k ≤ c.1) : wfFrom k m = true := by
  cases m with
  | nil => rfl
  | cons c m =>
    obtain ⟨x, u⟩ := c
    simp only [wfFrom, Bool.and_eq_true, decide_eq_true_eq] at h ⊢
    exact ⟨hk (x, u) (by simp), h.2⟩

theorem wfFrom_append (m m' : Memory) (lo k : Nat) (h : wfFrom lo m = true) (hk : ∀ c ∈ m, c.1 < k) (hl : lo ≤ k)
    (h' : wfFrom k m' = true) : wfFrom lo (m ++ m') = true := by
  induction m generalizing lo with
  | nil => exact wfFrom_mono _ _ _ h' hl
  | cons c m ih =>
    obtain ⟨x, u⟩ := c
    simp only [wfFrom, List.cons_append, Bool.and_eq_true, decide_eq_true_eq] at h ⊢
    exact ⟨h.1, h.2.1, ih _ h.2.2 (fun c hc => hk c (by simp [hc])) (hk (x, u) (by simp))⟩

theorem wfFrom_cells (a : Nat) (vs : List Byte) : wfFrom a (cells a vs) = true := by
  induction vs generalizing a with
  | nil => rfl
  | cons v vs ih =>
    rw [cells]
    split_ifs with hv
    · exact wfFrom_mono _ _ _ (ih (a + 1)) (by omega)
    · simp [wfFrom, hv, ih (a + 1)]

/-- A list of writes keeps the canonical form. -/
theorem wf_writeList (m : Memory) (a : Nat) (vs : List Byte) (h : m.wf = true) : (m.writeList a vs).wf = true := by
  refine wfFrom_append _ _ 0 a (wfFrom_filter m 0 _ h) (fun c hc => by simpa using (List.mem_filter.1 hc).2) (by omega) ?_
  refine wfFrom_append _ _ a (a + vs.length) (wfFrom_cells a vs) (fun c hc => (mem_cells a vs c hc).2) (by omega) ?_
  exact wfFrom_of_ge _ 0 _ (wfFrom_filter m 0 _ h) fun c hc => by simpa using (List.mem_filter.1 hc).2

/-- A write keeps the canonical form. -/
theorem wf_write (m : Memory) (a : Nat) (v : Byte) (h : m.wf = true) : (m.write a v).wf = true := wf_writeList m a [v] h

/-- Writes inside BUF list no address outside it (R50). -/
theorem inBuf_writeList (m : Memory) (a : Nat) (vs : List Byte) (h : m.inBuf = true) (ha : a + vs.length ≤ 384) :
    (m.writeList a vs).inBuf = true := by
  simp only [inBuf, List.all_eq_true, decide_eq_true_eq] at h ⊢
  intro c hc
  rcases List.mem_append.1 hc with hc | hc
  · exact h c (List.mem_filter.1 hc).1
  · rcases List.mem_append.1 hc with hc | hc
    · have := mem_cells a vs c hc; omega
    · exact h c (List.mem_filter.1 hc).1

theorem inBuf_write (m : Memory) (a : Nat) (v : Byte) (h : m.inBuf = true) (ha : a < 384) :
    (m.write a v).inBuf = true := inBuf_writeList m a [v] h (by rw [List.length_singleton]; omega)

end Memory

theorem memRead_memWrite (s : State) (a b : Nat) (v : Byte) :
    memRead (memWrite s a v) b = if b = a then v else memRead s b := Memory.read_write s.buf a b v

theorem memRead_memWriteList (s : State) (a b : Nat) (vs : List Byte) :
    memRead (memWriteList s a vs) b =
      if a ≤ b ∧ b < a + vs.length then vs.getD (b - a) bufDefault else memRead s b := Memory.read_writeList s.buf a b vs

/-- The first `n` bytes of BUF are `n` reads (R169, R186). -/
theorem memReadList_eq (s : State) (n : Nat) : memReadList s n = (List.range n).map (memRead s) := by
  rw [memReadList, Memory.readList_eq]
  refine List.map_congr_left fun k _ => ?_
  rw [Nat.zero_add]; rfl

theorem length_memReadList (s : State) (n : Nat) : (memReadList s n).length = n := by simp [memReadList_eq]

end Sys2Proof.Machine
end

