-- ==== Sys2Proof/Laws/Bits.lean ====
section
/-! SUPPORT. Bit strings and their groups (20_memory.md R54, 44_codec.md R181, R182): lengths, the bit at an index, and the round
trips between numbers and bits and between lists and groups. -/
namespace Sys2Proof.Machine

@[simp] theorem length_toBits (n v : Nat) : (toBits n v).length = n := by
  induction n generalizing v with
  | zero => rfl
  | succ n ih => simp [toBits, ih]

/-- Bit `i` of `toBits n v` is bit `i` of `v`. -/
theorem getD_toBits (n v i : Nat) (h : i < n) : (toBits n v).getD i 0 = v / 2 ^ i % 2 := by
  induction n generalizing v i with
  | zero => omega
  | succ n ih =>
    cases i with
    | zero => simp [toBits]
    | succ i => rw [toBits, List.getD_cons_succ, ih _ _ (by omega), Nat.div_div_eq_div_mul, pow_succ']

theorem toBits_lt_two (n v : Nat) : ∀ b ∈ toBits n v, b < 2 := by
  induction n generalizing v with
  | zero => simp [toBits]
  | succ n ih =>
    intro b hb
    rcases List.mem_cons.1 hb with rfl | hb
    · exact Nat.mod_lt _ (by decide)
    · exact ih _ b hb

theorem ofBits_toBits (n v : Nat) : ofBits (toBits n v) = v % 2 ^ n := by
  induction n generalizing v with
  | zero => simp [toBits, ofBits, Nat.mod_one]
  | succ n ih => rw [toBits, ofBits, ih, pow_succ', Nat.mod_mul]

theorem toBits_ofBits (bs : List Nat) (h : ∀ b ∈ bs, b < 2) : toBits bs.length (ofBits bs) = bs := by
  induction bs with
  | nil => rfl
  | cons b bs ih =>
    have hb := h b (by simp)
    have ih := ih fun c hc => h c (by simp [hc])
    simp only [List.length_cons, toBits, ofBits]
    rw [show (b + 2 * ofBits bs) % 2 = b by omega, show (b + 2 * ofBits bs) / 2 = ofBits bs by omega, ih]

theorem ofBits_lt (bs : List Nat) (h : ∀ b ∈ bs, b < 2) : ofBits bs < 2 ^ bs.length := by
  induction bs with
  | nil => simp [ofBits]
  | cons b bs ih =>
    have hb := h b (by simp)
    have ih := ih fun c hc => h c (by simp [hc])
    rw [ofBits, List.length_cons, pow_succ']; omega

/-- The number of a bit string is `Σ bit(i)·2^i` (R181, R182). -/
theorem ofBits_eq_sum (bs : List Nat) : ofBits bs = ∑ i ∈ Finset.range bs.length, bs.getD i 0 * 2 ^ i := by
  induction bs with
  | nil => rfl
  | cons b bs ih =>
    rw [List.length_cons, Finset.sum_range_succ', ofBits, ih, Finset.mul_sum, List.getD_cons_zero, pow_zero, mul_one, add_comm]
    congr 1
    refine Finset.sum_congr rfl fun i _ => ?_
    rw [List.getD_cons_succ, pow_succ']; ring

section groups
variable {α β : Type} (n count : Nat)

@[simp] theorem length_groups (l : List α) : (groups n count l).length = count := by
  induction count generalizing l with
  | zero => rfl
  | succ c ih => simp [groups, ih]

/-- Group `j` is the `n` elements from `j·n` on. -/
theorem getD_groups (l : List α) (j : Nat) (h : j < count) : (groups n count l).getD j [] = (l.drop (j * n)).take n := by
  induction count generalizing l j with
  | zero => omega
  | succ c ih =>
    cases j with
    | zero => simp [groups]
    | succ j => rw [groups, List.getD_cons_succ, ih _ _ (by omega), List.drop_drop, Nat.succ_mul, Nat.add_comm n]

theorem getD_drop_take (l : List α) (a i : Nat) (d : α) (h : i < n) : ((l.drop a).take n).getD i d = l.getD (a + i) d := by
  simp [List.getD_eq_getElem?_getD, List.getElem?_drop, h]

theorem length_of_mem_groups (l : List α) (h : n * count ≤ l.length) : ∀ g ∈ groups n count l, g.length = n := by
  induction count generalizing l with
  | zero => simp [groups]
  | succ c ih =>
    intro g hg
    rw [Nat.mul_succ] at h
    rcases List.mem_cons.1 hg with rfl | hg
    · rw [List.length_take]; omega
    · exact ih _ (by rw [List.length_drop]; omega) g hg

theorem mem_of_mem_groups (l : List α) : ∀ g ∈ groups n count l, ∀ x ∈ g, x ∈ l := by
  induction count generalizing l with
  | zero => simp [groups]
  | succ c ih =>
    intro g hg x hx
    rcases List.mem_cons.1 hg with rfl | hg
    · exact List.mem_of_mem_take hx
    · exact List.mem_of_mem_drop (ih _ g hg x hx)

/-- The groups one after another are the list they were cut from. -/
theorem flatten_groups (l : List α) (h : l.length = n * count) : (groups n count l).flatten = l := by
  induction count generalizing l with
  | zero => exact (List.eq_nil_of_length_eq_zero (by simpa using h)).symm
  | succ c ih =>
    rw [Nat.mul_succ] at h
    rw [groups, List.flatten_cons, ih _ (by rw [List.length_drop]; omega), List.take_append_drop]

/-- Cutting pieces of `n` elements, put one after another, gives the pieces back. -/
theorem groups_flatMap (f : β → List α) (l : List β) (h : ∀ x ∈ l, (f x).length = n) :
    groups n l.length (l.flatMap f) = l.map f := by
  induction l with
  | nil => rfl
  | cons x l ih =>
    have hx := h x (by simp)
    rw [List.length_cons, groups, List.flatMap_cons, List.map_cons, List.take_left' hx, List.drop_left' hx,
      ih fun y hy => h y (by simp [hy])]

theorem length_flatMap_const (f : β → List α) (l : List β) (h : ∀ x ∈ l, (f x).length = n) :
    (l.flatMap f).length = n * l.length := by
  induction l with
  | nil => rfl
  | cons x l ih =>
    rw [List.flatMap_cons, List.length_append, h x (by simp), ih fun y hy => h y (by simp [hy]), List.length_cons,
      Nat.mul_succ, Nat.add_comm]

/-- Element `g` of pieces of `n` elements put one after another is element `g mod n` of piece `g div n`. -/
theorem getD_flatMap (f : β → List α) (l : List β) (d : α) (e : β) (h : ∀ x, (f x).length = n) (g : Nat)
    (hg : g < n * l.length) : (l.flatMap f).getD g d = (f (l.getD (g / n) e)).getD (g % n) d := by
  induction l generalizing g with
  | nil => simp at hg
  | cons x l ih =>
    have hn : 0 < n := by
      rcases Nat.eq_zero_or_pos n with rfl | hn
      · simp at hg
      · exact hn
    rw [List.length_cons, Nat.mul_succ] at hg
    rw [List.flatMap_cons]
    by_cases hgn : g < n
    · rw [List.getD_append _ _ _ _ (by rw [h]; exact hgn), Nat.div_eq_of_lt hgn, Nat.mod_eq_of_lt hgn,
        List.getD_cons_zero]
    · rw [List.getD_append_right _ _ _ _ (by rw [h]; omega), h, ih _ (by omega), Nat.div_eq_sub_div hn (by omega : n ≤ g),
        List.getD_cons_succ, Nat.mod_eq_sub_mod (by omega : n ≤ g)]

end groups

@[simp] theorem length_bitString (bytes : List Byte) : (bitString bytes).length = 8 * bytes.length :=
  length_flatMap_const 8 _ _ fun _ _ => length_toBits _ _

theorem bitString_lt_two (bytes : List Byte) : ∀ b ∈ bitString bytes, b < 2 := by
  intro b hb
  obtain ⟨x, _, hx⟩ := List.mem_flatMap.1 hb
  exact toBits_lt_two _ _ b hx

/-- `bit(g)` is bit `g mod 8` of byte `g div 8` (R54). -/
theorem getD_bitString (bytes : List Byte) (g : Nat) (h : g < 8 * bytes.length) :
    (bitString bytes).getD g 0 = (bytes.getD (g / 8) 0).toNat / 2 ^ (g % 8) % 2 := by
  rw [bitString, getD_flatMap 8 _ _ 0 (0 : Byte) (fun _ => length_toBits _ _) _ h, getD_toBits _ _ _ (Nat.mod_lt _ (by decide))]

@[simp] theorem length_encodeValues (d : Nat) (vs : List Nat) : (encodeValues d vs).length = 32 * d := by
  simp [encodeValues]

@[simp] theorem length_encodeBytes (d : Nat) (f : Coeffs) : (encodeBytes d f).length = 32 * d := length_encodeValues d _

@[simp] theorem length_decodeValues (d : Nat) (bytes : List Byte) : (decodeValues d bytes).length = 256 := by
  simp [decodeValues]

/-- Byte `i` of the first `n` bytes of BUF. -/
theorem getD_memReadList (s : State) (n i : Nat) (h : i < n) : (memReadList s n).getD i 0 = memRead s i := by
  simp [memReadList_eq, List.getD_eq_getElem?_getD, h]

end Sys2Proof.Machine
end

