-- ==== Sys2Proof/Laws/State.lean ====
section
/-! SUPPORT. One lemma per field of State per update of Machine/Ops.lean, true by definition, so that no proof unfolds a record
update. -/
namespace Sys2Proof.Machine

variable (s : State)

/-! The fields after `writeScalar`. -/

@[simp] theorem writeScalar_sreg (r : RegNo) (v : FieldElement) : (writeScalar s r v).sreg = s.sreg.set r v := rfl
@[simp] theorem writeScalar_sval (r : RegNo) (v : FieldElement) : (writeScalar s r v).sval = s.sval.set r true := rfl
@[simp] theorem writeScalar_preg (r : RegNo) (v : FieldElement) : (writeScalar s r v).preg = s.preg := rfl
@[simp] theorem writeScalar_ptag (r : RegNo) (v : FieldElement) : (writeScalar s r v).ptag = s.ptag := rfl
@[simp] theorem writeScalar_pc (r : RegNo) (v : FieldElement) : (writeScalar s r v).pc = s.pc := rfl
@[simp] theorem writeScalar_err (r : RegNo) (v : FieldElement) : (writeScalar s r v).err = s.err := rfl
@[simp] theorem writeScalar_epc (r : RegNo) (v : FieldElement) : (writeScalar s r v).epc = s.epc := rfl
@[simp] theorem writeScalar_ecmd (r : RegNo) (v : FieldElement) : (writeScalar s r v).ecmd = s.ecmd := rfl
@[simp] theorem writeScalar_buf (r : RegNo) (v : FieldElement) : (writeScalar s r v).buf = s.buf := rfl
@[simp] theorem writeScalar_blen (r : RegNo) (v : FieldElement) : (writeScalar s r v).blen = s.blen := rfl
@[simp] theorem writeScalar_xvalid (r : RegNo) (v : FieldElement) : (writeScalar s r v).xvalid = s.xvalid := rfl
@[simp] theorem writeScalar_xij (r : RegNo) (v : FieldElement) : (writeScalar s r v).xij = s.xij := rfl
@[simp] theorem writeScalar_xpos (r : RegNo) (v : FieldElement) : (writeScalar s r v).xpos = s.xpos := rfl
@[simp] theorem writeScalar_pending (r : RegNo) (v : FieldElement) : (writeScalar s r v).pending = s.pending := rfl
@[simp] theorem writeScalar_xof (r : RegNo) (v : FieldElement) : (writeScalar s r v).xof = s.xof := rfl

/-! The fields after `writePoly`. -/

@[simp] theorem writePoly_sreg (r : RegNo) (f : Coeffs) (g : Tag) : (writePoly s r f g).sreg = s.sreg := rfl
@[simp] theorem writePoly_sval (r : RegNo) (f : Coeffs) (g : Tag) : (writePoly s r f g).sval = s.sval := rfl
@[simp] theorem writePoly_preg (r : RegNo) (f : Coeffs) (g : Tag) : (writePoly s r f g).preg = s.preg.set r f := rfl
@[simp] theorem writePoly_ptag (r : RegNo) (f : Coeffs) (g : Tag) : (writePoly s r f g).ptag = s.ptag.set r g := rfl
@[simp] theorem writePoly_pc (r : RegNo) (f : Coeffs) (g : Tag) : (writePoly s r f g).pc = s.pc := rfl
@[simp] theorem writePoly_err (r : RegNo) (f : Coeffs) (g : Tag) : (writePoly s r f g).err = s.err := rfl
@[simp] theorem writePoly_epc (r : RegNo) (f : Coeffs) (g : Tag) : (writePoly s r f g).epc = s.epc := rfl
@[simp] theorem writePoly_ecmd (r : RegNo) (f : Coeffs) (g : Tag) : (writePoly s r f g).ecmd = s.ecmd := rfl
@[simp] theorem writePoly_buf (r : RegNo) (f : Coeffs) (g : Tag) : (writePoly s r f g).buf = s.buf := rfl
@[simp] theorem writePoly_blen (r : RegNo) (f : Coeffs) (g : Tag) : (writePoly s r f g).blen = s.blen := rfl
@[simp] theorem writePoly_xvalid (r : RegNo) (f : Coeffs) (g : Tag) : (writePoly s r f g).xvalid = s.xvalid := rfl
@[simp] theorem writePoly_xij (r : RegNo) (f : Coeffs) (g : Tag) : (writePoly s r f g).xij = s.xij := rfl
@[simp] theorem writePoly_xpos (r : RegNo) (f : Coeffs) (g : Tag) : (writePoly s r f g).xpos = s.xpos := rfl
@[simp] theorem writePoly_pending (r : RegNo) (f : Coeffs) (g : Tag) : (writePoly s r f g).pending = s.pending := rfl
@[simp] theorem writePoly_xof (r : RegNo) (f : Coeffs) (g : Tag) : (writePoly s r f g).xof = s.xof := rfl

/-! The fields after `memWrite`. -/

@[simp] theorem memWrite_sreg (a : Nat) (v : Byte) : (memWrite s a v).sreg = s.sreg := rfl
@[simp] theorem memWrite_sval (a : Nat) (v : Byte) : (memWrite s a v).sval = s.sval := rfl
@[simp] theorem memWrite_preg (a : Nat) (v : Byte) : (memWrite s a v).preg = s.preg := rfl
@[simp] theorem memWrite_ptag (a : Nat) (v : Byte) : (memWrite s a v).ptag = s.ptag := rfl
@[simp] theorem memWrite_pc (a : Nat) (v : Byte) : (memWrite s a v).pc = s.pc := rfl
@[simp] theorem memWrite_err (a : Nat) (v : Byte) : (memWrite s a v).err = s.err := rfl
@[simp] theorem memWrite_epc (a : Nat) (v : Byte) : (memWrite s a v).epc = s.epc := rfl
@[simp] theorem memWrite_ecmd (a : Nat) (v : Byte) : (memWrite s a v).ecmd = s.ecmd := rfl
@[simp] theorem memWrite_buf (a : Nat) (v : Byte) : (memWrite s a v).buf = s.buf.write a v := rfl
@[simp] theorem memWrite_blen (a : Nat) (v : Byte) : (memWrite s a v).blen = s.blen := rfl
@[simp] theorem memWrite_xvalid (a : Nat) (v : Byte) : (memWrite s a v).xvalid = s.xvalid := rfl
@[simp] theorem memWrite_xij (a : Nat) (v : Byte) : (memWrite s a v).xij = s.xij := rfl
@[simp] theorem memWrite_xpos (a : Nat) (v : Byte) : (memWrite s a v).xpos = s.xpos := rfl
@[simp] theorem memWrite_pending (a : Nat) (v : Byte) : (memWrite s a v).pending = s.pending := rfl
@[simp] theorem memWrite_xof (a : Nat) (v : Byte) : (memWrite s a v).xof = s.xof := rfl

/-! The fields after `memWriteList`. -/

@[simp] theorem memWriteList_sreg (a : Nat) (vs : List Byte) : (memWriteList s a vs).sreg = s.sreg := rfl
@[simp] theorem memWriteList_sval (a : Nat) (vs : List Byte) : (memWriteList s a vs).sval = s.sval := rfl
@[simp] theorem memWriteList_preg (a : Nat) (vs : List Byte) : (memWriteList s a vs).preg = s.preg := rfl
@[simp] theorem memWriteList_ptag (a : Nat) (vs : List Byte) : (memWriteList s a vs).ptag = s.ptag := rfl
@[simp] theorem memWriteList_pc (a : Nat) (vs : List Byte) : (memWriteList s a vs).pc = s.pc := rfl
@[simp] theorem memWriteList_err (a : Nat) (vs : List Byte) : (memWriteList s a vs).err = s.err := rfl
@[simp] theorem memWriteList_epc (a : Nat) (vs : List Byte) : (memWriteList s a vs).epc = s.epc := rfl
@[simp] theorem memWriteList_ecmd (a : Nat) (vs : List Byte) : (memWriteList s a vs).ecmd = s.ecmd := rfl
@[simp] theorem memWriteList_buf (a : Nat) (vs : List Byte) : (memWriteList s a vs).buf = s.buf.writeList a vs := rfl
@[simp] theorem memWriteList_blen (a : Nat) (vs : List Byte) : (memWriteList s a vs).blen = s.blen := rfl
@[simp] theorem memWriteList_xvalid (a : Nat) (vs : List Byte) : (memWriteList s a vs).xvalid = s.xvalid := rfl
@[simp] theorem memWriteList_xij (a : Nat) (vs : List Byte) : (memWriteList s a vs).xij = s.xij := rfl
@[simp] theorem memWriteList_xpos (a : Nat) (vs : List Byte) : (memWriteList s a vs).xpos = s.xpos := rfl
@[simp] theorem memWriteList_pending (a : Nat) (vs : List Byte) : (memWriteList s a vs).pending = s.pending := rfl
@[simp] theorem memWriteList_xof (a : Nat) (vs : List Byte) : (memWriteList s a vs).xof = s.xof := rfl

/-! The fields after `setBlen`. -/

@[simp] theorem setBlen_sreg (n : Nat) : (setBlen s n).sreg = s.sreg := rfl
@[simp] theorem setBlen_sval (n : Nat) : (setBlen s n).sval = s.sval := rfl
@[simp] theorem setBlen_preg (n : Nat) : (setBlen s n).preg = s.preg := rfl
@[simp] theorem setBlen_ptag (n : Nat) : (setBlen s n).ptag = s.ptag := rfl
@[simp] theorem setBlen_pc (n : Nat) : (setBlen s n).pc = s.pc := rfl
@[simp] theorem setBlen_err (n : Nat) : (setBlen s n).err = s.err := rfl
@[simp] theorem setBlen_epc (n : Nat) : (setBlen s n).epc = s.epc := rfl
@[simp] theorem setBlen_ecmd (n : Nat) : (setBlen s n).ecmd = s.ecmd := rfl
@[simp] theorem setBlen_buf (n : Nat) : (setBlen s n).buf = s.buf := rfl
@[simp] theorem setBlen_blen (n : Nat) : (setBlen s n).blen = BitVec.ofNat 9 n := rfl
@[simp] theorem setBlen_xvalid (n : Nat) : (setBlen s n).xvalid = s.xvalid := rfl
@[simp] theorem setBlen_xij (n : Nat) : (setBlen s n).xij = s.xij := rfl
@[simp] theorem setBlen_xpos (n : Nat) : (setBlen s n).xpos = s.xpos := rfl
@[simp] theorem setBlen_pending (n : Nat) : (setBlen s n).pending = s.pending := rfl
@[simp] theorem setBlen_xof (n : Nat) : (setBlen s n).xof = s.xof := rfl

/-! The fields after `openStream`. -/

@[simp] theorem openStream_sreg (i j : Byte) : (openStream s i j).sreg = s.sreg := rfl
@[simp] theorem openStream_sval (i j : Byte) : (openStream s i j).sval = s.sval := rfl
@[simp] theorem openStream_preg (i j : Byte) : (openStream s i j).preg = s.preg := rfl
@[simp] theorem openStream_ptag (i j : Byte) : (openStream s i j).ptag = s.ptag := rfl
@[simp] theorem openStream_pc (i j : Byte) : (openStream s i j).pc = s.pc := rfl
@[simp] theorem openStream_err (i j : Byte) : (openStream s i j).err = s.err := rfl
@[simp] theorem openStream_epc (i j : Byte) : (openStream s i j).epc = s.epc := rfl
@[simp] theorem openStream_ecmd (i j : Byte) : (openStream s i j).ecmd = s.ecmd := rfl
@[simp] theorem openStream_buf (i j : Byte) : (openStream s i j).buf = s.buf := rfl
@[simp] theorem openStream_blen (i j : Byte) : (openStream s i j).blen = s.blen := rfl
@[simp] theorem openStream_xvalid (i j : Byte) : (openStream s i j).xvalid = true := rfl
@[simp] theorem openStream_xij (i j : Byte) : (openStream s i j).xij = BitVec.ofNat 16 (i.toNat * 256 + j.toNat) := rfl
@[simp] theorem openStream_xpos (i j : Byte) : (openStream s i j).xpos = 0 := rfl
@[simp] theorem openStream_pending (i j : Byte) : (openStream s i j).pending = s.pending := rfl
@[simp] theorem openStream_xof (i j : Byte) : (openStream s i j).xof = s.xof := rfl

/-! The fields after `setXpos`. -/

@[simp] theorem setXpos_sreg (n : Nat) : (setXpos s n).sreg = s.sreg := rfl
@[simp] theorem setXpos_sval (n : Nat) : (setXpos s n).sval = s.sval := rfl
@[simp] theorem setXpos_preg (n : Nat) : (setXpos s n).preg = s.preg := rfl
@[simp] theorem setXpos_ptag (n : Nat) : (setXpos s n).ptag = s.ptag := rfl
@[simp] theorem setXpos_pc (n : Nat) : (setXpos s n).pc = s.pc := rfl
@[simp] theorem setXpos_err (n : Nat) : (setXpos s n).err = s.err := rfl
@[simp] theorem setXpos_epc (n : Nat) : (setXpos s n).epc = s.epc := rfl
@[simp] theorem setXpos_ecmd (n : Nat) : (setXpos s n).ecmd = s.ecmd := rfl
@[simp] theorem setXpos_buf (n : Nat) : (setXpos s n).buf = s.buf := rfl
@[simp] theorem setXpos_blen (n : Nat) : (setXpos s n).blen = s.blen := rfl
@[simp] theorem setXpos_xvalid (n : Nat) : (setXpos s n).xvalid = s.xvalid := rfl
@[simp] theorem setXpos_xij (n : Nat) : (setXpos s n).xij = s.xij := rfl
@[simp] theorem setXpos_xpos (n : Nat) : (setXpos s n).xpos = n := rfl
@[simp] theorem setXpos_pending (n : Nat) : (setXpos s n).pending = s.pending := rfl
@[simp] theorem setXpos_xof (n : Nat) : (setXpos s n).xof = s.xof := rfl

/-! The fields after `faultEntry`. -/

@[simp] theorem faultEntry_sreg (c : Cause) (w : Word) : (faultEntry s c w).sreg = s.sreg := rfl
@[simp] theorem faultEntry_sval (c : Cause) (w : Word) : (faultEntry s c w).sval = s.sval := rfl
@[simp] theorem faultEntry_preg (c : Cause) (w : Word) : (faultEntry s c w).preg = s.preg := rfl
@[simp] theorem faultEntry_ptag (c : Cause) (w : Word) : (faultEntry s c w).ptag = s.ptag := rfl
@[simp] theorem faultEntry_pc (c : Cause) (w : Word) : (faultEntry s c w).pc = s.pc := rfl
@[simp] theorem faultEntry_err (c : Cause) (w : Word) : (faultEntry s c w).err = some c := rfl
@[simp] theorem faultEntry_epc (c : Cause) (w : Word) : (faultEntry s c w).epc = s.pc := rfl
@[simp] theorem faultEntry_ecmd (c : Cause) (w : Word) : (faultEntry s c w).ecmd = w := rfl
@[simp] theorem faultEntry_buf (c : Cause) (w : Word) : (faultEntry s c w).buf = s.buf := rfl
@[simp] theorem faultEntry_blen (c : Cause) (w : Word) : (faultEntry s c w).blen = s.blen := rfl
@[simp] theorem faultEntry_xvalid (c : Cause) (w : Word) : (faultEntry s c w).xvalid = s.xvalid := rfl
@[simp] theorem faultEntry_xij (c : Cause) (w : Word) : (faultEntry s c w).xij = s.xij := rfl
@[simp] theorem faultEntry_xpos (c : Cause) (w : Word) : (faultEntry s c w).xpos = s.xpos := rfl
@[simp] theorem faultEntry_pending (c : Cause) (w : Word) : (faultEntry s c w).pending = s.pending := rfl
@[simp] theorem faultEntry_xof (c : Cause) (w : Word) : (faultEntry s c w).xof = s.xof := rfl

/-! The fields after `withPending`. -/

@[simp] theorem withPending_sreg (rest : List HostMove) : (withPending s rest).sreg = s.sreg := rfl
@[simp] theorem withPending_sval (rest : List HostMove) : (withPending s rest).sval = s.sval := rfl
@[simp] theorem withPending_preg (rest : List HostMove) : (withPending s rest).preg = s.preg := rfl
@[simp] theorem withPending_ptag (rest : List HostMove) : (withPending s rest).ptag = s.ptag := rfl
@[simp] theorem withPending_pc (rest : List HostMove) : (withPending s rest).pc = s.pc := rfl
@[simp] theorem withPending_err (rest : List HostMove) : (withPending s rest).err = s.err := rfl
@[simp] theorem withPending_epc (rest : List HostMove) : (withPending s rest).epc = s.epc := rfl
@[simp] theorem withPending_ecmd (rest : List HostMove) : (withPending s rest).ecmd = s.ecmd := rfl
@[simp] theorem withPending_buf (rest : List HostMove) : (withPending s rest).buf = s.buf := rfl
@[simp] theorem withPending_blen (rest : List HostMove) : (withPending s rest).blen = s.blen := rfl
@[simp] theorem withPending_xvalid (rest : List HostMove) : (withPending s rest).xvalid = s.xvalid := rfl
@[simp] theorem withPending_xij (rest : List HostMove) : (withPending s rest).xij = s.xij := rfl
@[simp] theorem withPending_xpos (rest : List HostMove) : (withPending s rest).xpos = s.xpos := rfl
@[simp] theorem withPending_pending (rest : List HostMove) : (withPending s rest).pending = rest := rfl
@[simp] theorem withPending_xof (rest : List HostMove) : (withPending s rest).xof = s.xof := rfl

end Sys2Proof.Machine
end

