-- ==== Sys2Proof/Laws/Command.lean ====
section
/-! SUPPORT. What the shared operations of a command can do: its checks, its fault, its completion, and the inversion of
`exec` over all commands. -/
namespace Sys2Proof.Machine

@[simp] theorem firstFailing_nil : firstFailing [] = none := rfl

@[simp] theorem firstFailing_cons (bad : Bool) (c : Cause) (rest : List (Bool × Cause)) :
    firstFailing ((bad, c) :: rest) = if bad = true then some c else firstFailing rest := rfl

/-- A latched fault: the command is ignored (R225). -/
theorem command_ignored {i : Instr} {s : State} {checks : List (Bool × Cause)} {effect : Outcome} (h : s.err ≠ none) :
    command i s checks effect = .next s := by
  cases he : s.err with
  | none => exact absurd he h
  | some c => simp [command, he]

/-- No latched fault and a failing check: the fault is entered (R224). -/
theorem command_raises {i : Instr} {s : State} {checks : List (Bool × Cause)} {effect : Outcome} {c : Cause}
    (h : s.err = none) (hc : firstFailing checks = some c) :
    command i s checks effect = .next (faultEntry s c (encodeWord i)) := by
  simp [command, h, hc]

/-- No latched fault and no failing check: the effect. -/
theorem command_runs {i : Instr} {s : State} {checks : List (Bool × Cause)} {effect : Outcome}
    (h : s.err = none) (hc : firstFailing checks = none) : command i s checks effect = effect := by
  simp [command, h, hc]

/-- Everything a command can do. -/
theorem command_cases (i : Instr) (s : State) (checks : List (Bool × Cause)) (effect : Outcome) :
    (s.err ≠ none ∧ command i s checks effect = .next s) ∨
    (∃ c, s.err = none ∧ firstFailing checks = some c ∧
      command i s checks effect = .next (faultEntry s c (encodeWord i))) ∨
    (s.err = none ∧ firstFailing checks = none ∧ command i s checks effect = effect) := by
  by_cases h : s.err = none
  · cases hc : firstFailing checks with
    | none => exact .inr (.inr ⟨h, rfl, command_runs h hc⟩)
    | some c => exact .inr (.inl ⟨c, h, rfl, command_raises h hc⟩)
  · exact .inl ⟨h, command_ignored h⟩

/-- `complete` is a next state with `PC` one up and nothing else changed (R30). -/
theorem complete_eq (t : State) : complete t = .next { t with pc := t.pc + 1 } := rfl

/-- `Raises` through the shared operation. -/
theorem raises_iff_faultEntry (i : Instr) (s : State) (c : Cause) :
    Raises i s c ↔ exec i s = .next (faultEntry s c (encodeWord i)) := Iff.rfl

/-- What the writes of a completed command can be: the state before `PC` advances, for each kind of destination. -/
inductive Effect (i : Instr) (s : State) : State → Prop where
  | scalar (rd : RegNo) (v : FieldElement) : scalarDest i = some rd → Effect i s (writeScalar s rd v)
  | poly (pd : RegNo) (f : Coeffs) (g : Tag) : polyDest i = some pd → g ≠ .empty → Effect i s (writePoly s pd f g)
  | sample (pd : RegNo) (a : Sampling) : i = .sampleu pd → s.xvalid = true → uniformSample s = some a →
      Effect i s (setXpos (writePoly s pd (ofValues a.out.reverse) .tq) a.pos)
  | open_ (x y : Byte) : i = .xopen x y → Effect i s (openStream s x y)
  | clear : i = .bclr → Effect i s (setBlen s 0)
  | put (v : Byte) : i = .bput v → s.blen.toNat < 384 →
      Effect i s (setBlen (memWrite s s.blen.toNat v) (s.blen.toNat + 1))
  | pack (pa : RegNo) (d : BitVec 4) : i = .encode pa d → 1 ≤ d.toNat → d.toNat ≤ 12 →
      Effect i s (setBlen (memWriteList s 0 (encodeBytes d.toNat (readPoly s pa))) (32 * d.toNat))

/-- Everything `exec` can answer: ignored, a fault its row of R234 marks, one completed effect, or a hung `SAMPLEU`. -/
inductive ExecAnswer (i : Instr) (s : State) : Outcome → Prop where
  | ignored : s.err ≠ none → ExecAnswer i s (.next s)
  | raised (c : Cause) : s.err = none → mayRaise i c = true → ExecAnswer i s (.next (faultEntry s c (encodeWord i)))
  | completed (t : State) : s.err = none → Effect i s t → ExecAnswer i s (complete t)
  | hung (pd : RegNo) : s.err = none → i = .sampleu pd → s.xvalid = true → uniformSample s = none →
      ExecAnswer i s (.fault .samplerHung)

/-- A command whose checks raise only marked causes and whose effect is one of its row. -/
theorem execAnswer_of_command {i : Instr} {s : State} {checks : List (Bool × Cause)} {effect : Outcome}
    (hc : ∀ c, firstFailing checks = some c → mayRaise i c = true)
    (he : s.err = none → firstFailing checks = none → ExecAnswer i s effect) :
    ExecAnswer i s (command i s checks effect) := by
  obtain ⟨h, e⟩ | ⟨c, h, hf, e⟩ | ⟨h, hf, e⟩ := command_cases i s checks effect <;> rw [e]
  · exact .ignored h
  · exact .raised c h (hc c hf)
  · exact he h hf

/-- `exec` by cases: the one inversion lemma of the machine. -/
theorem exec_answers (i : Instr) (s : State) : ExecAnswer i s (exec i s) := by
  cases i with
  | zli rd imm12 =>
    refine execAnswer_of_command (fun c h => ?_) fun he _ => .completed _ he (.scalar rd _ rfl)
    simp at h; simp [← h.2, mayRaise]
  | zadd rd ra rb =>
    refine execAnswer_of_command (fun c h => ?_) fun he _ => .completed _ he (.scalar rd _ rfl)
    simp at h; simp [← h.2, mayRaise]
  | zsub rd ra rb =>
    refine execAnswer_of_command (fun c h => ?_) fun he _ => .completed _ he (.scalar rd _ rfl)
    simp at h; simp [← h.2, mayRaise]
  | zmul rd ra rb =>
    refine execAnswer_of_command (fun c h => ?_) fun he _ => .completed _ he (.scalar rd _ rfl)
    simp at h; simp [← h.2, mayRaise]
  | zpow rd ra imm12 =>
    refine execAnswer_of_command (fun c h => ?_) fun he _ => .completed _ he (.scalar rd _ rfl)
    simp at h; simp [← h.2, mayRaise]
  | zldz rd imm7 =>
    change ExecAnswer _ s (command (.zldz rd imm7) s [] _)
    refine execAnswer_of_command (fun c h => ?_) fun he _ => .completed _ he (.scalar rd _ rfl)
    cases h
  | zldg rd imm7 =>
    change ExecAnswer _ s (command (.zldg rd imm7) s [] _)
    refine execAnswer_of_command (fun c h => ?_) fun he _ => .completed _ he (.scalar rd _ rfl)
    cases h
  | ntt pd pa =>
    refine execAnswer_of_command (fun c h => ?_) fun he _ => .completed _ he (.poly pd _ .tq rfl (by decide))
    cases c <;> simp [mayRaise] <;> simp at h <;> split at h <;> simp_all
  | intt pd pa =>
    refine execAnswer_of_command (fun c h => ?_) fun he _ => .completed _ he (.poly pd _ .rq rfl (by decide))
    cases c <;> simp [mayRaise] <;> simp at h <;> split at h <;> simp_all
  | padd pd pa pb =>
    refine execAnswer_of_command (fun c h => ?_) fun he hf => .completed _ he (.poly pd _ (polyTag s pa) rfl ?_)
    · cases c <;> simp [mayRaise] <;> simp at h <;> split at h <;> simp_all
    · intro hE
      have hE' : polyEmpty s pa = true := by simp [polyEmpty, hE]
      simp [hE'] at hf
  | psub pd pa pb =>
    refine execAnswer_of_command (fun c h => ?_) fun he hf => .completed _ he (.poly pd _ (polyTag s pa) rfl ?_)
    · cases c <;> simp [mayRaise] <;> simp at h <;> split at h <;> simp_all
    · intro hE
      have hE' : polyEmpty s pa = true := by simp [polyEmpty, hE]
      simp [hE'] at hf
  | pmul pd pa pb =>
    refine execAnswer_of_command (fun c h => ?_) fun he _ => .completed _ he (.poly pd _ .tq rfl (by decide))
    cases c <;> simp [mayRaise] <;> simp at h <;> split at h <;> simp_all
  | plc pd pe pa pb k =>
    refine execAnswer_of_command (fun c h => ?_) fun he _ => .completed _ he (.poly pd _ .tq rfl (by decide))
    cases c <;> simp only [firstFailing_cons, firstFailing_nil] at h <;> simp [mayRaise] <;>
      (repeat' split at h) <;> simp_all
  | xopen i j =>
    change ExecAnswer _ s (command (.xopen i j) s [] _)
    refine execAnswer_of_command (fun c h => ?_) fun he _ => .completed _ he (.open_ i j rfl)
    cases h
  | sampleu pd =>
    refine execAnswer_of_command (fun c h => ?_) fun he hf => ?_
    · simp at h; simp [← h.2, mayRaise]
    · have hx : s.xvalid = true := by simpa using hf
      cases hu : uniformSample s with
      | none => exact .hung pd he rfl hx hu
      | some a => exact .completed _ he (.sample pd a rfl hx hu)
  | samplecbd pd eta =>
    refine execAnswer_of_command (fun c h => ?_) fun he _ => .completed _ he (.poly pd _ .rq rfl (by decide))
    cases c <;> simp [mayRaise] <;> simp at h <;> split at h <;> simp_all
  | bclr =>
    change ExecAnswer _ s (command .bclr s [] _)
    refine execAnswer_of_command (fun c h => ?_) fun he _ => .completed _ he (.clear rfl)
    cases h
  | bput imm8 =>
    refine execAnswer_of_command (fun c h => ?_) fun he hf => .completed _ he (.put imm8 rfl (by simpa using hf))
    simp at h; simp [← h.2, mayRaise]
  | encode pa d =>
    refine execAnswer_of_command (fun c h => ?_) fun he hf => ?_
    · cases c <;> simp only [firstFailing_cons, firstFailing_nil] at h <;> simp [mayRaise] <;>
        (repeat' split at h) <;> simp_all
    · have hb : badWidth d = false := by
        cases hd : badWidth d
        · rfl
        · simp [hd] at hf
      simp [badWidth] at hb
      exact .completed _ he (.pack pa d rfl (by omega) hb.2)
  | decodeR pd d =>
    refine execAnswer_of_command (fun c h => ?_) fun he _ => .completed _ he (.poly pd _ .rq rfl (by decide))
    cases c <;> simp only [decodeChecks, firstFailing_cons, firstFailing_nil] at h <;> simp [mayRaise] <;>
      (repeat' split at h) <;> simp_all
  | decodeT pd d =>
    refine execAnswer_of_command (fun c h => ?_) fun he _ => .completed _ he (.poly pd _ .tq rfl (by decide))
    cases c <;> simp only [decodeChecks, firstFailing_cons, firstFailing_nil] at h <;> simp [mayRaise] <;>
      (repeat' split at h) <;> simp_all

end Sys2Proof.Machine
end

