-- ==== Sys2Proof/Laws/Decode.lean ====
section
/-! SUPPORT. The rows of the opcode map as conditions on runs of bits (30_encoding.md R71, R74), and the encoder's word as a
number. -/
namespace Sys2Proof

/-- Two words agree on the run of `n` bits at `lo` exactly when the numbers read there agree (R7). -/
theorem run_eq_iff (w p : Word) (lo n : Nat) :
    (∀ i, lo ≤ i → i < lo + n → w.getLsbD i = p.getLsbD i) ↔
      w.toNat / 2 ^ lo % 2 ^ n = p.toNat / 2 ^ lo % 2 ^ n := by
  constructor
  · intro h
    apply Nat.eq_of_testBit_eq
    intro j
    simp only [Nat.testBit_mod_two_pow, Nat.testBit_div_two_pow]
    by_cases hj : j < n
    · have := h (lo + j) (by omega) (by omega)
      simp only [BitVec.getLsbD] at this
      simp [hj, Nat.add_comm j lo, this]
    · simp [hj]
  · intro h i h1 h2
    have := congrArg (fun x => x.testBit (i - lo)) h
    simp only [Nat.testBit_mod_two_pow, Nat.testBit_div_two_pow] at this
    have hi : i - lo < n := by omega
    have hs : i - lo + lo = i := by omega
    simpa [hi, hs, BitVec.getLsbD] using this

/-- A mask of two runs of ones selects exactly the words that agree with the pattern on both. -/
theorem and_eq_iff_runs (w m p : Word) (lo₁ n₁ lo₂ n₂ : Nat) (hp : p &&& m = p)
    (hm : ∀ i, i < 32 → m.getLsbD i = (decide (lo₁ ≤ i ∧ i < lo₁ + n₁) || decide (lo₂ ≤ i ∧ i < lo₂ + n₂)))
    (h1 : lo₁ + n₁ ≤ 32) (h2 : lo₂ + n₂ ≤ 32) :
    w &&& m = p ↔ w.toNat / 2 ^ lo₁ % 2 ^ n₁ = p.toNat / 2 ^ lo₁ % 2 ^ n₁ ∧
      w.toNat / 2 ^ lo₂ % 2 ^ n₂ = p.toNat / 2 ^ lo₂ % 2 ^ n₂ := by
  rw [← run_eq_iff, ← run_eq_iff]
  constructor
  · intro h
    have key : ∀ i, i < 32 → m.getLsbD i = true → w.getLsbD i = p.getLsbD i := by
      intro i hi hmi
      have := congrArg (fun x => BitVec.getLsbD x i) h
      simpa [hmi] using this
    exact ⟨fun i a b => key i (by omega) (by rw [hm i (by omega)]; simp [a, b]),
      fun i a b => key i (by omega) (by rw [hm i (by omega)]; simp [a, b])⟩
  · intro ⟨ha, hb⟩
    apply BitVec.eq_of_getLsbD_eq
    intro i hi
    by_cases hmi : m.getLsbD i = true
    · have hw : w.getLsbD i = p.getLsbD i := by
        have := hm i hi
        rw [hmi] at this
        simp only [Bool.true_eq, Bool.or_eq_true, decide_eq_true_eq] at this
        obtain ⟨a, b⟩ | ⟨a, b⟩ := this
        · exact ha i a b
        · exact hb i a b
      simp [hmi, hw]
    · have hpi : p.getLsbD i = false := by
        have := congrArg (fun x => BitVec.getLsbD x i) hp
        simpa [hmi] using this.symm
      simp [hmi, hpi]

/-- A row whose mask has two runs of ones accepts exactly the words with the pattern's values there (R74). -/
theorem accepts_iff_runs (op : Op) (w p m : Word) (lo₁ n₁ lo₂ n₂ : Nat) (hp : p &&& m = p)
    (hm : ∀ i, i < 32 → m.getLsbD i = (decide (lo₁ ≤ i ∧ i < lo₁ + n₁) || decide (lo₂ ≤ i ∧ i < lo₂ + n₂)))
    (h1 : lo₁ + n₁ ≤ 32) (h2 : lo₂ + n₂ ≤ 32) :
    OpRow.accepts ⟨op, p, m⟩ w = true ↔ w.toNat / 2 ^ lo₁ % 2 ^ n₁ = p.toNat / 2 ^ lo₁ % 2 ^ n₁ ∧
      w.toNat / 2 ^ lo₂ % 2 ^ n₂ = p.toNat / 2 ^ lo₂ % 2 ^ n₂ := by
  rw [OpRow.accepts, beq_iff_eq]
  exact and_eq_iff_runs w m p lo₁ n₁ lo₂ n₂ hp hm h1 h2

/-! Each row of R74 as the values of its runs. -/

theorem accepts_zli (w : Word) : OpRow.accepts ⟨.zli, 0x01000000, 0xFF0FF000⟩ w = true ↔
    w.toNat / 2 ^ 24 % 2 ^ 8 = 1 ∧ w.toNat / 2 ^ 12 % 2 ^ 8 = 0 :=
  accepts_iff_runs _ w _ _ 24 8 12 8 (by decide) (by decide) (by decide) (by decide)

theorem accepts_zadd (w : Word) : OpRow.accepts ⟨.zadd, 0x02000000, 0xFF000FFF⟩ w = true ↔
    w.toNat / 2 ^ 24 % 2 ^ 8 = 2 ∧ w.toNat / 2 ^ 0 % 2 ^ 12 = 0 :=
  accepts_iff_runs _ w _ _ 24 8 0 12 (by decide) (by decide) (by decide) (by decide)

theorem accepts_zsub (w : Word) : OpRow.accepts ⟨.zsub, 0x03000000, 0xFF000FFF⟩ w = true ↔
    w.toNat / 2 ^ 24 % 2 ^ 8 = 3 ∧ w.toNat / 2 ^ 0 % 2 ^ 12 = 0 :=
  accepts_iff_runs _ w _ _ 24 8 0 12 (by decide) (by decide) (by decide) (by decide)

theorem accepts_zmul (w : Word) : OpRow.accepts ⟨.zmul, 0x04000000, 0xFF000FFF⟩ w = true ↔
    w.toNat / 2 ^ 24 % 2 ^ 8 = 4 ∧ w.toNat / 2 ^ 0 % 2 ^ 12 = 0 :=
  accepts_iff_runs _ w _ _ 24 8 0 12 (by decide) (by decide) (by decide) (by decide)

theorem accepts_zpow (w : Word) : OpRow.accepts ⟨.zpow, 0x05000000, 0xFF00F000⟩ w = true ↔
    w.toNat / 2 ^ 24 % 2 ^ 8 = 5 ∧ w.toNat / 2 ^ 12 % 2 ^ 4 = 0 :=
  accepts_iff_runs _ w _ _ 24 8 12 4 (by decide) (by decide) (by decide) (by decide)

theorem accepts_zldz (w : Word) : OpRow.accepts ⟨.zldz, 0x06000000, 0xFF0FFF80⟩ w = true ↔
    w.toNat / 2 ^ 24 % 2 ^ 8 = 6 ∧ w.toNat / 2 ^ 7 % 2 ^ 13 = 0 :=
  accepts_iff_runs _ w _ _ 24 8 7 13 (by decide) (by decide) (by decide) (by decide)

theorem accepts_zldg (w : Word) : OpRow.accepts ⟨.zldg, 0x07000000, 0xFF0FFF80⟩ w = true ↔
    w.toNat / 2 ^ 24 % 2 ^ 8 = 7 ∧ w.toNat / 2 ^ 7 % 2 ^ 13 = 0 :=
  accepts_iff_runs _ w _ _ 24 8 7 13 (by decide) (by decide) (by decide) (by decide)

theorem accepts_ntt (w : Word) : OpRow.accepts ⟨.ntt, 0x10000000, 0xFF00FFFF⟩ w = true ↔
    w.toNat / 2 ^ 24 % 2 ^ 8 = 16 ∧ w.toNat / 2 ^ 0 % 2 ^ 16 = 0 :=
  accepts_iff_runs _ w _ _ 24 8 0 16 (by decide) (by decide) (by decide) (by decide)

theorem accepts_intt (w : Word) : OpRow.accepts ⟨.intt, 0x11000000, 0xFF00FFFF⟩ w = true ↔
    w.toNat / 2 ^ 24 % 2 ^ 8 = 17 ∧ w.toNat / 2 ^ 0 % 2 ^ 16 = 0 :=
  accepts_iff_runs _ w _ _ 24 8 0 16 (by decide) (by decide) (by decide) (by decide)

theorem accepts_padd (w : Word) : OpRow.accepts ⟨.padd, 0x20000000, 0xFF000FFF⟩ w = true ↔
    w.toNat / 2 ^ 24 % 2 ^ 8 = 32 ∧ w.toNat / 2 ^ 0 % 2 ^ 12 = 0 :=
  accepts_iff_runs _ w _ _ 24 8 0 12 (by decide) (by decide) (by decide) (by decide)

theorem accepts_psub (w : Word) : OpRow.accepts ⟨.psub, 0x21000000, 0xFF000FFF⟩ w = true ↔
    w.toNat / 2 ^ 24 % 2 ^ 8 = 33 ∧ w.toNat / 2 ^ 0 % 2 ^ 12 = 0 :=
  accepts_iff_runs _ w _ _ 24 8 0 12 (by decide) (by decide) (by decide) (by decide)

theorem accepts_pmul (w : Word) : OpRow.accepts ⟨.pmul, 0x22000000, 0xFF000FFF⟩ w = true ↔
    w.toNat / 2 ^ 24 % 2 ^ 8 = 34 ∧ w.toNat / 2 ^ 0 % 2 ^ 12 = 0 :=
  accepts_iff_runs _ w _ _ 24 8 0 12 (by decide) (by decide) (by decide) (by decide)

theorem accepts_plc (w : Word) : OpRow.accepts ⟨.plc, 0x23000000, 0xFF000000⟩ w = true ↔
    w.toNat / 2 ^ 24 % 2 ^ 8 = 35 ∧ w.toNat / 2 ^ 0 % 2 ^ 0 = 0 :=
  accepts_iff_runs _ w _ _ 24 8 0 0 (by decide) (by decide) (by decide) (by decide)

theorem accepts_xopen (w : Word) : OpRow.accepts ⟨.xopen, 0x30000000, 0xFFFF0000⟩ w = true ↔
    w.toNat / 2 ^ 16 % 2 ^ 16 = 12288 ∧ w.toNat / 2 ^ 0 % 2 ^ 0 = 0 :=
  accepts_iff_runs _ w _ _ 16 16 0 0 (by decide) (by decide) (by decide) (by decide)

theorem accepts_sampleu (w : Word) : OpRow.accepts ⟨.sampleu, 0x31000000, 0xFF0FFFFF⟩ w = true ↔
    w.toNat / 2 ^ 24 % 2 ^ 8 = 49 ∧ w.toNat / 2 ^ 0 % 2 ^ 20 = 0 :=
  accepts_iff_runs _ w _ _ 24 8 0 20 (by decide) (by decide) (by decide) (by decide)

theorem accepts_samplecbd (w : Word) : OpRow.accepts ⟨.samplecbd, 0x32000000, 0xFF0FFFF0⟩ w = true ↔
    w.toNat / 2 ^ 24 % 2 ^ 8 = 50 ∧ w.toNat / 2 ^ 4 % 2 ^ 16 = 0 :=
  accepts_iff_runs _ w _ _ 24 8 4 16 (by decide) (by decide) (by decide) (by decide)

theorem accepts_bclr (w : Word) : OpRow.accepts ⟨.bclr, 0x40000000, 0xFFFFFFFF⟩ w = true ↔
    w.toNat / 2 ^ 0 % 2 ^ 32 = 1073741824 ∧ w.toNat / 2 ^ 0 % 2 ^ 0 = 0 :=
  accepts_iff_runs _ w _ _ 0 32 0 0 (by decide) (by decide) (by decide) (by decide)

theorem accepts_bput (w : Word) : OpRow.accepts ⟨.bput, 0x41000000, 0xFFFFFF00⟩ w = true ↔
    w.toNat / 2 ^ 8 % 2 ^ 24 = 4259840 ∧ w.toNat / 2 ^ 0 % 2 ^ 0 = 0 :=
  accepts_iff_runs _ w _ _ 8 24 0 0 (by decide) (by decide) (by decide) (by decide)

theorem accepts_encode (w : Word) : OpRow.accepts ⟨.encode, 0x42000000, 0xFFF0FFF0⟩ w = true ↔
    w.toNat / 2 ^ 20 % 2 ^ 12 = 1056 ∧ w.toNat / 2 ^ 4 % 2 ^ 12 = 0 :=
  accepts_iff_runs _ w _ _ 20 12 4 12 (by decide) (by decide) (by decide) (by decide)

theorem accepts_decodeR (w : Word) : OpRow.accepts ⟨.decodeR, 0x43000000, 0xFF0FFFF0⟩ w = true ↔
    w.toNat / 2 ^ 24 % 2 ^ 8 = 67 ∧ w.toNat / 2 ^ 4 % 2 ^ 16 = 0 :=
  accepts_iff_runs _ w _ _ 24 8 4 16 (by decide) (by decide) (by decide) (by decide)

theorem accepts_decodeT (w : Word) : OpRow.accepts ⟨.decodeT, 0x43000010, 0xFF0FFFF0⟩ w = true ↔
    w.toNat / 2 ^ 24 % 2 ^ 8 = 67 ∧ w.toNat / 2 ^ 4 % 2 ^ 16 = 1 :=
  accepts_iff_runs _ w _ _ 24 8 4 16 (by decide) (by decide) (by decide) (by decide)

/-- The encoder's word as a number: opcode and fields never overlap (R72). -/
theorem encodeWord_toNat (i : Instr) (h : fieldsOf i < 2 ^ 24) : (encodeWord i).toNat = opcodeOf i * 2 ^ 24 + fieldsOf i := by
  have : opcodeOf i < 2 ^ 8 := by cases i <;> simp [opcodeOf]
  rw [encodeWord, BitVec.toNat_ofNat, Nat.mod_eq_of_lt (by omega)]

/-- The fields of every command fit below its opcode (R72). -/
theorem fieldsOf_lt (i : Instr) : fieldsOf i < 2 ^ 24 := by
  cases i <;> simp only [fieldsOf] <;> omega

/-- The decoding of a word some row accepts, when that row is the first to (R75). -/
theorem decodeWord_of_find (w : Word) (r : OpRow) (h : (opRows.find? fun r => r.accepts w) = some r) :
    decodeWord w = .command (operandsOf r.op w) := by
  unfold decodeWord
  split
  · next r' h' => rw [h] at h'; cases h'; rfl
  · next h' => rw [h] at h'; cases h'

/-- The decoding of a word no row accepts (R76). -/
theorem decodeWord_of_none (w : Word) (h : (opRows.find? fun r => r.accepts w) = none) :
    ∃ why, decodeWord w = .illegal why := by
  unfold decodeWord
  split
  · next r' h' => rw [h] at h'; cases h'
  · exact ⟨_, rfl⟩

end Sys2Proof
end

