-- ==== Sys2Proof/Laws/Field.lean ====
section
/-! SUPPORT. The field functions as arithmetic modulo 3329 and as the ring operations of `ZMod 3329` (40_zq_arithmetic.md R100
to R103, R111). -/
namespace Sys2Proof.Machine

theorem toField_val (z : Int) : (toField z).val = (z % 3329).toNat := rfl

theorem toField_natCast_val (n : Nat) : (toField n).val = n % 3329 := by
  rw [toField_val]; omega

theorem toField_of_lt {n : Nat} (h : n < 3329) : toField n = ⟨n, h⟩ := by
  apply Fin.ext; rw [toField_natCast_val]; exact Nat.mod_eq_of_lt h

theorem zadd_val (a b : FieldElement) : (zadd a b).val = (a.val + b.val) % 3329 := by
  rw [zadd, toField_val]; omega

theorem zmul_val (a b : FieldElement) : (zmul a b).val = a.val * b.val % 3329 := by
  rw [zmul, ← Nat.cast_mul, toField_natCast_val]

theorem zsub_val (a b : FieldElement) : (zsub a b).val = (a.val + 3329 - b.val) % 3329 := by
  have := b.isLt
  rw [zsub, toField_val]; omega

/-- A field element as a member of the ring `ZMod 3329`, where `ring` applies. -/
def toZ (a : FieldElement) : ZMod 3329 := (a.val : ZMod 3329)

theorem toZ_injective {a b : FieldElement} (h : toZ a = toZ b) : a = b := by
  have h' := (ZMod.natCast_eq_natCast_iff' a.val b.val 3329).1 h
  rw [Nat.mod_eq_of_lt a.isLt, Nat.mod_eq_of_lt b.isLt] at h'
  exact Fin.ext h'

@[simp] theorem toZ_toField (z : Int) : toZ (toField z) = (z : ZMod 3329) := by
  have h : (((z % 3329).toNat : Int) : ZMod 3329) = ((z % 3329 : Int) : ZMod 3329) := by
    rw [Int.toNat_of_nonneg (by omega)]
  rw [toZ, toField_val, ← Int.cast_natCast, h]
  exact (ZMod.intCast_eq_intCast_iff _ _ 3329).2 (Int.mod_modEq z 3329)

@[simp] theorem toZ_zadd (a b : FieldElement) : toZ (zadd a b) = toZ a + toZ b := by
  rw [zadd, toZ_toField]; simp [toZ]

@[simp] theorem toZ_zsub (a b : FieldElement) : toZ (zsub a b) = toZ a - toZ b := by
  rw [zsub, toZ_toField]; simp [toZ]

@[simp] theorem toZ_zmul (a b : FieldElement) : toZ (zmul a b) = toZ a * toZ b := by
  rw [zmul, toZ_toField]; simp [toZ]

@[simp] theorem toZ_zero : toZ 0 = 0 := by simp [toZ]

@[simp] theorem toZ_one : toZ 1 = 1 := by simp [toZ]

/-- One round doubles the exponent collected so far and adds the next bit (R103). -/
theorem toZ_powRound (a r : FieldElement) (e n t : Nat) (h : toZ r = toZ a ^ n) :
    toZ (powRound a e r t) = toZ a ^ (2 * n + e / 2 ^ t % 2) := by
  unfold powRound
  rw [Nat.testBit_eq_decide_div_mod_eq]
  have h2 : toZ (zmul r r) = toZ a ^ (2 * n) := by rw [toZ_zmul, h]; ring
  by_cases hb : e / 2 ^ t % 2 = 1
  · simp only [hb, decide_true, if_true, toZ_zmul, h]; ring
  · have h0 : e / 2 ^ t % 2 = 0 := by omega
    simp only [h0, decide_false, zero_ne_one, Bool.false_eq_true, if_false, h2, add_zero]

/-- `zpow` is the power in `ZMod 3329`, for every 12-bit exponent (R103). -/
theorem toZ_zpow (a : FieldElement) (e : Nat) (he : e < 4096) : toZ (zpow a e) = toZ a ^ e := by
  have step : ∀ (r : FieldElement) (t : Nat), toZ r = toZ a ^ (e / 2 ^ (t + 1)) →
      toZ (powRound a e r t) = toZ a ^ (e / 2 ^ t) := by
    intro r t h
    rw [toZ_powRound a r e _ t h, pow_succ 2 t, ← Nat.div_div_eq_div_mul]
    congr 1; omega
  have h12 : toZ 1 = toZ a ^ (e / 2 ^ 12) := by rw [Nat.div_eq_of_lt (by omega)]; simp
  have h := step _ 0 (step _ 1 (step _ 2 (step _ 3 (step _ 4 (step _ 5 (step _ 6 (step _ 7 (step _ 8 (step _ 9
    (step _ 10 (step _ 11 h12)))))))))))
  rwa [pow_zero, Nat.div_one] at h

/-- `zpow(a, e) = a^e mod 3329` (R103). -/
theorem zpow_val (a : FieldElement) (e : Nat) (he : e < 4096) : (zpow a e).val = a.val ^ e % 3329 := by
  have h : ((zpow a e).val : ZMod 3329) = ((a.val ^ e : Nat) : ZMod 3329) := by
    have := toZ_zpow a e he
    simpa [toZ] using this
  have h' := (ZMod.natCast_eq_natCast_iff' _ _ 3329).1 h
  rwa [Nat.mod_eq_of_lt (zpow a e).isLt] at h'

theorem toList_ofValues (l : List FieldElement) (h : l.length = 256) : (ofValues l).toList = l := by
  show (l ++ List.replicate 256 0).take 256 = l
  rw [List.take_append_of_le_length (by omega), List.take_of_length_le (by omega)]

theorem ofValues_toList (f : Coeffs) : ofValues f.toList = f := by
  apply Vector.toList_inj.1
  exact toList_ofValues _ (by simp)

end Sys2Proof.Machine
end

