-- ==== Sys2Proof/Laws/Frames.lean ====
section
/-! SUPPORT. The frame of each kind of write of a completed command (the terms of Safety.lean), and the checks over sources and
windows as statements about tags. -/
namespace Sys2Proof.Machine

/-- A scalar write and the advance of `PC` change the destination and nothing else. -/
theorem wroteScalar_complete (s : State) (rd : RegNo) (v : FieldElement) :
    WroteScalar s { writeScalar s rd v with pc := (writeScalar s rd v).pc + 1 } rd v.val where
  value := by simp [writeScalar]
  valid := by simp [writeScalar]
  others r hr := by
    have : rd.val ≠ r.val := fun h => hr (Fin.ext h.symm)
    simp [writeScalar, this]
  pc := rfl
  polys := ⟨rfl, rfl⟩
  buffer := ⟨fun _ => rfl, rfl⟩
  stream := ⟨rfl, rfl, rfl⟩
  latch := ⟨rfl, rfl, rfl⟩
  environment := ⟨rfl, rfl⟩

/-- A polynomial write and the advance of `PC` change the destination and nothing else. -/
theorem wrotePoly_complete (s : State) (pd : RegNo) (f : Coeffs) (g : Tag) :
    WrotePoly s { writePoly s pd f g with pc := (writePoly s pd f g).pc + 1 } pd g where
  tagged := by simp [writePoly]
  others r hr := by
    have : pd.val ≠ r.val := fun h => hr (Fin.ext h.symm)
    simp [writePoly, this]
  pc := rfl
  scalars := ⟨rfl, rfl⟩
  buffer := ⟨fun _ => rfl, rfl⟩
  stream := ⟨rfl, rfl⟩
  latch := ⟨rfl, rfl, rfl⟩
  environment := ⟨rfl, rfl⟩

/-- What `writePoly` leaves in its destination. -/
theorem writePoly_preg_self (s : State) (pd : RegNo) (f : Coeffs) (g : Tag) : (writePoly s pd f g).preg[pd] = f := by
  simp [writePoly]

/-- A scalar command whose checks pass. -/
theorem scalar_completes {i : Instr} {s : State} {checks : List (Bool × Cause)} {rd : RegNo} {v : FieldElement} {n : Nat}
    (he : s.err = none) (hc : firstFailing checks = none) (hv : v.val = n) :
    ∃ t, command i s checks (complete (writeScalar s rd v)) = .next t ∧ WroteScalar s t rd n :=
  ⟨_, by rw [command_runs he hc, complete_eq], hv ▸ wroteScalar_complete s rd v⟩

/-- A command with a polynomial destination whose checks pass. -/
theorem poly_completes {i : Instr} {s : State} {checks : List (Bool × Cause)} {pd : RegNo} {f : Coeffs} {g : Tag}
    (he : s.err = none) (hc : firstFailing checks = none) :
    ∃ t, command i s checks (complete (writePoly s pd f g)) = .next t ∧ WrotePoly s t pd g ∧ t.xpos = s.xpos ∧
      t.preg[pd] = f :=
  ⟨_, by rw [command_runs he hc, complete_eq], wrotePoly_complete s pd f g, rfl, writePoly_preg_self s pd f g⟩

/-- `BLEN` after `setBlen`, for the lengths that occur. -/
theorem setBlen_toNat (s : State) (n : Nat) (h : n < 512) : (setBlen s n).blen.toNat = n := by
  rw [setBlen_blen, BitVec.toNat_ofNat, Nat.mod_eq_of_lt h]

theorem polyEmpty_eq (s : State) (r : RegNo) : polyEmpty s r = decide (s.ptag[r] = .empty) := by
  simp [polyEmpty, polyTag, beq_eq_decide]

theorem notDomain_eq (s : State) (g : Tag) (r : RegNo) : notDomain s g r = decide (s.ptag[r] ≠ g) := by
  simp [notDomain, polyTag, bne, beq_eq_decide]

theorem scalarEmpty_eq (s : State) (r : RegNo) : scalarEmpty s r = !s.sval[r] := rfl

/-- The members of a window of `PLC` (R145). -/
theorem mem_window (r x : RegNo) (k : BitVec 8) : x ∈ window r k ↔ ∃ j, j < k.toNat ∧ regAfter r j = x := by
  simp [window, regAfter]

/-- A check over the sources of `PLC` fails exactly when it fails for the addend or for a member of a window (R145). -/
theorem any_plcSources (p : RegNo → Bool) (pe pa pb : RegNo) (k : BitVec 8) :
    (plcSources pe pa pb k).any p = true ↔
      p pe = true ∨ ∃ j, j < k.toNat ∧ (p (regAfter pa j) = true ∨ p (regAfter pb j) = true) := by
  simp only [plcSources, List.any_cons, List.any_append, Bool.or_eq_true, List.any_eq_true, mem_window]
  constructor
  · rintro (h | ⟨x, ⟨j, hj, rfl⟩, hx⟩ | ⟨x, ⟨j, hj, rfl⟩, hx⟩)
    · exact .inl h
    · exact .inr ⟨j, hj, .inl hx⟩
    · exact .inr ⟨j, hj, .inr hx⟩
  · rintro (h | ⟨j, hj, hx | hx⟩)
    · exact .inl h
    · exact .inr (.inl ⟨_, ⟨j, hj, rfl⟩, hx⟩)
    · exact .inr (.inr ⟨_, ⟨j, hj, rfl⟩, hx⟩)

end Sys2Proof.Machine
end

