-- ==== Sys2Proof/Laws/PerInstr.lean ====
section
/-! SUPPORT. A statement about every command, one lemma per constructor: the command's encoding is accepted by a row of the
opcode map, and reading the operand fields back from it gives the command (30_encoding.md R72, R74). -/
namespace Sys2Proof.Laws.Row

/-- Some row accepts the encoding of `i`, and the fields read from it are those of `i`. -/
def Statement (i : Instr) : Prop :=
  ∃ r ∈ opRows, r.accepts (encodeWord i) = true ∧ operandsOf r.op (encodeWord i) = i

/-- The three parts of `Statement`, from the word as a number. -/
theorem intro {i : Instr} {n : Nat} (r : OpRow) (hi : opcodeOf i * 2 ^ 24 + fieldsOf i = n) (hr : r ∈ opRows)
    (ha : ∀ w : Word, w.toNat = n → r.accepts w = true) (ho : ∀ w : Word, w.toNat = n → operandsOf r.op w = i) :
    Statement i :=
  have h : (encodeWord i).toNat = n := by rw [encodeWord_toNat i (fieldsOf_lt i), hi]
  ⟨r, hr, ha _ h, ho _ h⟩

theorem regAt_eq {w : Word} {lo : Nat} {r : RegNo} (h : w.toNat / 2 ^ lo % 16 = r.val) : regAt w lo = r := Fin.ext h

theorem ofNat_fieldAt_eq {w : Word} {lo n : Nat} {b : BitVec n} (h : w.toNat / 2 ^ lo % 2 ^ n = b.toNat) :
    BitVec.ofNat n (fieldAt w lo n) = b := by
  apply BitVec.eq_of_toNat_eq
  rw [BitVec.toNat_ofNat, fieldAt, h, Nat.mod_eq_of_lt b.isLt]

theorem zli (rd : RegNo) (imm12 : BitVec 12) : Statement (.zli rd imm12) := by
  refine intro ⟨.zli, 0x01000000, 0xFF0FF000⟩ rfl (by simp [opRows, scalarRows])
    (fun w h => (accepts_zli w).2 (by simp only [opcodeOf, fieldsOf] at h; omega)) fun w h => ?_
  simp only [opcodeOf, fieldsOf] at h
  have key : operandsOf .zli w = Instr.zli rd imm12 := by
    simp only [operandsOf]
    congr 1
    · exact regAt_eq (by omega)
    · exact ofNat_fieldAt_eq (by omega)
  exact key

theorem zadd (rd : RegNo) (ra : RegNo) (rb : RegNo) : Statement (.zadd rd ra rb) := by
  refine intro ⟨.zadd, 0x02000000, 0xFF000FFF⟩ rfl (by simp [opRows, scalarRows])
    (fun w h => (accepts_zadd w).2 (by simp only [opcodeOf, fieldsOf] at h; omega)) fun w h => ?_
  simp only [opcodeOf, fieldsOf] at h
  have key : operandsOf .zadd w = Instr.zadd rd ra rb := by
    simp only [operandsOf]
    congr 1
    · exact regAt_eq (by omega)
    · exact regAt_eq (by omega)
    · exact regAt_eq (by omega)
  exact key

theorem zsub (rd : RegNo) (ra : RegNo) (rb : RegNo) : Statement (.zsub rd ra rb) := by
  refine intro ⟨.zsub, 0x03000000, 0xFF000FFF⟩ rfl (by simp [opRows, scalarRows])
    (fun w h => (accepts_zsub w).2 (by simp only [opcodeOf, fieldsOf] at h; omega)) fun w h => ?_
  simp only [opcodeOf, fieldsOf] at h
  have key : operandsOf .zsub w = Instr.zsub rd ra rb := by
    simp only [operandsOf]
    congr 1
    · exact regAt_eq (by omega)
    · exact regAt_eq (by omega)
    · exact regAt_eq (by omega)
  exact key

theorem zmul (rd : RegNo) (ra : RegNo) (rb : RegNo) : Statement (.zmul rd ra rb) := by
  refine intro ⟨.zmul, 0x04000000, 0xFF000FFF⟩ rfl (by simp [opRows, scalarRows])
    (fun w h => (accepts_zmul w).2 (by simp only [opcodeOf, fieldsOf] at h; omega)) fun w h => ?_
  simp only [opcodeOf, fieldsOf] at h
  have key : operandsOf .zmul w = Instr.zmul rd ra rb := by
    simp only [operandsOf]
    congr 1
    · exact regAt_eq (by omega)
    · exact regAt_eq (by omega)
    · exact regAt_eq (by omega)
  exact key

theorem zpow (rd : RegNo) (ra : RegNo) (imm12 : BitVec 12) : Statement (.zpow rd ra imm12) := by
  refine intro ⟨.zpow, 0x05000000, 0xFF00F000⟩ rfl (by simp [opRows, scalarRows])
    (fun w h => (accepts_zpow w).2 (by simp only [opcodeOf, fieldsOf] at h; omega)) fun w h => ?_
  simp only [opcodeOf, fieldsOf] at h
  have key : operandsOf .zpow w = Instr.zpow rd ra imm12 := by
    simp only [operandsOf]
    congr 1
    · exact regAt_eq (by omega)
    · exact regAt_eq (by omega)
    · exact ofNat_fieldAt_eq (by omega)
  exact key

theorem zldz (rd : RegNo) (imm7 : BitVec 7) : Statement (.zldz rd imm7) := by
  refine intro ⟨.zldz, 0x06000000, 0xFF0FFF80⟩ rfl (by simp [opRows, scalarRows])
    (fun w h => (accepts_zldz w).2 (by simp only [opcodeOf, fieldsOf] at h; omega)) fun w h => ?_
  simp only [opcodeOf, fieldsOf] at h
  have key : operandsOf .zldz w = Instr.zldz rd imm7 := by
    simp only [operandsOf]
    congr 1
    · exact regAt_eq (by omega)
    · exact ofNat_fieldAt_eq (by omega)
  exact key

theorem zldg (rd : RegNo) (imm7 : BitVec 7) : Statement (.zldg rd imm7) := by
  refine intro ⟨.zldg, 0x07000000, 0xFF0FFF80⟩ rfl (by simp [opRows, scalarRows])
    (fun w h => (accepts_zldg w).2 (by simp only [opcodeOf, fieldsOf] at h; omega)) fun w h => ?_
  simp only [opcodeOf, fieldsOf] at h
  have key : operandsOf .zldg w = Instr.zldg rd imm7 := by
    simp only [operandsOf]
    congr 1
    · exact regAt_eq (by omega)
    · exact ofNat_fieldAt_eq (by omega)
  exact key

theorem ntt (pd : RegNo) (pa : RegNo) : Statement (.ntt pd pa) := by
  refine intro ⟨.ntt, 0x10000000, 0xFF00FFFF⟩ rfl (by simp [opRows, polyRows])
    (fun w h => (accepts_ntt w).2 (by simp only [opcodeOf, fieldsOf] at h; omega)) fun w h => ?_
  simp only [opcodeOf, fieldsOf] at h
  have key : operandsOf .ntt w = Instr.ntt pd pa := by
    simp only [operandsOf]
    congr 1
    · exact regAt_eq (by omega)
    · exact regAt_eq (by omega)
  exact key

theorem intt (pd : RegNo) (pa : RegNo) : Statement (.intt pd pa) := by
  refine intro ⟨.intt, 0x11000000, 0xFF00FFFF⟩ rfl (by simp [opRows, polyRows])
    (fun w h => (accepts_intt w).2 (by simp only [opcodeOf, fieldsOf] at h; omega)) fun w h => ?_
  simp only [opcodeOf, fieldsOf] at h
  have key : operandsOf .intt w = Instr.intt pd pa := by
    simp only [operandsOf]
    congr 1
    · exact regAt_eq (by omega)
    · exact regAt_eq (by omega)
  exact key

theorem padd (pd : RegNo) (pa : RegNo) (pb : RegNo) : Statement (.padd pd pa pb) := by
  refine intro ⟨.padd, 0x20000000, 0xFF000FFF⟩ rfl (by simp [opRows, polyRows])
    (fun w h => (accepts_padd w).2 (by simp only [opcodeOf, fieldsOf] at h; omega)) fun w h => ?_
  simp only [opcodeOf, fieldsOf] at h
  have key : operandsOf .padd w = Instr.padd pd pa pb := by
    simp only [operandsOf]
    congr 1
    · exact regAt_eq (by omega)
    · exact regAt_eq (by omega)
    · exact regAt_eq (by omega)
  exact key

theorem psub (pd : RegNo) (pa : RegNo) (pb : RegNo) : Statement (.psub pd pa pb) := by
  refine intro ⟨.psub, 0x21000000, 0xFF000FFF⟩ rfl (by simp [opRows, polyRows])
    (fun w h => (accepts_psub w).2 (by simp only [opcodeOf, fieldsOf] at h; omega)) fun w h => ?_
  simp only [opcodeOf, fieldsOf] at h
  have key : operandsOf .psub w = Instr.psub pd pa pb := by
    simp only [operandsOf]
    congr 1
    · exact regAt_eq (by omega)
    · exact regAt_eq (by omega)
    · exact regAt_eq (by omega)
  exact key

theorem pmul (pd : RegNo) (pa : RegNo) (pb : RegNo) : Statement (.pmul pd pa pb) := by
  refine intro ⟨.pmul, 0x22000000, 0xFF000FFF⟩ rfl (by simp [opRows, polyRows])
    (fun w h => (accepts_pmul w).2 (by simp only [opcodeOf, fieldsOf] at h; omega)) fun w h => ?_
  simp only [opcodeOf, fieldsOf] at h
  have key : operandsOf .pmul w = Instr.pmul pd pa pb := by
    simp only [operandsOf]
    congr 1
    · exact regAt_eq (by omega)
    · exact regAt_eq (by omega)
    · exact regAt_eq (by omega)
  exact key

theorem plc (pd : RegNo) (pe : RegNo) (pa : RegNo) (pb : RegNo) (k : BitVec 8) : Statement (.plc pd pe pa pb k) := by
  refine intro ⟨.plc, 0x23000000, 0xFF000000⟩ rfl (by simp [opRows, polyRows])
    (fun w h => (accepts_plc w).2 (by simp only [opcodeOf, fieldsOf] at h; omega)) fun w h => ?_
  simp only [opcodeOf, fieldsOf] at h
  have key : operandsOf .plc w = Instr.plc pd pe pa pb k := by
    simp only [operandsOf]
    congr 1
    · exact regAt_eq (by omega)
    · exact regAt_eq (by omega)
    · exact regAt_eq (by omega)
    · exact regAt_eq (by omega)
    · exact ofNat_fieldAt_eq (by omega)
  exact key

theorem xopen (i : BitVec 8) (j : BitVec 8) : Statement (.xopen i j) := by
  refine intro ⟨.xopen, 0x30000000, 0xFFFF0000⟩ rfl (by simp [opRows, byteRows])
    (fun w h => (accepts_xopen w).2 (by simp only [opcodeOf, fieldsOf] at h; omega)) fun w h => ?_
  simp only [opcodeOf, fieldsOf] at h
  have key : operandsOf .xopen w = Instr.xopen i j := by
    simp only [operandsOf]
    congr 1
    · exact ofNat_fieldAt_eq (by omega)
    · exact ofNat_fieldAt_eq (by omega)
  exact key

theorem sampleu (pd : RegNo) : Statement (.sampleu pd) := by
  refine intro ⟨.sampleu, 0x31000000, 0xFF0FFFFF⟩ rfl (by simp [opRows, byteRows])
    (fun w h => (accepts_sampleu w).2 (by simp only [opcodeOf, fieldsOf] at h; omega)) fun w h => ?_
  simp only [opcodeOf, fieldsOf] at h
  exact congrArg Instr.sampleu (regAt_eq (by omega))

theorem samplecbd (pd : RegNo) (eta : BitVec 4) : Statement (.samplecbd pd eta) := by
  refine intro ⟨.samplecbd, 0x32000000, 0xFF0FFFF0⟩ rfl (by simp [opRows, byteRows])
    (fun w h => (accepts_samplecbd w).2 (by simp only [opcodeOf, fieldsOf] at h; omega)) fun w h => ?_
  simp only [opcodeOf, fieldsOf] at h
  have key : operandsOf .samplecbd w = Instr.samplecbd pd eta := by
    simp only [operandsOf]
    congr 1
    · exact regAt_eq (by omega)
    · exact ofNat_fieldAt_eq (by omega)
  exact key

theorem bclr : Statement .bclr := by
  refine intro ⟨.bclr, 0x40000000, 0xFFFFFFFF⟩ rfl (by simp [opRows, byteRows])
    (fun w h => (accepts_bclr w).2 (by simp only [opcodeOf, fieldsOf] at h; omega)) fun w h => ?_
  rfl

theorem bput (imm8 : BitVec 8) : Statement (.bput imm8) := by
  refine intro ⟨.bput, 0x41000000, 0xFFFFFF00⟩ rfl (by simp [opRows, byteRows])
    (fun w h => (accepts_bput w).2 (by simp only [opcodeOf, fieldsOf] at h; omega)) fun w h => ?_
  simp only [opcodeOf, fieldsOf] at h
  exact congrArg Instr.bput (ofNat_fieldAt_eq (by omega))

theorem encode (pa : RegNo) (d : BitVec 4) : Statement (.encode pa d) := by
  refine intro ⟨.encode, 0x42000000, 0xFFF0FFF0⟩ rfl (by simp [opRows, byteRows])
    (fun w h => (accepts_encode w).2 (by simp only [opcodeOf, fieldsOf] at h; omega)) fun w h => ?_
  simp only [opcodeOf, fieldsOf] at h
  have key : operandsOf .encode w = Instr.encode pa d := by
    simp only [operandsOf]
    congr 1
    · exact regAt_eq (by omega)
    · exact ofNat_fieldAt_eq (by omega)
  exact key

theorem decodeR (pd : RegNo) (d : BitVec 4) : Statement (.decodeR pd d) := by
  refine intro ⟨.decodeR, 0x43000000, 0xFF0FFFF0⟩ rfl (by simp [opRows, byteRows])
    (fun w h => (accepts_decodeR w).2 (by simp only [opcodeOf, fieldsOf] at h; omega)) fun w h => ?_
  simp only [opcodeOf, fieldsOf] at h
  have key : operandsOf .decodeR w = Instr.decodeR pd d := by
    simp only [operandsOf]
    congr 1
    · exact regAt_eq (by omega)
    · exact ofNat_fieldAt_eq (by omega)
  exact key

theorem decodeT (pd : RegNo) (d : BitVec 4) : Statement (.decodeT pd d) := by
  refine intro ⟨.decodeT, 0x43000010, 0xFF0FFFF0⟩ rfl (by simp [opRows, byteRows])
    (fun w h => (accepts_decodeT w).2 (by simp only [opcodeOf, fieldsOf] at h; omega)) fun w h => ?_
  simp only [opcodeOf, fieldsOf] at h
  have key : operandsOf .decodeT w = Instr.decodeT pd d := by
    simp only [operandsOf]
    congr 1
    · exact regAt_eq (by omega)
    · exact ofNat_fieldAt_eq (by omega)
  exact key

end Sys2Proof.Laws.Row
end

