-- ==== Sys2Proof/Laws/Poly.lean ====
section
/-! SUPPORT. Polynomials cell by cell: the arithmetic of 42_poly_arithmetic.md R140, R143 and R145, and the stages of the
transforms of 41_ntt.md R121 and R123. -/
namespace Sys2Proof.Machine

theorem cell_eq_getElem (f : Coeffs) (n : Nat) (h : n < 256) : cell f n = f[n] := by
  simp [cell, List.getD_eq_getElem?_getD, h]

theorem cell_ofValues (l : List FieldElement) (h : l.length = 256) (n : Nat) : cell (ofValues l) n = l.getD n 0 := by
  rw [cell, toList_ofValues l h]

/-- Two polynomials with the same 256 cells are equal. -/
theorem coeffs_ext {f g : Coeffs} (h : ∀ n, n < 256 → cell f n = cell g n) : f = g := by
  ext n hn
  rw [← cell_eq_getElem f n hn, ← cell_eq_getElem g n hn, h n hn]

theorem getD_map_lt {α β : Type} (g : α → β) (l : List α) (n : Nat) (d : β) (e : α) (h : n < l.length) :
    (l.map g).getD n d = g (l.getD n e) := by
  simp [List.getD_eq_getElem?_getD, h]

theorem getD_zipWith_lt {α β γ : Type} (g : α → β → γ) (l : List α) (m : List β) (n : Nat) (d : γ) (a : α) (b : β)
    (hl : n < l.length) (hm : n < m.length) : (List.zipWith g l m).getD n d = g (l.getD n a) (m.getD n b) := by
  simp [List.getD_eq_getElem?_getD, hl, hm]

theorem cell_map (f : Coeffs) (g : FieldElement → FieldElement) (n : Nat) (h : n < 256) :
    cell (f.map g) n = g (cell f n) := by
  rw [cell_eq_getElem _ _ h, cell_eq_getElem _ _ h, Vector.getElem_map]

/-- `padd` cell by cell (R140). -/
theorem cell_padd (a b : Coeffs) (n : Nat) (h : n < 256) : cell (padd a b) n = zadd (cell a n) (cell b n) := by
  rw [padd, cell_ofValues _ (by simp), getD_zipWith_lt _ _ _ _ _ 0 0 (by simpa using h) (by simpa using h)]; rfl

/-- `psub` cell by cell (R140). -/
theorem cell_psub (a b : Coeffs) (n : Nat) (h : n < 256) : cell (psub a b) n = zsub (cell a n) (cell b n) := by
  rw [psub, cell_ofValues _ (by simp), getD_zipWith_lt _ _ _ _ _ 0 0 (by simpa using h) (by simpa using h)]; rfl

theorem length_pmulPairs (c m : Nat) (as bs : List FieldElement) (ha : as.length = 2 * c) (hb : bs.length = 2 * c) :
    (pmulPairs m as bs).length = 2 * c := by
  induction c generalizing m as bs with
  | zero =>
    obtain rfl : as = [] := List.eq_nil_of_length_eq_zero (by simpa using ha)
    rfl
  | succ c ih =>
    match as, bs, ha, hb with
    | a0 :: a1 :: as, b0 :: b1 :: bs, ha, hb =>
      simp only [pmulPairs, List.length_cons] at ha hb ⊢
      rw [ih _ _ _ (by omega) (by omega)]; omega

/-- Pair `j` of the product of pairs (R143). -/
theorem getD_pmulPairs (c m : Nat) (as bs : List FieldElement) (ha : as.length = 2 * c) (hb : bs.length = 2 * c)
    (j : Nat) (h : j < c) :
    (pmulPairs m as bs).getD (2 * j) 0 = zadd (zmul (as.getD (2 * j) 0) (bs.getD (2 * j) 0))
      (zmul (gamma (m + j)) (zmul (as.getD (2 * j + 1) 0) (bs.getD (2 * j + 1) 0))) ∧
    (pmulPairs m as bs).getD (2 * j + 1) 0 = zadd (zmul (as.getD (2 * j) 0) (bs.getD (2 * j + 1) 0))
      (zmul (as.getD (2 * j + 1) 0) (bs.getD (2 * j) 0)) := by
  induction c generalizing m as bs j with
  | zero => omega
  | succ c ih =>
    match as, bs, ha, hb with
    | a0 :: a1 :: as, b0 :: b1 :: bs, ha, hb =>
      cases j with
      | zero => exact ⟨rfl, rfl⟩
      | succ j =>
        simp only [List.length_cons] at ha hb
        have := ih (m + 1) as bs (by omega) (by omega) j (by omega)
        rw [show m + 1 + j = m + (j + 1) by omega] at this
        exact this

/-- `pmul`, the low cell of pair `m`: `a0·b0 + GAMMA[m]·(a1·b1)` (R143). -/
theorem cell_pmul_even (a b : Coeffs) (m : Nat) (h : m < 128) :
    cell (pmul a b) (2 * m) = zadd (zmul (cell a (2 * m)) (cell b (2 * m)))
      (zmul (gamma m) (zmul (cell a (2 * m + 1)) (cell b (2 * m + 1)))) := by
  have := (getD_pmulPairs 128 0 a.toList b.toList (by simp) (by simp) m h).1
  rw [Nat.zero_add] at this
  rw [pmul, cell_ofValues _ (length_pmulPairs 128 0 _ _ (by simp) (by simp)), this]; rfl

/-- `pmul`, the high cell of pair `m`: `a0·b1 + a1·b0` (R143). -/
theorem cell_pmul_odd (a b : Coeffs) (m : Nat) (h : m < 128) :
    cell (pmul a b) (2 * m + 1) = zadd (zmul (cell a (2 * m)) (cell b (2 * m + 1)))
      (zmul (cell a (2 * m + 1)) (cell b (2 * m))) := by
  rw [pmul, cell_ofValues _ (length_pmulPairs 128 0 _ _ (by simp) (by simp)),
    (getD_pmulPairs 128 0 a.toList b.toList (by simp) (by simp) m h).2]; rfl

/-- A linear combination cell by cell: the addend plus the sum of the products (R145). -/
theorem toZ_cell_linearCombination (e : Coeffs) (terms : List (Coeffs × Coeffs)) (n : Nat) (h : n < 256) :
    toZ (cell (linearCombination e terms) n) =
      toZ (cell e n) + (terms.map fun t => toZ (cell (pmul t.1 t.2) n)).sum := by
  induction terms generalizing e with
  | nil => simp [linearCombination]
  | cons t terms ih =>
    have := ih (padd e (pmul t.1 t.2))
    rw [cell_padd _ _ _ h, toZ_zadd] at this
    rw [linearCombination, List.foldl_cons, ← linearCombination, this, List.map_cons, List.sum_cons]; ring

/-! The stages of the transforms. -/

theorem length_nttBlock (z : FieldElement) (len : Nat) (lo hi : List FieldElement) (h1 : lo.length = len)
    (h2 : hi.length = len) : (nttBlock z lo hi).length = 2 * len := by
  simp [nttBlock, h1, h2]; omega

theorem length_inttBlock (z : FieldElement) (len : Nat) (lo hi : List FieldElement) (h1 : lo.length = len)
    (h2 : hi.length = len) : (inttBlock z lo hi).length = 2 * len := by
  simp [inttBlock, h1, h2]; omega

/-- The two halves of the first block of a stage have `len` cells. -/
theorem length_halves (len blocks : Nat) (f : List FieldElement) (h : f.length = (blocks + 1) * (2 * len)) :
    (f.take len).length = len ∧ ((f.drop len).take len).length = len ∧ (f.drop (2 * len)).length = blocks * (2 * len) := by
  rw [Nat.add_one_mul blocks] at h
  refine ⟨by rw [List.length_take]; omega, by rw [List.length_take, List.length_drop]; omega, ?_⟩
  rw [List.length_drop]; omega

/-- A forward stage keeps the number of cells. -/
theorem length_nttBlocks (len blocks k : Nat) (f : List FieldElement) (h : f.length = blocks * (2 * len)) :
    (nttBlocks len blocks k f).length = blocks * (2 * len) := by
  induction blocks generalizing k f with
  | zero => simpa [nttBlocks] using h
  | succ b ih =>
    obtain ⟨h1, h2, h3⟩ := length_halves len b f h
    rw [nttBlocks, List.length_append, length_nttBlock _ len _ _ h1 h2, ih _ _ h3, Nat.add_one_mul b]; omega

/-- An inverse stage keeps the number of cells. -/
theorem length_inttBlocks (len blocks k : Nat) (f : List FieldElement) (h : f.length = blocks * (2 * len)) :
    (inttBlocks len blocks k f).length = blocks * (2 * len) := by
  induction blocks generalizing k f with
  | zero => simpa [inttBlocks] using h
  | succ b ih =>
    obtain ⟨h1, h2, h3⟩ := length_halves len b f h
    rw [inttBlocks, List.length_append, length_inttBlock _ len _ _ h1 h2, ih _ _ h3, Nat.add_one_mul b]; omega

theorem getD_take_lt (f : List FieldElement) (len r : Nat) (h : r < len) : (f.take len).getD r 0 = f.getD r 0 := by
  simp [List.getD_eq_getElem?_getD, h]

theorem getD_drop_take_lt (f : List FieldElement) (a len r : Nat) (h : r < len) :
    ((f.drop a).take len).getD r 0 = f.getD (a + r) 0 := by
  simp [List.getD_eq_getElem?_getD, h]

theorem getD_drop (f : List FieldElement) (a r : Nat) : (f.drop a).getD r 0 = f.getD (a + r) 0 := by
  simp [List.getD_eq_getElem?_getD]

/-- A forward stage, cell by cell: cells `r` and `r + len` of block `b` (R121). -/
theorem getD_nttBlocks (len blocks k : Nat) (f : List FieldElement) (h : f.length = blocks * (2 * len)) (b r : Nat)
    (hb : b < blocks) (hr : r < len) :
    (nttBlocks len blocks k f).getD (b * (2 * len) + r) 0 =
      zadd (f.getD (b * (2 * len) + r) 0) (zmul (zeta (k + b)) (f.getD (b * (2 * len) + r + len) 0)) ∧
    (nttBlocks len blocks k f).getD (b * (2 * len) + r + len) 0 =
      zsub (f.getD (b * (2 * len) + r) 0) (zmul (zeta (k + b)) (f.getD (b * (2 * len) + r + len) 0)) := by
  induction blocks generalizing k f b with
  | zero => omega
  | succ c ih =>
    obtain ⟨h1, h2, h3⟩ := length_halves len c f h
    have hl := length_nttBlock (zeta k) len _ _ h1 h2
    cases b with
    | zero =>
      simp only [Nat.zero_mul, Nat.zero_add, Nat.add_zero, nttBlocks]
      constructor
      · rw [List.getD_append _ _ _ _ (by omega), nttBlock, List.getD_append _ _ _ _ (by simp [h1, h2]; omega),
          getD_zipWith_lt _ _ _ _ _ 0 0 (by omega) (by omega), getD_take_lt _ _ _ hr, getD_drop_take_lt _ _ _ _ hr,
          Nat.add_comm len]
      · rw [List.getD_append _ _ _ _ (by omega), nttBlock, List.getD_append_right _ _ _ _ (by simp [h1, h2]),
          show r + len - (List.zipWith (fun a b => zadd a (zmul (zeta k) b)) (f.take len) ((f.drop len).take len)).length
            = r by simp [h1, h2],
          getD_zipWith_lt _ _ _ _ _ 0 0 (by omega) (by omega), getD_take_lt _ _ _ hr, getD_drop_take_lt _ _ _ _ hr,
          Nat.add_comm len]
    | succ b =>
      have := ih (k + 1) _ h3 b (by omega)
      simp only [getD_drop] at this
      have e := Nat.add_one_mul b (2 * len)
      rw [show 2 * len + (b * (2 * len) + r) = (b + 1) * (2 * len) + r by omega,
        show 2 * len + (b * (2 * len) + r + len) = (b + 1) * (2 * len) + r + len by omega, show k + 1 + b = k + (b + 1) by omega] at this
      rw [nttBlocks, List.getD_append_right _ _ _ _ (by omega), List.getD_append_right _ _ _ _ (by omega), hl,
        show (b + 1) * (2 * len) + r - 2 * len = b * (2 * len) + r by omega,
        show (b + 1) * (2 * len) + r + len - 2 * len = b * (2 * len) + r + len by omega]
      exact this

/-- An inverse stage, cell by cell: cells `r` and `r + len` of block `b` (R123). -/
theorem getD_inttBlocks (len blocks k : Nat) (f : List FieldElement) (h : f.length = blocks * (2 * len)) (b r : Nat)
    (hb : b < blocks) (hr : r < len) :
    (inttBlocks len blocks k f).getD (b * (2 * len) + r) 0 =
      zadd (f.getD (b * (2 * len) + r) 0) (f.getD (b * (2 * len) + r + len) 0) ∧
    (inttBlocks len blocks k f).getD (b * (2 * len) + r + len) 0 =
      zmul (zeta (k - b)) (zsub (f.getD (b * (2 * len) + r + len) 0) (f.getD (b * (2 * len) + r) 0)) := by
  induction blocks generalizing k f b with
  | zero => omega
  | succ c ih =>
    obtain ⟨h1, h2, h3⟩ := length_halves len c f h
    have hl := length_inttBlock (zeta k) len _ _ h1 h2
    cases b with
    | zero =>
      simp only [Nat.zero_mul, Nat.zero_add, Nat.sub_zero, inttBlocks]
      constructor
      · rw [List.getD_append _ _ _ _ (by omega), inttBlock, List.getD_append _ _ _ _ (by simp [h1, h2]; omega),
          getD_zipWith_lt _ _ _ _ _ 0 0 (by omega) (by omega), getD_take_lt _ _ _ hr, getD_drop_take_lt _ _ _ _ hr,
          Nat.add_comm len]
      · rw [List.getD_append _ _ _ _ (by omega), inttBlock, List.getD_append_right _ _ _ _ (by simp [h1, h2]),
          show r + len - (List.zipWith (fun a b => zadd a b) (f.take len) ((f.drop len).take len)).length
            = r by simp [h1, h2],
          getD_zipWith_lt _ _ _ _ _ 0 0 (by omega) (by omega), getD_drop_take_lt _ _ _ _ hr, getD_take_lt _ _ _ hr,
          Nat.add_comm len]
    | succ b =>
      have := ih (k - 1) _ h3 b (by omega)
      simp only [getD_drop] at this
      have e := Nat.add_one_mul b (2 * len)
      rw [show 2 * len + (b * (2 * len) + r) = (b + 1) * (2 * len) + r by omega,
        show 2 * len + (b * (2 * len) + r + len) = (b + 1) * (2 * len) + r + len by omega, show k - 1 - b = k - (b + 1) by omega] at this
      rw [inttBlocks, List.getD_append_right _ _ _ _ (by omega), List.getD_append_right _ _ _ _ (by omega), hl,
        show (b + 1) * (2 * len) + r - 2 * len = b * (2 * len) + r by omega,
        show (b + 1) * (2 * len) + r + len - 2 * len = b * (2 * len) + r + len by omega]
      exact this

end Sys2Proof.Machine
end

