-- ==== Sys2Proof/Laws/Step.lean ====
section
/-! SUPPORT. A next state of a command and of a step, by cases: the inversions that invariants and frames are proved from. -/
namespace Sys2Proof.Machine

/-- What the writes of a completed command leave alone, whatever the command: `PC` (which advances after them), the fault latch
(R34) and the environment (R38). -/
theorem Effect.keeps {i : Instr} {s u : State} (h : Effect i s u) : u.pc = s.pc ∧ u.err = s.err ∧ u.epc = s.epc ∧
    u.ecmd = s.ecmd ∧ u.pending = s.pending ∧ u.xof = s.xof := by
  cases h <;> exact ⟨rfl, rfl, rfl, rfl, rfl, rfl⟩

/-- A next state of a command: ignored (R225), a fault its row marks (R224, R234), or completed (R30). -/
theorem exec_next_cases {i : Instr} {s t : State} (h : exec i s = .next t) :
    (s.err ≠ none ∧ t = s) ∨
    (∃ c, s.err = none ∧ mayRaise i c = true ∧ t = faultEntry s c (encodeWord i)) ∨
    (∃ u, s.err = none ∧ Effect i s u ∧ t = { u with pc := u.pc + 1 }) := by
  have ha := exec_answers i s
  rw [h] at ha
  generalize ho : Host.Outcome.next t = o at ha
  cases ha with
  | ignored he => cases ho; exact .inl ⟨he, rfl⟩
  | raised c he hm => cases ho; exact .inr (.inl ⟨c, he, hm, rfl⟩)
  | completed u he hu => rw [complete_eq] at ho; cases ho; exact .inr (.inr ⟨u, he, hu, rfl⟩)
  | hung => cases ho

/-- A step with a delivered word that is a command: the command, with reset as the way out if it hangs (R70, R250). -/
theorem step_of_command {s : State} {w : Word} {rest : List HostMove} {i : Instr} (hp : s.pending = .command w :: rest)
    (hd : decodeWord w = .command i) : step s = resetIfHung (withPending s rest) (exec i (withPending s rest)) := by
  simp only [step, hp, deliver, hd]

/-- A step with a delivered word that is no command (R76). -/
theorem step_of_illegal {s : State} {w : Word} {rest : List HostMove} {why : Reject} (hp : s.pending = .command w :: rest)
    (hd : decodeWord w = .illegal why) : step s = illegalWord w (withPending s rest) := by
  simp only [step, hp, deliver, hd]

/-- A next state of a step: idle (R240), reset (R250), an illegal word's fault (R76), an ignored word (R225), or a command's
next state. -/
theorem step_next_cases {s t : State} (h : step s = .next t) :
    t = s ∨ (∃ rest, t = hostReset s rest) ∨
    (∃ rest w, s.err = none ∧ t = faultEntry (withPending s rest) .illegal w) ∨
    (∃ rest, s.err ≠ none ∧ t = withPending s rest) ∨
    (∃ rest i, exec i (withPending s rest) = .next t) := by
  cases hp : s.pending with
  | nil => simp only [step, hp, idle] at h; cases h; exact .inl rfl
  | cons m rest =>
    cases m with
    | reset => simp only [step, hp] at h; cases h; exact .inr (.inl ⟨rest, rfl⟩)
    | command w =>
      cases hd : decodeWord w with
      | illegal why =>
        rw [step_of_illegal hp hd, illegalWord] at h
        split at h
        · next he => cases h; exact .inr (.inr (.inr (.inl ⟨rest, by simpa [Option.isSome_iff_ne_none] using he, rfl⟩)))
        · next he => cases h; exact .inr (.inr (.inl ⟨rest, w, by simpa using he, rfl⟩))
      | command i =>
        rw [step_of_command hp hd] at h
        cases hx : exec i (withPending s rest) with
        | next u => rw [hx] at h; cases h; exact .inr (.inr (.inr (.inr ⟨rest, i, hx⟩)))
        | refused r => rw [hx] at h; cases h
        | fault f =>
          cases f
          rw [hx, resetIfHung] at h
          split at h
          · cases h; exact .inr (.inl ⟨_, rfl⟩)
          · cases h

end Sys2Proof.Machine
end

