-- ==== Sys2Proof/Laws/Run.lean ====
section
/-! SUPPORT. Runs (70_reset_and_hazards.md R256): the states a run passes through, and what the step with its next word can do. -/
namespace Sys2Proof.Machine

@[simp] theorem afterSteps_zero (s : State) : afterSteps 0 s = some s := rfl

theorem afterSteps_succ_next {s t : State} (n : Nat) (h : step s = .next t) : afterSteps (n + 1) s = afterSteps n t := by
  simp [afterSteps, h]

/-- `n` steps and then `k` steps. -/
theorem afterSteps_add {s u : State} {n : Nat} (k : Nat) (h : afterSteps n s = some u) :
    afterSteps (n + k) s = afterSteps k u := by
  induction n generalizing s with
  | zero => cases h; rw [Nat.zero_add]
  | succ n ih =>
    rw [Nat.succ_add]
    rw [afterSteps] at h ⊢
    split at h
    · exact ih h
    · cases h

/-- One step more. -/
theorem afterSteps_snoc {s u v : State} {n : Nat} (h : afterSteps n s = some u) (hv : step u = .next v) :
    afterSteps (n + 1) s = some v := by
  rw [afterSteps_add 1 h, afterSteps_succ_next 0 hv, afterSteps_zero]

@[simp] theorem issued_nil : issued [] = [] := rfl

@[simp] theorem issued_cons (w : Word) (ws : List Word) : issued (w :: ws) = .command w :: issued ws := rfl

/-- The host of a run never asserts reset. -/
theorem issued_ne_reset (ws : List Word) (more : List HostMove) : issued ws ≠ .reset :: more := by
  cases ws <;> simp

/-- Everything the step with the next word of a run can do: complete a command, take a fault (with the delivered word, or the
encoding of its command, in ECMD), or hang in `SAMPLEU`. -/
theorem step_issued {u : State} {w : Word} {ws : List Word} (he : u.err = none) (hp : u.pending = issued (w :: ws)) :
    (∃ v, step u = .next v ∧ v.err = none ∧ v.pc = u.pc + 1 ∧ v.pending = issued ws ∧ v.xof = u.xof) ∨
    (∃ c x, step u = .next (faultEntry (withPending u (issued ws)) c x) ∧
      (x = w ∨ ∃ i, decodeWord w = .command i ∧ x = encodeWord i)) ∨
    (∃ pd, decodeWord w = .command (.sampleu pd) ∧ step u = .fault .samplerHung) := by
  rw [issued_cons] at hp
  cases hd : decodeWord w with
  | illegal why =>
    refine .inr (.inl ⟨.illegal, w, ?_, .inl rfl⟩)
    rw [step_of_illegal hp hd, illegalWord]
    simp [withPending, he]
  | command i =>
    rw [step_of_command hp hd]
    have ha := exec_answers i (withPending u (issued ws))
    generalize exec i (withPending u (issued ws)) = o at ha
    cases ha with
    | ignored h => exact absurd he h
    | raised c _ _ => exact .inr (.inl ⟨c, _, rfl, .inr ⟨i, rfl, rfl⟩⟩)
    | completed t _ ht =>
      obtain ⟨h1, h2, -, -, h5, h6⟩ := ht.keeps
      exact .inl ⟨_, rfl, h2.trans he, congrArg (· + 1) h1, h5, h6⟩
    | hung pd _ hi _ _ =>
      refine .inr (.inr ⟨pd, by rw [hi], ?_⟩)
      rw [resetIfHung]
      split
      · next h => exact absurd h (issued_ne_reset ws _)
      · rfl

/-- Where a run stands after its first `n` commands have completed. -/
theorem completesFirst_keeps {prog : List Word} {s u : State} {n : Nat} (he : s.err = none) (hp : s.pending = issued prog)
    (hn : n ≤ prog.length) (h : CompletesFirst s n u) :
    u.err = none ∧ u.pending = issued (prog.drop n) ∧ u.pc = s.pc + BitVec.ofNat 32 n ∧ u.xof = s.xof := by
  induction n generalizing u with
  | zero => cases h.1; exact ⟨he, hp, by simp, rfl⟩
  | succ n ih =>
    obtain ⟨x, v, hx, hv, -, hve, hpc⟩ := h.2 n (Nat.lt_succ_self n)
    obtain ⟨h1, h2, h3, h4⟩ := ih (Nat.le_of_succ_le hn) ⟨hx, fun m hm => h.2 m (Nat.lt_succ_of_lt hm)⟩
    have hu : u = v := Option.some.inj (h.1.symm.trans (afterSteps_snoc hx hv))
    subst hu
    rw [List.drop_eq_getElem_cons hn] at h2
    rcases step_issued h1 h2 with ⟨v, h, -, -, hp', hx'⟩ | ⟨c, _, h, -⟩ | ⟨_, -, h⟩
    · cases hv.symm.trans h
      refine ⟨hve, hp', ?_, hx'.trans h4⟩
      rw [hpc, h3, BitVec.add_assoc]; congr 1
      exact (BitVec.ofNat_add n 1).symm
    · cases hv.symm.trans h; cases hve
    · cases hv.symm.trans h

end Sys2Proof.Machine
end

