-- ==== Sys2Proof/Laws/Sampler.lean ====
section
/-! SUPPORT. The rejection sampler as the first candidates accepted (43_samplers.md R164 to R166): what `sampleFrom` answers, in
terms of the number of chunks read, and what has been accepted after each. -/
namespace Sys2Proof.Machine

theorem full_eq_true (a : Sampling) : a.full = true ↔ 256 ≤ a.out.length := by simp [Sampling.full]

/-- `n` turns of the loop, without its test. -/
def chunksRead (stream : Nat → Byte) (a : Sampling) (n : Nat) : Sampling := (readChunk stream)^[n] a

@[simp] theorem chunksRead_zero (stream : Nat → Byte) (a : Sampling) : chunksRead stream a 0 = a := rfl

theorem chunksRead_succ (stream : Nat → Byte) (a : Sampling) (n : Nat) :
    chunksRead stream a (n + 1) = chunksRead stream (readChunk stream a) n := rfl

theorem chunksRead_succ' (stream : Nat → Byte) (a : Sampling) (n : Nat) :
    chunksRead stream a (n + 1) = readChunk stream (chunksRead stream a n) := Function.iterate_succ_apply' _ _ _

/-- `b` is the sample the loop ends with from `a`: it is full after some number of turns and was not before. -/
def EndsWith (stream : Nat → Byte) (a b : Sampling) : Prop :=
  ∃ m, b = chunksRead stream a m ∧ b.full = true ∧ ∀ l, l < m → (chunksRead stream a l).full = false

theorem EndsWith.of_succ {stream : Nat → Byte} {a b : Sampling} (ha : a.full = false)
    (h : EndsWith stream (readChunk stream a) b) : EndsWith stream a b := by
  obtain ⟨m, hm, hf, hl⟩ := h
  refine ⟨m + 1, hm, hf, fun l hlm => ?_⟩
  cases l with
  | zero => exact ha
  | succ l => exact hl l (by omega)

/-- A sample the loop answers is one it ends with. -/
theorem endsWith_of_sampleLoop (stream : Nat → Byte) (a b : Sampling) (h : sampleLoop stream a = some b) :
    EndsWith stream a b := by
  refine sampleLoop.partial_correctness stream (EndsWith stream) (fun loop ih a b hab => ?_) a b h
  split at hab
  · next hf => cases hab; exact ⟨0, rfl, hf, fun l hl => absurd hl (by omega)⟩
  · next hf => exact (ih _ _ hab).of_succ (by simpa using hf)

/-- The loop answers, from a start it ends from. -/
theorem sampleLoop_of_full (stream : Nat → Byte) (m : Nat) (a : Sampling) (h : (chunksRead stream a m).full = true) :
    ∃ b, sampleLoop stream a = some b := by
  induction m generalizing a with
  | zero => exact ⟨a, by rw [sampleLoop]; simp_all⟩
  | succ m ih =>
    rw [sampleLoop]
    split
    · exact ⟨a, rfl⟩
    · exact ih _ h

/-- The first phase stops at a full sample, or after its `n` turns. -/
theorem readChunks_eq (stream : Nat → Byte) (n : Nat) (a : Sampling) :
    ∃ m, readChunks stream n a = chunksRead stream a m ∧ ∀ l, l < m → (chunksRead stream a l).full = false := by
  induction n generalizing a with
  | zero => exact ⟨0, rfl, fun l hl => absurd hl (by omega)⟩
  | succ n ih =>
    rw [readChunks]
    split
    · exact ⟨0, rfl, fun l hl => absurd hl (by omega)⟩
    · next hf =>
      obtain ⟨m, hm, hl⟩ := ih (readChunk stream a)
      refine ⟨m + 1, hm, fun l hlm => ?_⟩
      cases l with
      | zero => simpa using hf
      | succ l => exact hl l (by omega)

theorem chunksRead_add (stream : Nat → Byte) (a : Sampling) (m n : Nat) :
    chunksRead stream a (m + n) = chunksRead stream (chunksRead stream a m) n := by
  rw [chunksRead, chunksRead, chunksRead, Nat.add_comm, Function.iterate_add_apply]

/-- What `sampleFrom` answers, whatever the length `n` of its first phase (R164). -/
theorem sampleFrom_eq_some (stream : Nat → Byte) (n : Nat) (a b : Sampling) (h : sampleFrom stream n a = some b) :
    EndsWith stream a b := by
  obtain ⟨m, hm, hl⟩ := readChunks_eq stream n a
  unfold sampleFrom at h
  split at h
  · next hf => cases h; exact ⟨m, hm, hf, hl⟩
  · obtain ⟨m', hb, hf, hl'⟩ := endsWith_of_sampleLoop _ _ _ h
    rw [hm] at hb hl'
    refine ⟨m + m', by rw [chunksRead_add, hb], hf, fun l hlm => ?_⟩
    by_cases hlt : l < m
    · exact hl l hlt
    · have := hl' (l - m) (by omega)
      rwa [← chunksRead_add, show m + (l - m) = l by omega] at this

/-- `sampleFrom` answers none exactly when no number of turns fills the sample (R166). -/
theorem sampleFrom_eq_none (stream : Nat → Byte) (n : Nat) (a : Sampling) :
    sampleFrom stream n a = none ↔ ∀ m, (chunksRead stream a m).full = false := by
  constructor
  · intro h m
    obtain ⟨m', hm', hl⟩ := readChunks_eq stream n a
    by_contra hne
    have hf : (chunksRead stream a m).full = true := by simpa using hne
    have hle : m' ≤ m := by
      by_contra hlt
      exact absurd (hl m (by omega)) (by simp [hf])
    obtain ⟨b, hb⟩ := sampleLoop_of_full stream (m - m') (chunksRead stream a m')
      (by rw [← chunksRead_add, show m' + (m - m') = m by omega]; exact hf)
    unfold sampleFrom at h
    rw [hm'] at h
    split at h <;> simp_all
  · intro h
    cases hs : sampleFrom stream n a with
    | none => rfl
    | some b =>
      obtain ⟨m, hm, hf, _⟩ := sampleFrom_eq_some stream n a b hs
      rw [hm, h m] at hf; cases hf

@[simp] theorem chunksRead_pos (stream : Nat → Byte) (a : Sampling) (m : Nat) :
    (chunksRead stream a m).pos = a.pos + 3 * m := by
  induction m with
  | zero => rfl
  | succ m ih => rw [chunksRead_succ', readChunk, ih]; ring

/-- Accepting keeps the first 256 values below 3329. -/
theorem accept_take (out : List FieldElement) (vs : List Nat) (d : Nat) (h : out.reverse.map Fin.val = vs.take 256) :
    (accept out d).reverse.map Fin.val = (vs ++ [d].filter fun d => decide (d < 3329)).take 256 := by
  have hlen : out.length = min 256 vs.length := by
    rw [← List.length_reverse, ← List.length_map (f := Fin.val), h, List.length_take]
  unfold accept
  split_ifs with hd hl
  · have hv : vs.length < 256 := by omega
    rw [List.reverse_cons, List.map_append, h, List.take_of_length_le (by omega : vs.length ≤ 256)]
    simp only [List.filter_cons, hd, decide_true, if_true, List.filter_nil, List.map_cons, List.map_nil]
    rw [List.take_of_length_le (by simp; omega)]
  · rw [h, List.take_append_of_le_length (by omega)]
  · simp [hd, h]

theorem acceptable_zero (s : State) : acceptable s 0 = [] := rfl

theorem acceptable_succ (s : State) (m : Nat) : acceptable s (m + 1) =
    (acceptable s m ++ [candidate s (2 * m)].filter fun d => decide (d < 3329)) ++
      [candidate s (2 * m + 1)].filter fun d => decide (d < 3329) := by
  rw [acceptable, show 2 * (m + 1) = 2 * m + 1 + 1 by ring, List.range_succ, List.range_succ]
  simp only [List.map_append, List.filter_append, List.map_cons, List.map_nil, acceptable]

/-- More chunks only append acceptable candidates. -/
theorem acceptable_length_mono (s : State) {m n : Nat} (h : m ≤ n) :
    (acceptable s m).length ≤ (acceptable s n).length := by
  induction n, h using Nat.le_induction with
  | base => rfl
  | succ n _ ih => rw [acceptable_succ, List.append_assoc, List.length_append]; omega

/-- After `m` chunks of the open stream the values accepted are the first 256 acceptable candidates (R164). -/
theorem chunksRead_out (s : State) (m : Nat) :
    (chunksRead (openBytes s) ⟨[], s.xpos⟩ m).out.reverse.map Fin.val = (acceptable s m).take 256 := by
  induction m with
  | zero => rfl
  | succ m ih =>
    have h0 : candidate s (2 * m) = candidate1 (openBytes s (s.xpos + 3 * m)) (openBytes s (s.xpos + 3 * m + 1)) := by
      simp [candidate, candidate1]
    have h1 : candidate s (2 * m + 1) =
        candidate2 (openBytes s (s.xpos + 3 * m + 1)) (openBytes s (s.xpos + 3 * m + 2)) := by
      simp only [candidate, candidate2]
      rw [if_neg (by omega), show (2 * m + 1) / 2 = m by omega]
    rw [chunksRead_succ', readChunk, acceptable_succ, h0, h1, chunksRead_pos]
    exact accept_take _ _ _ (accept_take _ _ _ ih)

theorem chunksRead_full (s : State) (m : Nat) :
    (chunksRead (openBytes s) ⟨[], s.xpos⟩ m).full = decide (256 ≤ (acceptable s m).length) := by
  have h := congrArg List.length (chunksRead_out s m)
  rw [List.length_map, List.length_reverse, List.length_take] at h
  rw [Sampling.full, h]
  congr 1
  rw [eq_iff_iff]; omega

/-- The sample of a fresh start has 256 values. -/
theorem length_uniformSample (s : State) (a : Sampling) (h : uniformSample s = some a) : a.out.length = 256 := by
  obtain ⟨m, rfl, hf, _⟩ := sampleFrom_eq_some _ _ _ _ h
  have hl := congrArg List.length (chunksRead_out s m)
  rw [List.length_map, List.length_reverse, List.length_take] at hl
  rw [full_eq_true] at hf; omega

/-- `SAMPLEU`'s sample: the first 256 acceptable candidates, in the least number of chunks that holds them (R164, R165). -/
theorem uniformSample_eq_some (s : State) (a : Sampling) (h : uniformSample s = some a) :
    ∃ m, a.pos = s.xpos + 3 * m ∧ a.out.reverse.map Fin.val = (acceptable s m).take 256 ∧ 256 ≤ (acceptable s m).length ∧
      ∀ l, l < m → (acceptable s l).length < 256 := by
  obtain ⟨m, rfl, hf, hl⟩ := sampleFrom_eq_some _ _ _ _ h
  refine ⟨m, chunksRead_pos _ _ _, chunksRead_out s m, ?_, fun l hlm => ?_⟩
  · rw [chunksRead_full] at hf; simpa using hf
  · have := hl l hlm; rw [chunksRead_full] at this; simpa using this

/-- There is no sample exactly when the stream is starved (R166). -/
theorem uniformSample_eq_none (s : State) : uniformSample s = none ↔ ∀ m, (acceptable s m).length < 256 := by
  rw [uniformSample, sampleFrom_eq_none]
  simp [chunksRead_full]

end Sys2Proof.Machine
end

