-- ==== Sys2Proof/Tests/Slice0.lean ====
section
/-! SUPPORT. Tests: the encodings of 30_encoding.md written out bit by bit, one ill-formed command for each check of WellFormed,
single steps on the vectors of 95_test_vectors.md, and for each statement with hypotheses a state and operands that meet
them. -/
set_option Elab.async false -- one kernel evaluation at a time

namespace Sys2Proof.Machine.Tests

/-! ### Small states -/

/-- The reset state with some scalar registers written. -/
def scalars (l : List (RegNo × FieldElement)) : State := l.foldl (fun s x => writeScalar s x.1 x.2) State.reset

/-- The polynomial that begins with the given coefficients and is 0 after them. -/
def poly (l : List FieldElement) : Coeffs := ofValues (l ++ List.replicate (256 - l.length) 0)

/-- The polynomial whose 256 coefficients all repeat the given ones. -/
def repeated (l : List FieldElement) : Coeffs := ofValues ((List.replicate 256 l).flatten.take 256)

/-- The reset state with some polynomial registers written. -/
def polys (l : List (RegNo × Coeffs × Tag)) : State := l.foldl (fun s x => writePoly s x.1 x.2.1 x.2.2) State.reset

/-- The reset state with `n` times the given bytes in BUF and `BLEN` counting them. -/
def buffer (n : Nat) (l : List Byte) : State :=
  setBlen (memWriteList State.reset 0 (List.replicate n l).flatten) (n * l.length)

/-- The reset state with stream `(0, 0)` open, which answers `first` and then `cycle` over and over. -/
def stream (first cycle : List Byte) : State := { openStream State.reset 0 0 with xof := [⟨0, 0, first, cycle⟩] }

/-- Every polynomial register written with 0, tagged `T`. -/
def allTq : State := { State.reset with preg := Vector.replicate 16 (repeated [0]), ptag := Vector.replicate 16 .tq }

/-- A state with a fault latched. -/
def faulted : State := faultEntry State.reset .illegal 0

/-- What a test reads from the state a command leaves; `none` if it leaves none. -/
def after {α : Type} (o : Outcome) (f : State → α) : Option α :=
  match o with
  | .next t => some (f t)
  | _ => none

/-- The cause a command raises. -/
def cause (i : Instr) (s : State) : Option (Option Cause) := after (exec i s) fun t => t.err

/-- The first coefficients of a register, the last two, and its tag. -/
def glance (r : RegNo) (n : Nat) (t : State) : List FieldElement × List FieldElement × Tag :=
  (t.preg[r].toList.take n, t.preg[r].toList.drop 254, t.ptag[r])

/-! ### Decoding, each word written out from R72 and R74: opcode, rd, ra, rb, rc, low byte -/

theorem test_decode_zli : decodeWord 0b00000001_0001_0000_0000_1101_00000000 = .command (.zli 1 3328) := by decide
theorem test_decode_zadd : decodeWord 0b00000010_0011_0001_0010_0000_00000000 = .command (.zadd 3 1 2) := by decide
theorem test_decode_zsub : decodeWord 0b00000011_0011_0001_0010_0000_00000000 = .command (.zsub 3 1 2) := by decide
theorem test_decode_zmul : decodeWord 0b00000100_1111_0001_0010_0000_00000000 = .command (.zmul 15 1 2) := by decide
theorem test_decode_zpow : decodeWord 0b00000101_0010_0001_0000_1111_11111111 = .command (.zpow 2 1 4095) := by decide
theorem test_decode_zldz : decodeWord 0b00000110_0011_0000_0000_0000_0_1111111 = .command (.zldz 3 127) := by decide
theorem test_decode_zldg : decodeWord 0b00000111_0100_0000_0000_0000_0_1000000 = .command (.zldg 4 64) := by decide
theorem test_decode_ntt : decodeWord 0b00010000_0001_0010_0000_0000_00000000 = .command (.ntt 1 2) := by decide
theorem test_decode_intt : decodeWord 0b00010001_0001_0010_0000_0000_00000000 = .command (.intt 1 2) := by decide
theorem test_decode_padd : decodeWord 0b00100000_0010_0000_0001_0000_00000000 = .command (.padd 2 0 1) := by decide
theorem test_decode_psub : decodeWord 0b00100001_0010_0000_0001_0000_00000000 = .command (.psub 2 0 1) := by decide
theorem test_decode_pmul : decodeWord 0b00100010_0010_0000_0001_0000_00000000 = .command (.pmul 2 0 1) := by decide
theorem test_decode_plc : decodeWord 0b00100011_1100_0100_1000_0001_00000011 = .command (.plc 12 4 8 1 3) := by decide
theorem test_decode_xopen : decodeWord 0b00110000_00000000_00000010_00000001 = .command (.xopen 2 1) := by decide
theorem test_decode_sampleu : decodeWord 0b00110001_0101_0000_0000_0000_00000000 = .command (.sampleu 5) := by decide
theorem test_decode_samplecbd : decodeWord 0b00110010_0100_0000_0000_0000_0000_0110 = .command (.samplecbd 4 6) := by decide
theorem test_decode_bclr : decodeWord 0b01000000_0000_0000_0000_0000_00000000 = .command .bclr := by decide
theorem test_decode_bput : decodeWord 0b01000001_0000_0000_0000_0000_10100101 = .command (.bput 0xA5) := by decide
theorem test_decode_encode : decodeWord 0b01000010_0000_0011_0000_0000_0000_1100 = .command (.encode 3 12) := by decide
theorem test_decode_decodeR : decodeWord 0b01000011_0111_0000_0000_0000_0000_1100 = .command (.decodeR 7 12) := by decide
theorem test_decode_decodeT : decodeWord 0b01000011_0111_0000_0000_0000_0001_1100 = .command (.decodeT 7 12) := by decide

/-- V30.1 to V30.9, and the unassigned opcodes of V30.3. -/
theorem test_illegal_words :
    ([0x00000000, 0xFFFFFFFF, 0x08000000, 0x12000000, 0x24000000, 0x33000000, 0x44000000, 0x40000001, 0x02312001,
      0x4213000C, 0x43000020, 0x30010000, 0x06100080].all fun w => (decodeWord w).instr?.isNone) = true := by decide

/-- V30.10, V30.11: words that decode and are refused by value. -/
theorem test_words_refused_by_value :
    decodeWord 0x01100D01 = .command (.zli 1 3329) ∧ decodeWord 0x4203000D = .command (.encode 3 13) := by decide

theorem test_decodeTableWord : decodeTableWord 32 0x23C48003 = some (.plc 12 4 8 0 3) := by decide

theorem test_withFetchWord :
    after (step (State.reset.withFetchWord 32 0x01100D00)) (fun t => (t.sreg[1], t.sval[1], t.pc, t.pending)) =
      some (3328, true, 1, []) := by decide

/-! ### Well-formed commands: one ill-formed command for each check, and the values next to it that pass -/

theorem test_wf_zli : WellFormed (.zli 1 3329) = false ∧ WellFormed (.zli 1 3328) = true := by decide
theorem test_wf_rank : WellFormed (.plc 0 1 2 3 5) = false ∧ WellFormed (.plc 0 1 2 3 1) = false ∧
    WellFormed (.plc 0 1 2 3 4) = true := by decide
theorem test_wf_window_a : WellFormed (.plc 0 1 14 3 3) = false ∧ WellFormed (.plc 0 1 14 3 2) = true := by decide
theorem test_wf_window_b : WellFormed (.plc 0 1 2 13 4) = false ∧ WellFormed (.plc 0 1 2 12 4) = true := by decide
theorem test_wf_eta : WellFormed (.samplecbd 0 0) = false ∧ WellFormed (.samplecbd 0 7) = false ∧
    WellFormed (.samplecbd 0 6) = true := by decide
theorem test_wf_encode : WellFormed (.encode 0 0) = false ∧ WellFormed (.encode 0 13) = false ∧
    WellFormed (.encode 0 12) = true := by decide
theorem test_wf_decodeR : WellFormed (.decodeR 0 0) = false ∧ WellFormed (.decodeR 0 13) = false := by decide
theorem test_wf_decodeT : WellFormed (.decodeT 0 0) = false ∧ WellFormed (.decodeT 0 13) = false := by decide

/-! ### Single commands on the vectors of 95_test_vectors.md -/

/-- V40.1. -/
theorem test_zli : after (exec (.zli 1 3328) State.reset) (fun t => (t.sreg[1], t.sval[1], t.pc)) = some (3328, true, 1) := by
  decide
/-- V40.3. -/
theorem test_zadd_wraps : after (exec (.zadd 3 1 2) (scalars [(1, 3328), (2, 3328)])) (fun t => t.sreg[3]) = some 3327 := by
  decide
/-- V40.5, V40.6. -/
theorem test_zsub_wraps : after (exec (.zsub 3 1 2) (scalars [(1, 0), (2, 1)])) (fun t => t.sreg[3]) = some 3328 ∧
    after (exec (.zsub 3 1 2) (scalars [(1, 0), (2, 3328)])) (fun t => t.sreg[3]) = some 1 := by decide
/-- V40.7, the destination a source; V40.8. -/
theorem test_zmul : after (exec (.zmul 1 1 2) (scalars [(1, 3328), (2, 3328)])) (fun t => t.sreg[1]) = some 1 ∧
    after (exec (.zmul 3 1 2) (scalars [(1, 128), (2, 3303)])) (fun t => t.sreg[3]) = some 1 := by decide
/-- V40.10, V40.11. -/
theorem test_zpow : after (exec (.zpow 2 1 0) (scalars [(1, 0)])) (fun t => t.sreg[2]) = some 1 ∧
    after (exec (.zpow 2 1 3327) (scalars [(1, 5)])) (fun t => t.sreg[2]) = some 666 ∧
    after (exec (.zpow 2 1 4095) (scalars [(1, 5)])) (fun t => t.sreg[2]) = some 1352 := by decide
/-- V40.15. -/
theorem test_zldz : after (exec (.zldz 3 64) State.reset) (fun t => t.sreg[3]) = some 17 ∧
    after (exec (.zldz 3 127) State.reset) (fun t => t.sreg[3]) = some 2154 := by decide
/-- V40.16. -/
theorem test_zldg : after (exec (.zldg 4 1) State.reset) (fun t => t.sreg[4]) = some 3312 ∧
    after (exec (.zldg 4 127) State.reset) (fun t => t.sreg[4]) = some 1175 := by decide
/-- V41.3: the transform of `X^2`. -/
theorem test_ntt : after (exec (.ntt 1 0) (polys [(0, poly [0, 0, 1], .rq)])) (glance 1 8) =
    some ([17, 0, 3312, 0, 2761, 0, 568, 0], [1175, 0], .tq) := by decide +kernel
/-- V41.7. -/
theorem test_intt : after (exec (.intt 1 0) (polys [(0, repeated [1], .tq)])) (glance 1 4) =
    some ([1, 1, 0, 0], [0, 0], .rq) := by decide +kernel
/-- V42.1. -/
theorem test_padd : after (exec (.padd 2 0 1) (polys [(0, poly [1, 2], .rq), (1, poly [3328, 3328], .rq)])) (glance 2 3) =
    some ([0, 1, 0], [0, 0], .rq) := by decide +kernel
/-- V42.2. -/
theorem test_psub : after (exec (.psub 2 0 1) (polys [(0, poly [0, 5], .rq), (1, poly [1, 2], .rq)])) (glance 2 3) =
    some ([3328, 3, 0], [0, 0], .rq) := by decide +kernel
/-- V42.3. -/
theorem test_pmul : after (exec (.pmul 2 0 1) (polys [(0, repeated [0, 1], .tq), (1, repeated [0, 1], .tq)])) (glance 2 8) =
    some ([17, 0, 3312, 0, 2761, 0, 568, 0], [1175, 0], .tq) := by decide +kernel
/-- V42.4. -/
theorem test_plc : after (exec (.plc 12 4 8 0 2) (polys [(4, poly [], .tq), (8, repeated [0, 1], .tq),
      (9, repeated [0, 1], .tq), (0, repeated [0, 1], .tq), (1, repeated [0, 1], .tq)])) (glance 12 8) =
    some ([34, 0, 3295, 0, 2193, 0, 1136, 0], [2350, 0], .tq) := by decide +kernel
/-- V42.9, in the order of the checks: `SHAPE`, `ILLEGAL`, `EMPTY`, `DOMAIN`. -/
theorem test_plc_checks : cause (.plc 0 1 14 3 5) allTq = some (some .shape) ∧
    cause (.plc 0 1 14 3 3) allTq = some (some .illegal) ∧
    cause (.plc 0 1 2 6 4) { allTq with ptag := (allTq.ptag.set 5 .rq).set 4 .empty } = some (some .empty) ∧
    cause (.plc 0 1 2 6 4) { allTq with ptag := allTq.ptag.set 5 .rq } = some (some .domain) := by decide +kernel
/-- V30.12. -/
theorem test_xopen : after (exec (.xopen 255 254) State.reset) (fun t => (streamI t, streamJ t, t.xpos, t.xvalid)) =
    some (255, 254, 0, true) := by decide
/-- V43.4. -/
theorem test_sampleu : after (exec (.sampleu 0) (stream [0x00, 0x1D, 0xD0] [0x05, 0x60, 0x00]))
    (fun t => (glance 0 5 t, t.xpos)) = some (([3328, 5, 6, 5, 6], [6, 5], .tq), 387) := by decide +kernel
/-- V43.4b. -/
theorem test_sampleu_rejects : after (exec (.sampleu 0) (stream [0xFF, 0x0F, 0x00] [0x02, 0x30, 0x00]))
    (fun t => (glance 0 5 t, t.xpos)) = some (([0, 2, 3, 2, 3], [3, 2], .tq), 387) := by decide +kernel
/-- V43.7, `η = 6`: the extremes. -/
theorem test_samplecbd : after (exec (.samplecbd 0 6) (buffer 128 [0x3F, 0x00, 0xFC])) (glance 0 4) =
    some ([6, 3323, 6, 3323], [6, 3323], .rq) := by decide +kernel
/-- V43.7, `η = 3`. -/
theorem test_samplecbd_eta3 : after (exec (.samplecbd 0 3) (buffer 64 [0x38, 0x00, 0x00])) (glance 0 4) =
    some ([3326, 0, 0, 0], [0, 0], .rq) := by decide +kernel
/-- V44.8. -/
theorem test_bput : after (exec (.bput 0xA5) State.reset) (fun t => (memRead t 0, t.blen)) = some (0xA5, 1) := by decide
/-- V44.8. -/
theorem test_bclr : after (exec .bclr (buffer 2 [7])) (fun t => (t.blen, t.pc)) = some (0, 1) := by decide
/-- V44.5, `d = 11`. -/
theorem test_encode : after (exec (.encode 0 11) (polys [(0, poly [2047, 0, 1], .rq)]))
    (fun t => ((List.range 6).map (memRead t), t.blen)) = some ([0xFF, 0x07, 0x40, 0, 0, 0], 352) := by decide +kernel
/-- V44.6, `d = 12`. -/
theorem test_encode12 : after (exec (.encode 0 12) (polys [(0, poly [3328, 1], .tq)]))
    (fun t => ((List.range 3).map (memRead t), t.blen)) = some ([0x00, 0x1D, 0x00], 384) := by decide +kernel
/-- V44.7. -/
theorem test_decodeR : after (exec (.decodeR 0 3) (buffer 32 [0x88, 0xC6, 0xFA])) (glance 0 9) =
    some ([0, 1, 2, 3, 4, 5, 6, 7, 0], [6, 7], .rq) := by decide +kernel
/-- V44.10: values of 3329 or more at `d = 12`, and none below. -/
theorem test_decodeT : cause (.decodeT 0 12) (buffer 384 [0xFF]) = some (some .range) ∧
    after (exec (.decodeT 0 11) (buffer 352 [0xFF])) (glance 0 2) = some ([2047, 2047], [2047, 2047], .tq) := by
  decide +kernel
/-- V60.2: nothing happens after a fault. -/
theorem test_fault_latch : after (exec (.zli 1 5) faulted) (fun t => (t.sval[1], t.pc, t.err)) =
    some (false, 0, some .illegal) := by decide

/-! ### For each statement with hypotheses, a state and operands that meet them (one line per clause, at its boundary) -/

/-- P6: stream `(0, 0)` answers `FF` for ever; the host's later moves are `moves`. -/
def starved (moves : List HostMove) : State := { stream [] [0xFF] with pending := moves }

/-- P6: every candidate is 4095, so none is acceptable. -/
theorem acceptable_starved (moves : List HostMove) (m : Nat) : (acceptable (starved moves) m).length < 256 := by
  have hb : ∀ n, openBytes (starved moves) n = 0xFF := by
    intro n
    have hf : findStream (starved moves).xof (streamI (starved moves)) (streamJ (starved moves)) =
        some ⟨0, 0, [], [0xFF]⟩ := by
      rw [show streamI (starved moves) = 0 from (by decide : BitVec.ofNat 8 (0 / 256) = (0 : Byte)),
        show streamJ (starved moves) = 0 from (by decide : BitVec.ofNat 8 0 = (0 : Byte))]
      rfl
    unfold openBytes xofByte
    rw [hf]
    simp [XofStream.byte, Nat.mod_one]
  have hc : ∀ n, candidate (starved moves) n = 4095 := by
    intro n
    unfold candidate
    rw [hb, hb, hb]
    split_ifs <;> decide
  have : acceptable (starved moves) m = [] := by simp [acceptable, hc]
  rw [this]; decide

theorem starved_hangs (moves : List HostMove) : exec (.sampleu 0) (starved moves) = .fault .samplerHung := by
  refine (command_runs (i := .sampleu 0) (s := starved moves) (checks := [(!(starved moves).xvalid, .empty)])
    (effect := finishSample 0 (starved moves) (uniformSample (starved moves))) rfl rfl).trans ?_
  rw [(uniformSample_eq_none _).2 (acceptable_starved moves)]; rfl

theorem hyp_HostResetIsTotal : ({ faulted with pending := [.reset] } : State).pending = [.reset] := rfl

theorem hyp_StepRunsTheDeliveredCommand : decodeWord 0x31000000 = .command (.sampleu 0) ∧
    decodeWord 0x40000000 = .command .bclr ∧ exec .bclr State.reset = .next { State.reset with pc := 1 } ∧
    (∀ rest, exec (.sampleu 0) (starved rest) = .fault .samplerHung) ∧
    ∀ more, ([] : List HostMove) ≠ .reset :: more :=
  ⟨by decide, by decide, rfl, starved_hangs, by simp⟩

theorem hyp_UnmatchedWordsRaiseIllegal : State.reset.err = none ∧ ∃ why, decodeWord 0 = .illegal why :=
  ⟨rfl, .unassignedOpcode, by decide⟩

theorem hyp_FaultedBlockIgnoresCommands : faulted.err ≠ none ∧
    ({ faulted with pending := [.command 0x40000000] } : State).pending = [.command 0x40000000] ∧
    step faulted = .next faulted ∧ (∀ rest, faulted.pending ≠ .reset :: rest) :=
  ⟨by decide, rfl, rfl, by simp [faulted, faultEntry, State.reset]⟩

theorem hyp_IdleBlockKeepsAllState : State.reset.pending = [] := rfl

theorem hyp_OnlyAStarvedSamplerHangs : (starved []).err = none ∧ (starved []).xvalid = true ∧
    (∀ m, (acceptable (starved []) m).length < 256) ∧ exec (.sampleu 0) (starved []) = .fault .samplerHung :=
  ⟨rfl, rfl, acceptable_starved [], starved_hangs []⟩

theorem hyp_ResetEndsAHungSampler : decodeWord 0x31000000 = .command (.sampleu 0) ∧
    (starved [.command 0x31000000, .reset]).pending = [.command 0x31000000, .reset] ∧
    (starved [.command 0x31000000]).pending = [.command 0x31000000] ∧ (starved []).err = none ∧
    (starved []).xvalid = true ∧ ∀ moves m, (acceptable (starved moves) m).length < 256 :=
  ⟨by decide, rfl, rfl, rfl, rfl, acceptable_starved⟩

theorem hyp_FaultsArePreciseAndWriteOnlyTheLatch : State.reset.err = none ∧
    exec (.zli 1 3329) State.reset = .next (faultEntry State.reset .range 0x01100D01) ∧
    (faultEntry State.reset .range 0x01100D01).err ≠ none := ⟨rfl, rfl, by decide⟩

/-- A completed command, at the wrap of `PC` too, and a faulting one. -/
theorem hyp_PcCountsCompletedCommands : exec .bclr State.reset = .next { State.reset with pc := 1 } ∧
    exec .bclr { State.reset with pc := 0xFFFFFFFF } = .next { State.reset with pc := 0 } ∧
    exec (.zadd 0 1 2) State.reset = .next (faultEntry State.reset .empty 0x02012000) := ⟨rfl, rfl, rfl⟩

theorem hyp_CommandsRaiseOnlyTheirMarkedCauses :
    exec (.plc 0 1 2 6 9) State.reset = .next (faultEntry State.reset .shape 0x23012609) := rfl

theorem hyp_ImmediateFaultsDependOnTheWordAlone : WellFormed (.zli 0 4095) = false ∧ WellFormed (.plc 0 1 2 3 255) = false ∧
    WellFormed (.plc 0 1 15 0 2) = false ∧ WellFormed (.samplecbd 0 15) = false ∧ WellFormed (.decodeT 0 15) = false := by
  decide

/-- Each cause, and an open stream. -/
theorem hyp_StatusReflectsTheState : State.reset.err = none ∧
    (∀ c ∈ [Cause.illegal, .range, .length, .shape, .domain, .empty], (faultEntry State.reset c 0).err = some c) ∧
    (openStream State.reset 255 254).xvalid = true ∧ (streamI (openStream State.reset 255 254)).toNat = 255 := by decide

theorem hyp_StatusReflectsTheState_reads : (scalars [(15, 3328)]).sval[(15 : RegNo)] = true ∧ 383 < (buffer 384 [0]).blen.toNat ∧
    allTq.err = none ∧ allTq.ptag[(0 : RegNo)] ≠ .empty := by decide +kernel

/-- The reset state with the words of a program for the host to issue. -/
def launched (prog : List Word) : State := { State.reset with pending := issued prog }

theorem launch_launched (prog : List Word) : Launch prog (launched prog) :=
  ⟨⟨Nat.zero_le _, fun _ => ⟨rfl, rfl⟩, fun h => absurd h (by simp [launched, State.reset]), rfl, rfl⟩, rfl, rfl⟩

theorem launch_starved (prog : List Word) : Launch prog (starved (issued prog)) :=
  ⟨⟨Nat.zero_le _, fun _ => ⟨rfl, rfl⟩, fun _ => rfl, rfl, rfl⟩, rfl, rfl⟩

/-- One run that ends in each way: `BCLR` completes, the illegal word 0 faults before the `BCLR` after it, a starved `SAMPLEU`
hangs. -/
theorem hyp_RunsEndInExactlyOneOfThreeWays :
    Completed [0x40000000] (launched [0x40000000]) { State.reset with pc := 1 } ∧
    Faulted [0, 0x40000000] (launched [0, 0x40000000]) (faultEntry (launched [0x40000000]) .illegal 0) ∧
    Hung [0x31000000] (starved (issued [0x31000000])) :=
  ⟨⟨⟨rfl, fun m hm => by cases Nat.lt_one_iff.1 hm; exact ⟨_, _, rfl, rfl, rfl, rfl, rfl⟩⟩, rfl, rfl, rfl⟩,
   ⟨0, _, 0, .illegal, ⟨rfl, fun _ h => absurd h (Nat.not_lt_zero _)⟩, rfl, rfl, rfl⟩,
   ⟨0, _, 0x31000000, 0, ⟨rfl, fun _ h => absurd h (Nat.not_lt_zero _)⟩, rfl, by decide,
     (step_of_command rfl (by decide : decodeWord 0x31000000 = .command (.sampleu 0))).trans
       (congrArg (resetIfHung _) (starved_hangs []))⟩⟩

/-- After the first command of a run the next word is a command; before it, an illegal word. -/
theorem hyp_RunsEndInExactlyOneOfThreeWays_order :
    CompletesFirst (launched [0x40000000, 0x40000000]) 1 { launched [0x40000000] with pc := 1 } ∧
    CompletesFirst (launched [0]) 0 (launched [0]) ∧ decodeWord 0x40000000 = .command .bclr ∧
    decodeWord 0 = .illegal .unassignedOpcode :=
  ⟨⟨rfl, fun m hm => by cases Nat.lt_one_iff.1 hm; exact ⟨_, _, rfl, rfl, rfl, rfl, rfl⟩⟩,
   ⟨rfl, fun _ h => absurd h (Nat.not_lt_zero _)⟩, by decide, by decide⟩

/-- The three runs of `hyp_RunsEndInExactlyOneOfThreeWays` start in launch states. -/
theorem hyp_RunsEndInExactlyOneOfThreeWays_launch : Launch [0x40000000] (launched [0x40000000]) ∧
    Launch [0, 0x40000000] (launched [0, 0x40000000]) ∧ Launch [0x31000000] (starved (issued [0x31000000])) :=
  ⟨launch_launched _, launch_launched _, launch_starved _⟩

theorem hyp_EncodeOfDecodeIsTheWord : decodeWord 0xFFFFFFFF = .illegal .unassignedOpcode ∧
    decodeWord 0x23FFFFFF = .command (.plc 15 15 15 15 255) := by decide

theorem hyp_StepKeepsWellFormedStates : WellFormedState State.reset ∧ step State.reset = .next State.reset :=
  ⟨⟨by decide, fun _ => ⟨rfl, rfl⟩, fun h => absurd h (by decide), rfl, rfl⟩, rfl⟩

theorem hyp_OnlyScalarCommandsWriteScalars : exec (.zldz 3 0) State.reset =
    .next { writeScalar State.reset 3 (zeta 0) with pc := 1 } ∧ scalarDest (.zldz 3 0) ≠ some 2 ∧
    exec .bclr State.reset = .next { State.reset with pc := 1 } ∧ scalarDest .bclr ≠ some 2 :=
  ⟨rfl, by decide, rfl, by decide⟩

theorem hyp_OnlyListedCommandsWritePolynomials : exec (.padd 3 0 1) allTq =
    .next { writePoly allTq 3 (padd (repeated [0]) (repeated [0])) .tq with pc := 1 } ∧ polyDest (.padd 3 0 1) ≠ some 2 :=
  ⟨rfl, by decide⟩

theorem hyp_OnlyBufferCommandsChangeTheBuffer : exec (.zldg 3 0) State.reset =
    .next { writeScalar State.reset 3 (gamma 0) with pc := 1 } ∧ writesBuffer (.zldg 3 0) = false := ⟨rfl, rfl⟩

theorem hyp_OnlyStreamCommandsMoveTheStream : exec .bclr State.reset = .next { State.reset with pc := 1 } ∧
    (∀ a b, Instr.bclr ≠ .xopen a b) ∧ (∀ pd, Instr.bclr ≠ .sampleu pd) ∧
    (after (exec (.sampleu 0) (stream [] [0x01, 0x10, 0x00])) fun t => t.xpos) = some 384 ∧
    ∀ a b, Instr.sampleu 0 ≠ .xopen a b := ⟨rfl, by simp, by simp, by decide +kernel, by simp⟩

theorem hyp_OnlyResetInvalidatesRegisters : (scalars [(1, 0)]).sval[(1 : RegNo)] = true ∧
    allTq.ptag[(1 : RegNo)] ≠ .empty ∧ exec .bclr (scalars [(1, 0)]) = .next { scalars [(1, 0)] with pc := 1 } ∧
    exec .bclr allTq = .next { allTq with pc := 1 } := ⟨by decide, by decide, rfl, rfl⟩

theorem hyp_CommandsDoNotChangeTheEnvironment : exec .bclr (starved [.reset]) = .next { starved [.reset] with pc := 1 } := rfl

theorem hyp_BufferReadsTheLastByteWritten : State.reset.buf.wf = true ∧ (buffer 384 [0xFF]).buf.wf = true := by decide +kernel

theorem hyp_ZliLoadsAFieldElement : State.reset.err = none ∧ (3328 : BitVec 12).toNat < 3329 ∧
    3329 ≤ (3329 : BitVec 12).toNat := by decide

/-- The hypotheses of `ZADD`, `ZSUB`, `ZMUL` and `ZPOW`: two valid sources; an empty `ra`; an empty `rb`. -/
theorem hyp_scalar_sources : (scalars [(1, 0), (2, 3328)]).err = none ∧
    (scalars [(1, 0), (2, 3328)]).sval[(1 : RegNo)] = true ∧ (scalars [(1, 0), (2, 3328)]).sval[(2 : RegNo)] = true ∧
    (scalars [(2, 0)]).sval[(1 : RegNo)] = false ∧ (scalars [(1, 0)]).sval[(2 : RegNo)] = false := by decide

theorem hyp_ZaddAddsModuloQ : after (exec (.zadd 0 1 2) (scalars [(1, 0), (2, 3328)])) (fun t => t.err) = some none ∧
    cause (.zadd 0 1 2) (scalars [(2, 0)]) = some (some .empty) ∧
    cause (.zadd 0 1 2) (scalars [(1, 0)]) = some (some .empty) := by decide

theorem hyp_ZsubSubtractsModuloQ : after (exec (.zsub 0 1 2) (scalars [(1, 0), (2, 3328)])) (fun t => t.err) = some none ∧
    cause (.zsub 0 1 2) (scalars [(2, 0)]) = some (some .empty) ∧
    cause (.zsub 0 1 2) (scalars [(1, 0)]) = some (some .empty) := by decide

theorem hyp_ZmulMultipliesModuloQ : after (exec (.zmul 0 1 2) (scalars [(1, 0), (2, 3328)])) (fun t => t.err) = some none ∧
    cause (.zmul 0 1 2) (scalars [(2, 0)]) = some (some .empty) ∧
    cause (.zmul 0 1 2) (scalars [(1, 0)]) = some (some .empty) := by decide

theorem hyp_ZpowRaisesToThePower : after (exec (.zpow 0 1 4095) (scalars [(1, 0)])) (fun t => t.err) = some none ∧
    cause (.zpow 0 1 0) (scalars [(2, 0)]) = some (some .empty) := by decide

theorem hyp_ZldzReadsZeta : State.reset.err = none := rfl

theorem hyp_ZldgReadsGamma : State.reset.err = none := rfl

theorem hyp_FieldFunctionsFormAField : (3328 : FieldElement) ≠ 0 := by decide

/-- The hypotheses of `NTT` and `INTT`: a source of either domain and an empty one. -/
theorem hyp_NttTransformsRqToTq : allTq.err = none ∧ allTq.ptag[(0 : RegNo)] = .tq ∧
    (polys [(0, repeated [0], .rq)]).ptag[(0 : RegNo)] = .rq ∧ State.reset.ptag[(0 : RegNo)] = .empty := by decide

theorem hyp_InttTransformsTqToRq : cause (.intt 1 0) (polys [(0, repeated [0], .rq)]) = some (some .domain) ∧
    cause (.intt 1 0) State.reset = some (some .empty) ∧ cause (.ntt 1 0) allTq = some (some .domain) ∧
    cause (.ntt 1 0) State.reset = some (some .empty) := by decide

theorem hyp_NttPairsAreResidues : 127 < 128 := by decide

theorem hyp_TransformsAreInverse : (polys [(0, repeated [0], .rq)]).err = none ∧
    (polys [(0, repeated [0], .rq)]).ptag[(0 : RegNo)] = .rq := by decide

/-- The hypotheses of `PADD`, `PSUB` and `PMUL`: like tags of each domain; an empty source on each side; unlike tags. -/
theorem hyp_poly_sources : let s := polys [(0, repeated [0], .rq), (1, repeated [0], .tq)]
    s.err = none ∧ s.ptag[(0 : RegNo)] ≠ .empty ∧ s.ptag[(1 : RegNo)] ≠ .empty ∧ s.ptag[(2 : RegNo)] = .empty ∧
    s.ptag[(0 : RegNo)] ≠ s.ptag[(1 : RegNo)] ∧ s.ptag[(0 : RegNo)] = .rq ∧ s.ptag[(1 : RegNo)] = .tq := by decide

theorem hyp_PaddAddsElementwise : let s := polys [(0, repeated [0], .rq), (1, repeated [0], .tq)]
    cause (.padd 3 0 0) s = some none ∧ cause (.padd 3 1 1) s = some none ∧ cause (.padd 3 0 2) s = some (some .empty) ∧
    cause (.padd 3 2 0) s = some (some .empty) ∧ cause (.padd 3 0 1) s = some (some .domain) := by decide

theorem hyp_PsubSubtractsElementwise : let s := polys [(0, repeated [0], .rq), (1, repeated [0], .tq)]
    cause (.psub 3 0 0) s = some none ∧ cause (.psub 3 1 1) s = some none ∧ cause (.psub 3 0 2) s = some (some .empty) ∧
    cause (.psub 3 2 0) s = some (some .empty) ∧ cause (.psub 3 1 0) s = some (some .domain) := by decide

theorem hyp_PmulMultipliesPairs : let s := polys [(0, repeated [0], .rq), (1, repeated [0], .tq)]
    cause (.pmul 3 1 1) s = some none ∧ cause (.pmul 3 1 2) s = some (some .empty) ∧
    cause (.pmul 3 2 0) s = some (some .empty) ∧ cause (.pmul 3 1 0) s = some (some .domain) ∧
    cause (.pmul 3 0 0) s = some (some .domain) := by decide

/-- `PLC` with the last windows that fit, for each legal `k`. -/
theorem hyp_PlcAccumulatesProducts : allTq.err = none ∧ (12 : RegNo).val + (4 : BitVec 8).toNat ≤ 16 ∧
    (14 : RegNo).val + (2 : BitVec 8).toNat ≤ 16 ∧ (13 : RegNo).val + (3 : BitVec 8).toNat ≤ 16 ∧
    ∀ r : RegNo, allTq.ptag[r] = .tq := by decide

/-- Each clause of the checks of `PLC`, at its boundary: `k = 1, 5`; windows that end at `p16`; an empty or wrongly tagged
addend, and last member of each window. -/
theorem hyp_PlcAccumulatesProducts_checks : allTq.err = none ∧ cause (.plc 0 1 2 3 1) allTq = some (some .shape) ∧
    cause (.plc 0 1 2 3 5) allTq = some (some .shape) ∧ cause (.plc 0 1 13 3 4) allTq = some (some .illegal) ∧
    cause (.plc 0 1 2 15 2) allTq = some (some .illegal) ∧
    (∀ r ∈ ([1, 5, 9] : List RegNo),
      cause (.plc 0 1 2 6 4) { allTq with ptag := allTq.ptag.set r .empty } = some (some .empty) ∧
      cause (.plc 0 1 2 6 4) { allTq with ptag := allTq.ptag.set r .rq } = some (some .domain)) := by decide +kernel

/-- The expansion for `k = 2` with scratch register `p15` runs to its end without a fault, also with the destination the first
factor. -/
theorem hyp_PlcIsItsExpansion : (runAll (plcExpansion 0 1 2 3 15 2) allTq).map (fun t => t.err) = some none ∧
    (runAll (plcExpansion 2 2 2 3 15 2) allTq).map (fun t => t.err) = some none ∧
    (∀ j, j < 2 → (15 : RegNo) ≠ regAfter 2 j ∧ (15 : RegNo) ≠ regAfter 3 j) ∧
    (∀ j, j < 2 → 0 < j → (0 : RegNo) ≠ regAfter 2 j ∧ (0 : RegNo) ≠ regAfter 3 j) := by decide +kernel

/-- The hypotheses of the program forms of `TransformsAreLinear` and `PointwiseProductIsRingProduct`. -/
theorem hyp_TransformsAreLinear : let s := polys [(0, repeated [0], .rq), (1, repeated [0], .rq)]
    s.err = none ∧ s.ptag[(0 : RegNo)] = .rq ∧ s.ptag[(1 : RegNo)] = .rq := by decide

theorem hyp_PointwiseProductIsRingProduct : let s := polys [(0, repeated [1, 2], .rq), (1, repeated [3328], .rq)]
    s.err = none ∧ s.ptag[(0 : RegNo)] = .rq ∧ s.ptag[(1 : RegNo)] = .rq := by decide

/-- Transforms in the last windows that fit for `k = 2`, the two windows the same registers. -/
theorem hyp_LinearCombinationIsRingCombination :
    let s := polys [(13, ntt (poly [1]), .tq), (14, ntt (poly [0, 1]), .tq), (15, ntt (poly [2]), .tq)]
    let a : Nat → Coeffs := fun j => if j = 0 then poly [0, 1] else poly [2]
    s.err = none ∧ (14 : RegNo).val + (2 : BitVec 8).toNat ≤ 16 ∧ s.ptag[(13 : RegNo)] = .tq ∧
    s.preg[(13 : RegNo)] = ntt (poly [1]) ∧
    ∀ j, j < (2 : BitVec 8).toNat → s.ptag[regAfter 14 j] = .tq ∧ s.preg[regAfter 14 j] = ntt (a j) := by decide +kernel

theorem hyp_XopenSelectsAndRewinds : State.reset.err = none := rfl

/-- V43.3: 256 acceptable candidates in 128 chunks, the fewest possible; and a stream never opened. -/
theorem hyp_SampleuTakesTheFirst256Acceptable : (stream [] [0x01, 0x10, 0x00]).err = none ∧
    (stream [] [0x01, 0x10, 0x00]).xvalid = true ∧
    256 ≤ (acceptable (stream [] [0x01, 0x10, 0x00]) 128).length ∧ State.reset.xvalid = false := by decide +kernel

/-- `η = 1` and `η = 6` with the right `BLEN`; `η = 0` and `η = 7`; `BLEN` one off. -/
theorem hyp_SamplecbdSubtractsBitSums : (buffer 64 [0]).err = none ∧ (buffer 64 [0]).blen.toNat = 64 * (1 : BitVec 4).toNat ∧
    (buffer 384 [0]).blen.toNat = 64 * (6 : BitVec 4).toNat ∧ (0 : BitVec 4).toNat < 1 ∧ 6 < (7 : BitVec 4).toNat ∧
    (buffer 63 [0]).blen.toNat ≠ 64 * (1 : BitVec 4).toNat := by decide +kernel

theorem hyp_CbdCoefficientsAreSmall : (List.replicate 64 (0xFF : Byte)).length = 64 * 1 ∧
    (List.replicate 384 (0xFF : Byte)).length = 64 * 6 := ⟨List.length_replicate, List.length_replicate⟩

theorem hyp_BclrEmptiesTheBuffer : (buffer 1 [7]).err = none := rfl

/-- `BLEN = 383`, the last byte; `BLEN = 384`, full. -/
theorem hyp_BputAppendsAByte : (buffer 383 [0]).err = none ∧ (buffer 383 [0]).blen.toNat < 384 ∧
    (buffer 384 [0]).blen.toNat = 384 := by decide +kernel

/-- Each clause of `ENCODE`: reserved `d`; an empty source; a coefficient of exactly `2^d`; coefficients that fit. -/
theorem hyp_EncodePacksCoefficients : (0 : BitVec 4).toNat < 1 ∧ 12 < (13 : BitVec 4).toNat ∧
    State.reset.ptag[(0 : RegNo)] = .empty ∧ (polys [(0, poly [2048], .rq)]).err = none ∧
    (polys [(0, poly [2048], .rq)]).ptag[(0 : RegNo)] ≠ .empty ∧
    2 ^ (11 : BitVec 4).toNat ≤ (cell (polys [(0, poly [2048], .rq)]).preg[(0 : RegNo)] 0).val ∧
    (∀ n, n < 256 → (cell (polys [(0, poly [2047], .rq)]).preg[(0 : RegNo)] n).val < 2 ^ (11 : BitVec 4).toNat) := by
  decide +kernel

/-- Each clause of `DECODE.R`: reserved `d`; `BLEN` one off; a value of 3329 in the field; values that fit. -/
theorem hyp_DecodeRUnpacksIntoRq : (0 : BitVec 4).toNat < 1 ∧ 12 < (13 : BitVec 4).toNat ∧
    (buffer 31 [0]).err = none ∧ (buffer 31 [0]).blen.toNat ≠ 32 * (1 : BitVec 4).toNat ∧
    (buffer 128 [0x00, 0x1D, 0xD0]).blen.toNat = 32 * (12 : BitVec 4).toNat ∧
    cause (.decodeR 0 12) (buffer 128 [0x00, 0x1D, 0xD0]) = some (some .range) ∧
    cause (.decodeR 0 12) (buffer 384 [0x00]) = some none ∧
    cause (.decodeR 0 11) (buffer 352 [0xFF]) = some none := by decide +kernel

theorem hyp_DecodeTUnpacksIntoTq : cause (.decodeT 0 12) (buffer 128 [0x00, 0x1D, 0xD0]) = some (some .range) ∧
    cause (.decodeT 0 12) (buffer 384 [0x00]) = some none ∧ cause (.decodeT 0 12) (buffer 383 [0x00]) = some (some .length) ∧
    cause (.decodeT 0 0) (buffer 384 [0x00]) = some (some .illegal) := by decide +kernel

/-- Eleven-bit and one-bit values, every bit set. -/
theorem hyp_DecodedValuesFitTheirWidth : (buffer 352 [0xFF]).err = none ∧
    (buffer 352 [0xFF]).blen.toNat = 32 * (11 : BitVec 4).toNat ∧
    (buffer 32 [0xFF]).blen.toNat = 32 * (1 : BitVec 4).toNat ∧ 2047 ∈ decodeValues 11 (List.replicate 352 0xFF) := by
  decide +kernel

/-- Both directions of the round trip and its program form, at `d = 12` and `d = 1`. -/
theorem hyp_CodecRoundTrip : (List.replicate 256 4095).length = 256 ∧ (∀ v ∈ List.replicate 256 4095, v < 2 ^ 12) ∧
    (List.replicate 384 (0xFF : Byte)).length = 32 * (12 : BitVec 4).toNat ∧
    (polys [(0, poly [3328], .tq)]).err = none ∧ (polys [(0, poly [3328], .tq)]).ptag[(0 : RegNo)] ≠ .empty ∧
    (∀ n, n < 256 → (cell (poly [3328]) n).val < 2 ^ (12 : BitVec 4).toNat) ∧
    (∀ n, n < 256 → (cell (poly [1]) n).val < 2 ^ (1 : BitVec 4).toNat) := by decide +kernel

end Sys2Proof.Machine.Tests
end

section
/-! Statements about the state: what reset leaves, the invariant every step keeps, what each command may change, the
command counter, and what the host reads (10_state.md). Every frame and the invariant go through `exec_next_keeps`, so each of
them is one case analysis over the kinds of write of `Effect`. -/
namespace Sys2Proof.Machine

/-! ### A property of the next state of a command -/

/-- What holds of the state a command starts in, of it with a fault entered, and of it after the writes of a completed command and
the advance of `PC`, holds of every next state of the command. -/
theorem exec_next_keeps {P : State → Prop} {i : Instr} {s t : State} (h : exec i s = .next t) (ignored : P s)
    (raised : ∀ c w, P (faultEntry s c w))
    (completed : ∀ u, s.err = none → Effect i s u → P { u with pc := u.pc + 1 }) : P t := by
  obtain ⟨-, rfl⟩ | ⟨c, -, -, rfl⟩ | ⟨u, he, hu, rfl⟩ := exec_next_cases h
  · exact ignored
  · exact raised c _
  · exact completed u he hu

/-! ### Reset (R40) -/

theorem reset_sval (r : RegNo) : State.reset.sval[r] = false := by simp [State.reset]

theorem reset_ptag (r : RegNo) : State.reset.ptag[r] = .empty := by simp [State.reset]

/-- The literal ROMs are the powers of 17 of R27. -/
theorem twiddles_are_powers : ∀ k, k < 128 →
    (zeta k).val = 17 ^ bitrev7 k % 3329 ∧ (gamma k).val = 17 ^ (2 * bitrev7 k + 1) % 3329 := by decide

/-- Settles O1, cell by cell. -/
theorem resetLeavesTheListedValues : Obligations.ResetLeavesTheListedValues :=
  ⟨reset_sval, reset_ptag, rfl, rfl, rfl, rfl, rfl, rfl, rfl, twiddles_are_powers⟩

/-- Settles O19: the latch and BUF are empty and no stream is open. -/
theorem resetIsWellFormed : Obligations.ResetIsWellFormed where
  blen := by decide
  latch _ := ⟨rfl, rfl⟩
  xpos h := by cases h
  form := rfl
  range := rfl

/-! ### The invariant of R39 -/

namespace WellFormedState

variable {s : State}

/-- Well-formedness does not depend on `PC`. -/
theorem setPc (h : WellFormedState s) (p : Word) : WellFormedState { s with pc := p } := { h with }

/-- Well-formedness does not depend on the host's later moves. -/
theorem after_hostMove (h : WellFormedState s) (rest : List HostMove) : WellFormedState (withPending s rest) := { h with }

/-- A fault entry writes the latch alone, and the latch then holds a cause. -/
theorem after_fault (h : WellFormedState s) (c : Cause) (w : Word) : WellFormedState (faultEntry s c w) :=
  { h with latch := fun he => by cases he }

/-- A host reset gives the reset state up to the environment. -/
theorem after_reset (s : State) (rest : List HostMove) : WellFormedState (hostReset s rest) :=
  { resetIsWellFormed with }

/-- The writes of a completed command keep every clause: `SAMPLEU` moves `XPOS` by whole chunks, `BPUT` and `ENCODE` write inside
BUF and leave `BLEN` at most 384, and no other write touches what the clauses speak of. -/
theorem after_writes {i : Instr} {u : State} (h : WellFormedState s) (hu : Effect i s u) : WellFormedState u := by
  cases hu with
  | scalar rd v _ => exact { h with }
  | poly pd f g _ _ => exact { h with }
  | sample pd a _ hx ha =>
    obtain ⟨m, hpos, -⟩ := uniformSample_eq_some s a ha
    have hs := h.xpos hx
    exact { h with xpos := fun _ => by rw [setXpos_xpos]; omega }
  | open_ x y _ => exact { h with xpos := fun _ => rfl }
  | clear _ => exact { h with blen := Nat.zero_le _ }
  | put v _ hb =>
    exact { h with
      blen := by rw [setBlen_toNat _ _ (by omega)]; omega
      form := Memory.wf_write s.buf s.blen.toNat v h.form
      range := Memory.inBuf_write s.buf s.blen.toNat v h.range hb }
  | pack pa d _ _ hd =>
    exact { h with
      blen := by rw [setBlen_toNat _ _ (by omega)]; omega
      form := Memory.wf_writeList s.buf 0 _ h.form
      range := Memory.inBuf_writeList s.buf 0 _ h.range (by rw [length_encodeBytes]; omega) }

/-- Every command keeps well-formedness. -/
theorem after_command {i : Instr} {t : State} (h : WellFormedState s) (ht : exec i s = .next t) : WellFormedState t :=
  exec_next_keeps ht h h.after_fault fun _ _ hu => (h.after_writes hu).setPc _

end WellFormedState

/-- Settles O18: each way a step can end is one of the operations that keep well-formedness. -/
theorem stepKeepsWellFormedStates : Obligations.StepKeepsWellFormedStates := by
  intro s t hs ht
  obtain rfl | ⟨rest, rfl⟩ | ⟨rest, w, -, rfl⟩ | ⟨rest, -, rfl⟩ | ⟨rest, i, hi⟩ := step_next_cases ht
  · exact hs
  · exact .after_reset s rest
  · exact (hs.after_hostMove rest).after_fault .illegal w
  · exact hs.after_hostMove rest
  · exact (hs.after_hostMove rest).after_command hi

/-! ### Frames: what each command leaves unchanged -/

namespace Effect

variable {i : Instr} {s u : State}

/-- A scalar register that is not the destination keeps its value and its valid bit (R23). -/
theorem keeps_scalar {r : RegNo} (h : Effect i s u) (hr : scalarDest i ≠ some r) :
    u.sreg[r] = s.sreg[r] ∧ u.sval[r] = s.sval[r] := by
  cases h with
  | scalar rd v hd =>
    have hne : rd.val ≠ r.val := fun e => hr (by rw [hd, Fin.ext e])
    simp [hne]
  | _ => exact ⟨rfl, rfl⟩

/-- A polynomial register that is not the destination keeps its coefficients and its tag (R26). -/
theorem keeps_poly {r : RegNo} (h : Effect i s u) (hr : polyDest i ≠ some r) :
    u.preg[r] = s.preg[r] ∧ u.ptag[r] = s.ptag[r] := by
  have other {pd : RegNo} (hd : polyDest i = some pd) : pd.val ≠ r.val := fun e => hr (by rw [hd, Fin.ext e])
  cases h with
  | poly pd f g hd _ => simp [other hd]
  | sample pd a hi _ _ => simp [other (congrArg polyDest hi)]
  | _ => exact ⟨rfl, rfl⟩

/-- No write clears a valid bit (R22). -/
theorem keeps_valid {r : RegNo} (h : Effect i s u) (hr : s.sval[r] = true) : u.sval[r] = true := by
  cases h with
  | scalar rd v _ =>
    by_cases e : rd.val = r.val
    · simp [e]
    · simpa [e] using hr
  | _ => exact hr

/-- No write makes a tag `E` (R25). -/
theorem keeps_nonempty {r : RegNo} (h : Effect i s u) (hr : s.ptag[r] ≠ .empty) : u.ptag[r] ≠ .empty := by
  have set_ne (pd : RegNo) {g : Tag} (hg : g ≠ .empty) : (s.ptag.set pd g)[r] ≠ .empty := by
    by_cases e : pd.val = r.val
    · simpa [e] using hg
    · simpa [e] using hr
  cases h with
  | poly pd f g _ hg => exact set_ne pd hg
  | sample pd a _ _ _ => exact set_ne pd (by decide)
  | _ => exact hr

/-- Only `XOPEN` opens another stream or rewinds, and only `SAMPLEU` advances the position (R33, R36). -/
theorem keeps_stream (h : Effect i s u) (hi : ∀ a b, i ≠ .xopen a b) :
    u.xvalid = s.xvalid ∧ u.xij = s.xij ∧ s.xpos ≤ u.xpos ∧ ((∀ pd, i ≠ .sampleu pd) → u.xpos = s.xpos) := by
  cases h with
  | sample pd a hp _ ha =>
    obtain ⟨m, hpos, -⟩ := uniformSample_eq_some s a ha
    exact ⟨rfl, rfl, by rw [setXpos_xpos]; omega, fun h => absurd hp (h pd)⟩
  | open_ x y hp => exact absurd hp (hi x y)
  | _ => exact ⟨rfl, rfl, Nat.le_refl _, fun _ => rfl⟩

end Effect

/-- Settles O20, over the kinds of write. -/
theorem onlyScalarCommandsWriteScalars : Obligations.OnlyScalarCommandsWriteScalars := fun _ s _ r h hr =>
  exec_next_keeps (P := fun t => t.sreg[r] = s.sreg[r] ∧ t.sval[r] = s.sval[r]) h ⟨rfl, rfl⟩ (fun _ _ => ⟨rfl, rfl⟩)
    fun _ _ hu => hu.keeps_scalar hr

/-- Settles O21, over the kinds of write. -/
theorem onlyListedCommandsWritePolynomials : Obligations.OnlyListedCommandsWritePolynomials := fun _ s _ r h hr =>
  exec_next_keeps (P := fun t => t.preg[r] = s.preg[r] ∧ t.ptag[r] = s.ptag[r]) h ⟨rfl, rfl⟩ (fun _ _ => ⟨rfl, rfl⟩)
    fun _ _ hu => hu.keeps_poly hr

/-- Settles O23: a sample advances the position by whole chunks. -/
theorem onlyStreamCommandsMoveTheStream : Obligations.OnlyStreamCommandsMoveTheStream := fun i s _ h hi =>
  exec_next_keeps (P := fun t => t.xvalid = s.xvalid ∧ t.xij = s.xij ∧ s.xpos ≤ t.xpos ∧
      ((∀ pd, i ≠ .sampleu pd) → t.xpos = s.xpos)) h ⟨rfl, rfl, Nat.le_refl _, fun _ => rfl⟩
    (fun _ _ => ⟨rfl, rfl, Nat.le_refl _, fun _ => rfl⟩) fun _ _ hu => hu.keeps_stream hi

/-- Settles O24: a scalar write sets its valid bit, and no polynomial write has tag `E`. -/
theorem onlyResetInvalidatesRegisters : Obligations.OnlyResetInvalidatesRegisters := fun _ s _ r h =>
  exec_next_keeps (P := fun t => (s.sval[r] = true → t.sval[r] = true) ∧ (s.ptag[r] ≠ .empty → t.ptag[r] ≠ .empty)) h
    ⟨id, id⟩ (fun _ _ => ⟨id, id⟩) fun _ _ hu => ⟨hu.keeps_valid, hu.keeps_nonempty⟩

/-- Settles O25: the writes of a command leave the environment. -/
theorem commandsDoNotChangeTheEnvironment : Obligations.CommandsDoNotChangeTheEnvironment := fun _ s _ h =>
  exec_next_keeps (P := SameEnvironment s) h ⟨rfl, rfl⟩ (fun _ _ => ⟨rfl, rfl⟩) fun _ _ hu => by
    obtain ⟨-, -, -, -, hpending, hxof⟩ := hu.keeps
    exact ⟨hpending, hxof⟩

/-! ### The command counter (R30) -/

/-- A command that ends with no fault latched has run its effect. -/
theorem effect_of_command_completes {i : Instr} {s t : State} {checks : List (Bool × Cause)} {effect : Outcome}
    (hs : s.err = none) (ht : t.err = none) (h : command i s checks effect = .next t) :
    firstFailing checks = none ∧ effect = .next t := by
  obtain ⟨he, -⟩ | ⟨c, -, -, e⟩ | ⟨-, hc, e⟩ := command_cases i s checks effect
  · exact absurd hs he
  · cases e.symm.trans h; cases ht
  · exact ⟨hc, e.symm.trans h⟩

/-- A completed command whose checks and writes do not read `PC` completes alike from every `PC`. -/
theorem command_completes_anyPc {i : Instr} {s t u u' : State} {checks : List (Bool × Cause)} {p : Word}
    (hs : s.err = none) (ht : t.err = none) (h : command i s checks (complete u) = .next t) (hu : u' = { u with pc := p }) :
    command i { s with pc := p } checks (complete u') = .next { t with pc := p + 1 } := by
  obtain ⟨hc, e⟩ := effect_of_command_completes hs ht h
  cases e
  rw [command_runs (show ({ s with pc := p } : State).err = none from hs) hc, hu]
  rfl

/-- No completed command reads `PC`. -/
theorem exec_completes_anyPc {i : Instr} {s t : State} (hs : s.err = none) (ht : t.err = none) (h : exec i s = .next t)
    (p : Word) : exec i { s with pc := p } = .next { t with pc := p + 1 } := by
  cases i with
  | sampleu pd =>
    obtain ⟨hc, e⟩ := effect_of_command_completes hs ht h
    change command _ _ _ (finishSample pd { s with pc := p } (uniformSample s)) = _
    cases ha : uniformSample s with
    | none => rw [ha] at e; cases e
    | some a =>
      rw [ha] at e
      cases e
      exact command_runs hs hc
  | zldz rd imm7 => exact command_completes_anyPc (i := .zldz rd imm7) (checks := []) hs ht h rfl
  | zldg rd imm7 => exact command_completes_anyPc (i := .zldg rd imm7) (checks := []) hs ht h rfl
  | xopen a b => exact command_completes_anyPc (i := .xopen a b) (checks := []) hs ht h rfl
  | bclr => exact command_completes_anyPc (i := .bclr) (checks := []) hs ht h rfl
  | _ => exact command_completes_anyPc hs ht h rfl

/-- Settles O10: a next state is a fault entry, which leaves `PC`, or the end of the writes, which add 1 to it. -/
theorem pcCountsCompletedCommands : Obligations.PcCountsCompletedCommands := by
  refine ⟨rfl, fun i s t hs h => ?_⟩
  have anyPc (ht : t.err = none) := exec_completes_anyPc hs ht h
  obtain ⟨he, -⟩ | ⟨c, -, -, rfl⟩ | ⟨u, -, hu, rfl⟩ := exec_next_cases h
  · exact absurd hs he
  · exact ⟨fun ht => absurd ht (Option.some_ne_none c), fun _ => rfl⟩
  · obtain ⟨hpc, herr, -⟩ := hu.keeps
    refine ⟨fun ht => ⟨?_, anyPc ht⟩, fun ht => absurd (herr.trans hs) ht⟩
    rw [hpc, BitVec.toNat_add]; rfl

/-! ### What the host reads (R33, R41) -/

theorem errCode_eq_zero_iff (e : Option Cause) : errCode e = 0 ↔ e = none := by
  cases e with
  | none => simp [errCode]
  | some c => cases c <;> simp [errCode]

theorem faultBit_eq_true_iff (s : State) : faultBit s = true ↔ s.err ≠ none := by
  rw [faultBit, bne_iff_ne, Ne, errCode_eq_zero_iff]

/-- Three bits packed as `STATUS` packs them (R33). -/
theorem getLsbD_packedBits (f x b : Bool) :
    (BitVec.ofNat 3 (f.toNat + 2 * x.toNat + 4 * b.toNat)).getLsbD 0 = f ∧
    (BitVec.ofNat 3 (f.toNat + 2 * x.toNat + 4 * b.toNat)).getLsbD 1 = x ∧
    (BitVec.ofNat 3 (f.toNat + 2 * x.toNat + 4 * b.toNat)).getLsbD 2 = b := by
  revert f x b; decide

/-- The bits of `STATUS` (R33). -/
theorem statusWith_bits (busy : Bool) (s : State) : (statusWith busy s).getLsbD 0 = faultBit s ∧
    (statusWith busy s).getLsbD 1 = s.xvalid ∧ (statusWith busy s).getLsbD 2 = busy := getLsbD_packedBits _ _ _

/-- `STATUS` between commands as a number. -/
theorem status_toNat (s : State) :
    (status s).toNat = (if s.err = none then 0 else 1) + (if s.xvalid = true then 2 else 0) := by
  have packed : ∀ f x : Bool, (BitVec.ofNat 3 (f.toNat + 2 * x.toNat + 4 * false.toNat)).toNat =
      (if f = true then 1 else 0) + (if x = true then 2 else 0) := by decide
  simp only [status, statusWith, packed, faultBit_eq_true_iff, ite_not, ne_eq]

/-- `XIJ` is `256·XI + XJ` (R35). -/
theorem xij_toNat (s : State) : s.xij.toNat = (streamI s).toNat * 256 + (streamJ s).toNat := by
  rw [streamI, streamJ, BitVec.toNat_ofNat, BitVec.toNat_ofNat]; omega

/-- The control registers by number (R32). -/
theorem hostReadControl_values (s : State) :
    hostReadControl s 0 = some ((if s.err = none then 0 else 1) + (if s.xvalid = true then 2 else 0)) ∧
    hostReadControl s 1 = some (errCode s.err).toNat ∧
    (s.xvalid = true → hostReadControl s 6 = some ((streamI s).toNat * 256 + (streamJ s).toNat) ∧
      hostReadControl s 7 = some s.xpos) :=
  ⟨congrArg some (status_toNat s), rfl, fun hx => ⟨by rw [hostReadControl, if_pos hx, xij_toNat], if_pos hx⟩⟩

/-- A scalar command whose checks pass completes, and the host then reads the value it has written (R41). -/
theorem scalar_completes_hostRead {i : Instr} {s : State} {checks : List (Bool × Cause)} (rd : RegNo) (v : FieldElement)
    (hs : s.err = none) (hc : firstFailing checks = none) :
    ∃ t, command i s checks (complete (writeScalar s rd v)) = .next t ∧ hostReadScalar t rd = some v := by
  obtain ⟨t, ht, hw⟩ := scalar_completes hs hc rfl
  exact ⟨t, ht, by rw [hostReadScalar, if_pos hw.valid, Fin.ext hw.value]⟩

/-! The bytes of `ENCODE pa, 12`: three for each two coefficients (R181). -/

/-- The low bits of a number, then the bits above them. -/
theorem toBits_add (m n v : Nat) : toBits (m + n) v = toBits m v ++ toBits n (v / 2 ^ m) := by
  induction m generalizing v with
  | zero => simp [toBits]
  | succ m ih => rw [Nat.succ_add, toBits, ih, toBits, List.cons_append, Nat.div_div_eq_div_mul, pow_succ']

theorem ofBits_append (xs ys : List Nat) : ofBits (xs ++ ys) = ofBits xs + 2 ^ xs.length * ofBits ys := by
  induction xs with
  | nil => simp [ofBits]
  | cons x xs ih => rw [List.cons_append, ofBits, ofBits, ih, List.length_cons, pow_succ']; ring

/-- Pieces of `n` elements put one after another: dropping `n·j` elements drops the first `j` pieces. -/
theorem drop_flatMap_const {α β : Type} (n : Nat) (f : β → List α) (h : ∀ x, (f x).length = n) (l : List β) (j : Nat) :
    (l.flatMap f).drop (n * j) = (l.drop j).flatMap f := by
  induction j generalizing l with
  | zero => rfl
  | succ j ih =>
    cases l with
    | nil => simp
    | cons x l => rw [List.flatMap_cons, Nat.mul_succ, Nat.add_comm, ← List.drop_drop, List.drop_left' (h x), ih,
        List.drop_succ_cons]

/-- Byte `j` of the codec collects bits `8j .. 8j + 7` of the bit string (R181). -/
theorem getD_encodeValues {d j : Nat} {vs bs post : List Nat} (hj : j < 32 * d) (hbs : bs.length = 8)
    (h : (vs.flatMap (toBits d)).drop (j * 8) = bs ++ post) :
    ((encodeValues d vs).getD j 0).toNat = ofBits bs % 2 ^ 8 := by
  rw [encodeValues, getD_map_lt _ _ _ _ [] (by simpa using hj), getD_groups _ _ _ _ hj, h, List.take_left' hbs,
    BitVec.toNat_ofNat]

/-- The bit string of a polynomial at width 12 from coefficient `2m` on, cut where its bytes are cut. -/
theorem drop_bits_twelve (f : Coeffs) (m : Nat) (hm : m < 128) : ∃ post,
    ((f.toList.map fun c => c.val).flatMap (toBits 12)).drop (3 * m * 8) =
      toBits 8 (cell f (2 * m)).val ++ ((toBits 4 ((cell f (2 * m)).val / 2 ^ 8) ++ toBits 4 (cell f (2 * m + 1)).val) ++
        (toBits 8 ((cell f (2 * m + 1)).val / 2 ^ 4) ++ post)) := by
  refine ⟨((f.toList.map fun c => c.val).drop (2 * m + 2)).flatMap (toBits 12), ?_⟩
  rw [show 3 * m * 8 = 12 * (2 * m) by ring, drop_flatMap_const 12 _ fun _ => length_toBits _ _,
    List.drop_eq_getElem_cons (by simp; omega), List.drop_eq_getElem_cons (by simp; omega), List.flatMap_cons,
    List.flatMap_cons, toBits_add 8 4, toBits_add 4 8, cell_eq_getElem _ _ (by omega), cell_eq_getElem _ _ (by omega)]
  simp

/-- Bytes `3m`, `3m + 1` and `3m + 2` of `encode(12, f)` give back coefficients `2m` and `2m + 1` (R181). -/
theorem encodeBytes_twelve (f : Coeffs) (m : Nat) (hm : m < 128) :
    (cell f (2 * m)).val = ((encodeBytes 12 f).getD (3 * m) 0).toNat +
      256 * (((encodeBytes 12 f).getD (3 * m + 1) 0).toNat % 16) ∧
    (cell f (2 * m + 1)).val = ((encodeBytes 12 f).getD (3 * m + 1) 0).toNat / 16 +
      16 * ((encodeBytes 12 f).getD (3 * m + 2) 0).toNat := by
  have hlt0 := (cell f (2 * m)).isLt
  have hlt1 := (cell f (2 * m + 1)).isLt
  obtain ⟨post, hbits0⟩ := drop_bits_twelve f m hm
  have hbits1 := congrArg (List.drop 8) hbits0
  rw [List.drop_drop, List.drop_left' (length_toBits 8 _), show 3 * m * 8 + 8 = (3 * m + 1) * 8 by ring] at hbits1
  have hbits2 := congrArg (List.drop 8) hbits1
  rw [List.drop_drop, List.drop_left' (by simp), show (3 * m + 1) * 8 + 8 = (3 * m + 2) * 8 by ring] at hbits2
  rw [encodeBytes, getD_encodeValues (by omega) (length_toBits 8 _) hbits0,
    getD_encodeValues (by omega) (by simp) hbits1, getD_encodeValues (by omega) (length_toBits 8 _) hbits2]
  simp only [ofBits_append, ofBits_toBits, length_toBits]
  omega

/-- Every coefficient fits in 12 bits, so `ENCODE pa, 12` cannot raise `RANGE`. -/
theorem tooWide_twelve (f : Coeffs) : tooWide 12 f = false := by
  simp only [tooWide, List.any_eq_false, decide_eq_true_eq]
  intro c _; omega

/-- `ENCODE pa, 12` of a register not tagged `E` completes, and the host then reads the 384 bytes of `encode(12, p[pa])`. -/
theorem encode_twelve_completes (s : State) (pa : RegNo) (hs : s.err = none) (hpa : s.ptag[pa] ≠ .empty) :
    ∃ t, exec (.encode pa 12) s = .next t ∧
      ∀ a, a < 384 → hostReadByte t a = some ((encodeBytes 12 s.preg[pa]).getD a 0) := by
  have hchecks : firstFailing [(badWidth 12, .illegal), (polyEmpty s pa, .empty),
      (tooWide (12 : BitVec 4).toNat (readPoly s pa), .range)] = none := by
    have hw : badWidth 12 = false := by decide
    have hr : tooWide (12 : BitVec 4).toNat (readPoly s pa) = false := tooWide_twelve _
    have he : polyEmpty s pa = false := by rw [polyEmpty_eq, decide_eq_false hpa]
    simp only [firstFailing_cons, firstFailing_nil, hw, he, hr, Bool.false_eq_true, if_false]
  refine ⟨_, (command_runs hs hchecks).trans (complete_eq _), fun a ha => ?_⟩
  rw [hostReadByte]
  refine (if_pos ha).trans (congrArg some ?_)
  exact (memRead_memWriteList s 0 a (encodeBytes 12 s.preg[pa])).trans
    (if_pos ⟨Nat.zero_le a, by rw [length_encodeBytes]; omega⟩)

/-- Settles O13: the bits of `STATUS` and the control registers, then the plain reads, then the reads by way of a command. -/
theorem statusReflectsTheState : Obligations.StatusReflectsTheState := by
  refine ⟨fun s => ?_, fun s r a => ⟨fun h => if_pos h, fun h => if_pos h, rfl⟩, fun s hs => ⟨fun rd imm7 => ⟨?_, ?_⟩,
    fun pa hpa => ?_⟩⟩
  · obtain ⟨hfault, hvalid, hidle⟩ := statusWith_bits false s
    obtain ⟨-, -, hbusy⟩ := statusWith_bits true s
    obtain ⟨hstatus, herr, hstream⟩ := hostReadControl_values s
    have code {e : Option Cause} (he : s.err = e) : hostReadControl s 1 = some (errCode e).toNat := he ▸ herr
    exact ⟨by rw [status, hfault, faultBit, bne_iff_ne], hvalid, hidle, hbusy, hstatus, code, code, code, code, code, code,
      code, rfl, rfl, rfl, rfl, hstream⟩
  · exact scalar_completes_hostRead (i := .zldz rd imm7) rd (zeta imm7.toNat) hs firstFailing_nil
  · exact scalar_completes_hostRead (i := .zldg rd imm7) rd (gamma imm7.toNat) hs firstFailing_nil
  · obtain ⟨t, ht, hread⟩ := encode_twelve_completes s pa hs hpa
    refine ⟨t, ht, fun m hm => ⟨_, _, _, hread _ (by omega), hread _ (by omega), hread _ (by omega), ?_⟩⟩
    exact encodeBytes_twelve s.preg[pa] m hm

end Sys2Proof.Machine
end

section
/-! Statements about BUF (20_memory.md): the frame of the commands that do not write it, and read after write. -/
namespace Sys2Proof.Machine

/-! ### The frame of BUF and `BLEN` (R53) -/

/-- The writes of a command other than `BCLR`, `BPUT` and `ENCODE` go to registers and the stream: they keep BUF and `BLEN`. -/
theorem Effect.keeps_buffer {i : Instr} {s u : State} (h : Effect i s u) (hi : writesBuffer i = false) :
    SameBuffer s u := by
  have notWriter {j : Instr} (hj : i = j) : writesBuffer j = false := hj ▸ hi
  cases h with
  | clear hj => cases notWriter hj
  | put v hj _ => cases notWriter hj
  | pack pa d hj _ _ => cases notWriter hj
  | _ => exact ⟨fun _ => rfl, rfl⟩

/-- Settles O22: a fault entry writes the latch alone, and a completed command that is no buffer command keeps BUF. -/
theorem onlyBufferCommandsChangeTheBuffer : Obligations.OnlyBufferCommandsChangeTheBuffer := fun _ s _ h hi =>
  exec_next_keeps (P := SameBuffer s) h ⟨fun _ => rfl, rfl⟩ (fun _ _ => ⟨fun _ => rfl, rfl⟩) fun _ _ hu => hu.keeps_buffer hi

/-! ### Read after write (R51, R52) -/

/-- Settles O26 by the laws of the byte store: read after write, and a write keeps the canonical form. -/
theorem bufferReadsTheLastByteWritten : Obligations.BufferReadsTheLastByteWritten := fun s a b v =>
  ⟨memRead_memWrite s a b v, Memory.wf_write s.buf a v⟩

end Sys2Proof.Machine
end

section
/-! Statements about the encoding (30_encoding.md): the rows of the opcode map are disjoint, and the decoder and the encoder are
inverse to each other. The decoder takes the first row that accepts a word; disjointness makes that the only one, so decoding
is read off from any row that accepts. -/
namespace Sys2Proof

/-! ### The rows are disjoint (R74) -/

/-- The patterns of two rows differ at a bit both masks select. -/
def OpRow.Clash (r r' : OpRow) : Prop := r.pattern &&& r'.mask ≠ r'.pattern &&& r.mask

/-- Rows that clash accept no word in common: both patterns are parts of the word, so they agree where both masks select. -/
theorem OpRow.Clash.not_both_accept {r r' : OpRow} (h : r.Clash r') (w : Word) :
    ¬ (r.accepts w = true ∧ r'.accepts w = true) := by
  rintro ⟨hr, hr'⟩
  rw [OpRow.accepts, beq_iff_eq] at hr hr'
  refine h ?_
  rw [← hr, ← hr', BitVec.and_assoc, BitVec.and_assoc, BitVec.and_comm r.mask]

theorem opRows_pairwise_clash : opRows.Pairwise OpRow.Clash := by unfold OpRow.Clash; decide

/-- Settles O17: every two rows clash. -/
theorem opcodeRowsAreDisjoint : Obligations.OpcodeRowsAreDisjoint :=
  opRows_pairwise_clash.imp OpRow.Clash.not_both_accept

/-- At most one row accepts a word (R75). -/
theorem row_unique {r r' : OpRow} {w : Word} (hr : r ∈ opRows) (hr' : r' ∈ opRows) (h : r.accepts w = true)
    (h' : r'.accepts w = true) : r = r' := by
  by_contra hne
  have symm : Std.Symm OpRow.Clash := ⟨fun _ _ => Ne.symm⟩
  have clash : r.Clash r' := opRows_pairwise_clash.forall hr hr' hne
  exact clash.not_both_accept w ⟨h, h'⟩

/-! ### What the decoder answers (R75) -/

theorem accepts_of_find {w : Word} {r : OpRow} (h : (opRows.find? fun r => r.accepts w) = some r) :
    r ∈ opRows ∧ r.accepts w = true :=
  ⟨List.mem_of_find?_eq_some h, List.find?_some (p := fun r : OpRow => r.accepts w) h⟩

/-- The decoder reads the operands by whichever row accepts the word. -/
theorem decodeWord_of_accepts {r : OpRow} {w : Word} (hr : r ∈ opRows) (h : r.accepts w = true) :
    decodeWord w = .command (operandsOf r.op w) := by
  cases hf : opRows.find? fun r => r.accepts w with
  | none => exact absurd h (by simpa using List.find?_eq_none.1 hf r hr)
  | some r' =>
    obtain ⟨hr', h'⟩ := accepts_of_find hf
    rw [decodeWord_of_find w r' hf, row_unique hr hr' h h']

/-- A word decodes to a command exactly when some row accepts it and the command has the operands read there. -/
theorem decodeWord_eq_command_iff {w : Word} {i : Instr} :
    decodeWord w = .command i ↔ ∃ r ∈ opRows, r.accepts w = true ∧ operandsOf r.op w = i := by
  constructor
  · intro h
    cases hf : opRows.find? fun r => r.accepts w with
    | none =>
      obtain ⟨why, hd⟩ := decodeWord_of_none w hf
      cases hd.symm.trans h
    | some r =>
      cases (decodeWord_of_find w r hf).symm.trans h
      obtain ⟨hr, ha⟩ := accepts_of_find hf
      exact ⟨r, hr, ha, rfl⟩
  · rintro ⟨r, hr, ha, rfl⟩
    exact decodeWord_of_accepts hr ha

/-! ### Decoding the encoding of a command -/

/-- The row of every command accepts its encoding and reads its operands back (R72, R74). -/
theorem row_of_command (i : Instr) : Laws.Row.Statement i := by
  cases i with
  | zli rd imm12 => exact Laws.Row.zli rd imm12
  | zadd rd ra rb => exact Laws.Row.zadd rd ra rb
  | zsub rd ra rb => exact Laws.Row.zsub rd ra rb
  | zmul rd ra rb => exact Laws.Row.zmul rd ra rb
  | zpow rd ra imm12 => exact Laws.Row.zpow rd ra imm12
  | zldz rd imm7 => exact Laws.Row.zldz rd imm7
  | zldg rd imm7 => exact Laws.Row.zldg rd imm7
  | ntt pd pa => exact Laws.Row.ntt pd pa
  | intt pd pa => exact Laws.Row.intt pd pa
  | padd pd pa pb => exact Laws.Row.padd pd pa pb
  | psub pd pa pb => exact Laws.Row.psub pd pa pb
  | pmul pd pa pb => exact Laws.Row.pmul pd pa pb
  | plc pd pe pa pb k => exact Laws.Row.plc pd pe pa pb k
  | xopen i j => exact Laws.Row.xopen i j
  | sampleu pd => exact Laws.Row.sampleu pd
  | samplecbd pd eta => exact Laws.Row.samplecbd pd eta
  | bclr => exact Laws.Row.bclr
  | bput imm8 => exact Laws.Row.bput imm8
  | encode pa d => exact Laws.Row.encode pa d
  | decodeR pd d => exact Laws.Row.decodeR pd d
  | decodeT pd d => exact Laws.Row.decodeT pd d

/-- Settles O15: the command's own row accepts its encoding, and no other row does. -/
theorem decodeOfEncodeIsTheCommand : Obligations.DecodeOfEncodeIsTheCommand := fun i =>
  decodeWord_eq_command_iff.2 (row_of_command i)

/-! ### Encoding the decoding of a word -/

theorem encodeWord_eq_of_toNat {i : Instr} {w : Word} (h : opcodeOf i * 2 ^ 24 + fieldsOf i = w.toNat) :
    encodeWord i = w := BitVec.eq_of_toNat_eq ((encodeWord_toNat i (fieldsOf_lt i)).trans h)

/-- A field read into its own width is the run of bits it was read from (R71). -/
theorem toNat_ofNat_fieldAt (w : Word) (lo n : Nat) : (BitVec.ofNat n (fieldAt w lo n)).toNat = w.toNat / 2 ^ lo % 2 ^ n := by
  rw [BitVec.toNat_ofNat, fieldAt, Nat.mod_mod]

/-- A field at the low end of the word. -/
theorem toNat_ofNat_lowField (w : Word) (n : Nat) : (BitVec.ofNat n (fieldAt w 0 n)).toNat = w.toNat % 2 ^ n := by
  rw [toNat_ofNat_fieldAt, pow_zero, Nat.div_one]

section
variable (w : Word)

@[simp] theorem rdOf_val : (rdOf w).val = w.toNat / 2 ^ 20 % 2 ^ 4 := rfl
@[simp] theorem raOf_val : (raOf w).val = w.toNat / 2 ^ 16 % 2 ^ 4 := rfl
@[simp] theorem rbOf_val : (rbOf w).val = w.toNat / 2 ^ 12 % 2 ^ 4 := rfl
@[simp] theorem rcOf_val : (rcOf w).val = w.toNat / 2 ^ 8 % 2 ^ 4 := rfl
@[simp] theorem imm12Of_toNat : (imm12Of w).toNat = w.toNat % 2 ^ 12 := toNat_ofNat_lowField w 12
@[simp] theorem imm8Of_toNat : (imm8Of w).toNat = w.toNat % 2 ^ 8 := toNat_ofNat_lowField w 8
@[simp] theorem imm7Of_toNat : (imm7Of w).toNat = w.toNat % 2 ^ 7 := toNat_ofNat_lowField w 7
@[simp] theorem imm4Of_toNat : (imm4Of w).toNat = w.toNat % 2 ^ 4 := toNat_ofNat_lowField w 4
@[simp] theorem i8Of_toNat : (i8Of w).toNat = w.toNat / 2 ^ 8 % 2 ^ 8 := toNat_ofNat_fieldAt w 8 8

end

/-- A row fixes the opcode and the unused bits of a word it accepts (R74), and its operand fields are the rest: the encoder puts
every bit back where the decoder found it. -/
theorem encodeWord_operandsOf {r : OpRow} {w : Word} (hr : r ∈ opRows) (h : r.accepts w = true) :
    encodeWord (operandsOf r.op w) = w := by
  apply encodeWord_eq_of_toNat
  have hw : w.toNat < 2 ^ 32 := w.isLt
  simp only [opRows, scalarRows, polyRows, byteRows, List.cons_append, List.nil_append, List.mem_cons, List.not_mem_nil,
    or_false] at hr
  rcases hr with rfl | rfl | rfl | rfl | rfl | rfl | rfl | rfl | rfl | rfl | rfl | rfl | rfl | rfl | rfl | rfl | rfl |
    rfl | rfl | rfl | rfl
  all_goals
    simp only [accepts_zli, accepts_zadd, accepts_zsub, accepts_zmul, accepts_zpow, accepts_zldz, accepts_zldg, accepts_ntt,
      accepts_intt, accepts_padd, accepts_psub, accepts_pmul, accepts_plc, accepts_xopen, accepts_sampleu, accepts_samplecbd,
      accepts_bclr, accepts_bput, accepts_encode, accepts_decodeR, accepts_decodeT] at h
    simp only [opcodeOf, fieldsOf, operandsOf, rdOf_val, raOf_val, rbOf_val, rcOf_val, imm12Of_toNat, imm8Of_toNat,
      imm7Of_toNat, imm4Of_toNat, i8Of_toNat]
    omega

/-- Settles O16: the row that accepted the word says where each of its bits came from. -/
theorem encodeOfDecodeIsTheWord : Obligations.EncodeOfDecodeIsTheWord := by
  intro w i h
  obtain ⟨r, hr, ha, rfl⟩ := decodeWord_eq_command_iff.1 h
  exact encodeWord_operandsOf hr ha

/-! ### Words that are no command (R76) -/

/-- Both directions are round trips: a decoded word is an encoding (O16), and an encoding decodes (O15). -/
theorem decodeWord_illegal_iff (w : Word) : (∃ why, decodeWord w = .illegal why) ↔ ∀ i, encodeWord i ≠ w := by
  constructor
  · rintro ⟨why, h⟩ i rfl
    cases h.symm.trans (decodeOfEncodeIsTheCommand i)
  · intro h
    cases hd : decodeWord w with
    | illegal why => exact ⟨why, rfl⟩
    | command i => exact absurd (encodeOfDecodeIsTheWord w i hd) (h i)

end Sys2Proof

namespace Sys2Proof.Machine

/-- Settles O4: such a word is rejected by the decoder, and the step then enters the fault. -/
theorem unmatchedWordsRaiseIllegal : Obligations.UnmatchedWordsRaiseIllegal := by
  refine ⟨decodeWord_illegal_iff, fun s w rest hp hs hw => ?_⟩
  obtain ⟨why, hd⟩ := (decodeWord_illegal_iff w).2 hw
  have hlatch : ¬ (withPending s rest).err.isSome = true := by simp [withPending, hs]
  exact (step_of_illegal hp hd).trans (if_neg hlatch)

/-! ### A delivered word that is a command (R70) -/

theorem exec_ne_refused (i : Instr) (s : State) (r : Refusal) : exec i s ≠ .refused r := by
  intro h
  have ha := exec_answers i s
  rw [h] at ha
  nomatch ha

@[simp] theorem resetIfHung_next (s t : State) : resetIfHung s (.next t) = .next t := rfl

/-- A hung command is ended by the reset the host issues next (R250). -/
theorem resetIfHung_hung_reset {s : State} {more : List HostMove} (h : s.pending = .reset :: more) :
    resetIfHung s (.fault .samplerHung) = .next (hostReset s more) := by
  simp only [resetIfHung, h]

/-- A hung command followed by no reset stays hung (R210). -/
theorem resetIfHung_hung {s : State} (h : ∀ more, s.pending ≠ .reset :: more) :
    resetIfHung s (.fault .samplerHung) = .fault .samplerHung := by
  rw [resetIfHung]
  split
  · next more hp => exact absurd hp (h more)
  · rfl

/-- Settles O3: the step is `exec` on the state with the word taken, followed by what a host's reset makes of a hung command. -/
theorem stepRunsTheDeliveredCommand : Obligations.StepRunsTheDeliveredCommand := by
  intro s w rest i hp hd
  have hstep : step s = resetIfHung (withPending s rest) (exec i (withPending s rest)) := step_of_command hp hd
  refine ⟨fun t ht => ?_, exec_ne_refused i _, fun hh hrest => ?_, fun more hh hrest => ?_⟩
  · exact hstep.trans (congrArg _ ht)
  · exact (hstep.trans (congrArg _ hh)).trans (resetIfHung_hung hrest)
  · exact (hstep.trans (congrArg _ hh)).trans (resetIfHung_hung_reset hrest)

/-! ### The examples of R79 -/

theorem zli_raises_range {rd : RegNo} {imm12 : BitVec 12} {s : State} (hs : s.err = none) (h : 3329 ≤ imm12.toNat) :
    Raises (.zli rd imm12) s .range :=
  command_raises hs (by simp [h])

theorem encode_raises_illegal {pa : RegNo} {d : BitVec 4} {s : State} (hs : s.err = none) (h : badWidth d = true) :
    Raises (.encode pa d) s .illegal :=
  command_raises hs (by simp [h])

/-- Settles O14: the words by evaluating the decoder, the two causes by the first check of the command. -/
theorem exampleWordsDecode : Obligations.ExampleWordsDecode :=
  ⟨by decide, by decide, fun _ hs => ⟨zli_raises_range hs (by decide), encode_raises_illegal hs (by decide)⟩⟩

end Sys2Proof.Machine
end

section
/-! Statements about the scalar commands (40_zq_arithmetic.md R104 to R111): the word of each command, what it writes, and the
laws of the field functions. The field laws go through `toZ` to the ring `ZMod 3329`. -/
namespace Sys2Proof.Machine

/-! ### The word of a command (R74, R75) -/

/-- A command is the decoding of the word its opcode and fields make up, and of no other: decoder and encoder are inverse to each
other (O15, O16). -/
theorem isTheWordOf_opcode_fields (i : Instr) {n : Nat} (hn : opcodeOf i * 2 ^ 24 + fieldsOf i = n) : IsTheWordOf n i := by
  subst hn
  refine fun w => ⟨fun h => ?_, fun h => ?_⟩
  · rw [← encodeOfDecodeIsTheWord w i h, encodeWord_toNat i (fieldsOf_lt i)]
  · rw [← encodeWord_eq_of_toNat h.symm, decodeOfEncodeIsTheCommand i]

/-! ### Scalar commands with one check -/

section
variable {i : Instr} {s : State} {rd ra rb : RegNo} {v : FieldElement} {n : Nat}

/-- A scalar command with one check completes if the check passes and raises its cause if it fails. -/
theorem checked_scalar_spec {bad : Bool} {c : Cause} (hs : s.err = none) (hv : v.val = n)
    (hi : exec i s = command i s [(bad, c)] (complete (writeScalar s rd v))) :
    (bad = false → ∃ t, exec i s = .next t ∧ WroteScalar s t rd n) ∧ (bad = true → Raises i s c) := by
  refine ⟨fun pass => ?_, fun fail => ?_⟩
  · rw [hi]
    exact scalar_completes hs (by simp [pass]) hv
  · exact hi.trans (command_raises hs (by simp [fail]))

/-- A scalar command whose check is on one source completes if it is valid and raises `EMPTY` if it is not. -/
theorem unary_scalar_spec (hs : s.err = none) (hv : v.val = n)
    (hi : exec i s = command i s [(scalarEmpty s ra, .empty)] (complete (writeScalar s rd v))) :
    (s.sval[ra] = true → ∃ t, exec i s = .next t ∧ WroteScalar s t rd n) ∧ (s.sval[ra] = false → Raises i s .empty) := by
  obtain ⟨completes, raises⟩ := checked_scalar_spec hs hv hi
  exact ⟨fun ha => completes (by simp [scalarEmpty_eq, ha]), fun ha => raises (by simp [scalarEmpty_eq, ha])⟩

/-- A scalar command whose check is on two sources completes if both are valid and raises `EMPTY` if one is not. -/
theorem binary_scalar_spec (hs : s.err = none) (hv : v.val = n)
    (hi : exec i s = command i s [(scalarEmpty s ra || scalarEmpty s rb, .empty)] (complete (writeScalar s rd v))) :
    (s.sval[ra] = true → s.sval[rb] = true → ∃ t, exec i s = .next t ∧ WroteScalar s t rd n) ∧
    (s.sval[ra] = false ∨ s.sval[rb] = false → Raises i s .empty) := by
  obtain ⟨completes, raises⟩ := checked_scalar_spec hs hv hi
  refine ⟨fun ha hb => completes (by simp [scalarEmpty_eq, ha, hb]), ?_⟩
  rintro (ha | hb)
  · exact raises (by simp [scalarEmpty_eq, ha])
  · exact raises (by simp [scalarEmpty_eq, hb])

end

/-! ### The commands (R104 to R110) -/

/-- Settles O27: the one check is `imm12 ≥ 3329`. -/
theorem zliLoadsAFieldElement : Obligations.ZliLoadsAFieldElement := fun rd imm12 => by
  refine ⟨isTheWordOf_opcode_fields _ (Nat.add_assoc _ _ _).symm, fun s hs => ⟨fun h => ?_, zli_raises_range hs⟩⟩
  exact scalar_completes (i := .zli rd imm12) hs (by simp [h]) (by rw [toField_of_lt h])

/-- Opcode and fields of a command with three registers, added up from the left (R72). -/
theorem wordOf_threeRegs (op rd ra rb : Nat) :
    op * 2 ^ 24 + (rd * 2 ^ 20 + ra * 2 ^ 16 + rb * 2 ^ 12) = op * 2 ^ 24 + rd * 2 ^ 20 + ra * 2 ^ 16 + rb * 2 ^ 12 := by
  omega

/-- Settles O28: the sum as R100 defines it, after the check on both sources. -/
theorem zaddAddsModuloQ : Obligations.ZaddAddsModuloQ := fun _ _ _ =>
  ⟨isTheWordOf_opcode_fields _ (wordOf_threeRegs _ _ _ _), fun _ hs => binary_scalar_spec hs (zadd_val _ _) rfl⟩

/-- `zsub` by the case split of R101. -/
theorem zsub_val_eq_ite (a b : FieldElement) :
    (zsub a b).val = if a.val < b.val then a.val + 3329 - b.val else a.val - b.val := by
  rw [zsub_val]
  split <;> omega

/-- Settles O29: the difference in R101's two cases, after the check on both sources. -/
theorem zsubSubtractsModuloQ : Obligations.ZsubSubtractsModuloQ := fun _ _ _ =>
  ⟨isTheWordOf_opcode_fields _ (wordOf_threeRegs _ _ _ _), fun _ hs => binary_scalar_spec hs (zsub_val_eq_ite _ _) rfl⟩

/-- Settles O30: the product as R102 defines it, after the check on both sources. -/
theorem zmulMultipliesModuloQ : Obligations.ZmulMultipliesModuloQ := fun _ _ _ =>
  ⟨isTheWordOf_opcode_fields _ (wordOf_threeRegs _ _ _ _), fun _ hs => binary_scalar_spec hs (zmul_val _ _) rfl⟩

/-- Settles O31: an immediate of 12 bits is an exponent square-and-multiply covers. -/
theorem zpowRaisesToThePower : Obligations.ZpowRaisesToThePower := fun rd ra imm12 =>
  ⟨isTheWordOf_opcode_fields _ (by simp only [opcodeOf, fieldsOf]; omega),
    fun _ hs => unary_scalar_spec hs (zpow_val _ _ imm12.isLt) rfl⟩

/-- Settles O32: no check, and the ROM holds the power. -/
theorem zldzReadsZeta : Obligations.ZldzReadsZeta := fun rd imm7 =>
  ⟨isTheWordOf_opcode_fields _ (Nat.add_assoc _ _ _).symm, fun _ hs =>
    scalar_completes (i := .zldz rd imm7) hs firstFailing_nil (twiddles_are_powers _ imm7.isLt).1⟩

/-- Settles O33: no check, and the ROM holds the power. -/
theorem zldgReadsGamma : Obligations.ZldgReadsGamma := fun rd imm7 =>
  ⟨isTheWordOf_opcode_fields _ (Nat.add_assoc _ _ _).symm, fun _ hs =>
    scalar_completes (i := .zldg rd imm7) hs firstFailing_nil (twiddles_are_powers _ imm7.isLt).2⟩

/-! ### The field laws (R111) -/

section
variable (a b c : FieldElement)

theorem zadd_comm : zadd a b = zadd b a := toZ_injective (by simp only [toZ_zadd]; ring)

theorem zmul_comm : zmul a b = zmul b a := toZ_injective (by simp only [toZ_zmul]; ring)

theorem zadd_assoc : zadd (zadd a b) c = zadd a (zadd b c) := toZ_injective (by simp only [toZ_zadd]; ring)

theorem zmul_assoc : zmul (zmul a b) c = zmul a (zmul b c) := toZ_injective (by simp only [toZ_zmul]; ring)

theorem zmul_zadd : zmul a (zadd b c) = zadd (zmul a b) (zmul a c) :=
  toZ_injective (by simp only [toZ_zadd, toZ_zmul]; ring)

theorem zsub_eq_zadd_neg : zsub a b = zadd a (zsub 0 b) :=
  toZ_injective (by simp only [toZ_zadd, toZ_zsub, toZ_zero]; ring)

@[simp] theorem zadd_zero : zadd a 0 = a := toZ_injective (by simp)

@[simp] theorem zmul_one : zmul a 1 = a := toZ_injective (by simp)

@[simp] theorem zero_zmul : zmul 0 a = 0 := toZ_injective (by simp)

end

theorem toZ_ne_zero {a : FieldElement} (ha : a ≠ 0) : toZ a ≠ 0 := fun h => ha (toZ_injective (h.trans toZ_zero.symm))

/-- The inverse of a nonzero element is its power 3327, by Fermat's little theorem for the prime 3329. -/
theorem zmul_zpow_inverse {a : FieldElement} (ha : a ≠ 0) : zmul a (zpow a 3327) = 1 := by
  have prime : Fact (Nat.Prime 3329) := ⟨by norm_num⟩
  apply toZ_injective
  calc toZ (zmul a (zpow a 3327)) = toZ a ^ (3329 - 1) := by
        rw [toZ_zmul, toZ_zpow a 3327 (by decide), ← pow_succ']
    _ = 1 := ZMod.pow_card_sub_one_eq_one (toZ_ne_zero ha)
    _ = toZ 1 := toZ_one.symm

/-- The negative of a nonzero element. -/
theorem zero_zsub_val {a : FieldElement} (ha : a ≠ 0) : (zsub 0 a).val = 3329 - a.val := by
  have pos : (0 : FieldElement).val < a.val := Nat.pos_of_ne_zero fun h => ha (Fin.ext h)
  rw [zsub_val_eq_ite, if_pos pos, Fin.val_zero, Nat.zero_add]

/-- Settles O34, law by law; the values of R111 by evaluation. -/
theorem fieldFunctionsFormAField : Obligations.FieldFunctionsFormAField :=
  ⟨fun a b c => ⟨zadd_comm a b, zmul_comm a b, zadd_assoc a b c, zmul_assoc a b c, zmul_zadd a b c, zsub_eq_zadd_neg a b,
    zadd_zero a, zmul_one a, zero_zmul b, fun ha => ⟨zmul_zpow_inverse ha, zero_zsub_val ha⟩⟩, by decide, by decide, by decide⟩

end Sys2Proof.Machine
end

section
/-! Statements about the transforms (41_ntt.md R120 to R126, R152). Both transforms are runs of stages, and a stage is a relation
between two polynomials (`IsStage`): each pair of cells of a block is replaced by the two outputs of one butterfly. The model's
block form and the spec's in-place loops are the same stage, and the laws of the transforms are laws of the butterflies. -/
namespace Sys2Proof.Machine

/-! ### The commands (R122, R124) -/

/-- A command with one polynomial source, which has to be tagged `need`: it completes, or raises `EMPTY` or `DOMAIN`. -/
theorem unary_poly_spec {i : Instr} {s : State} {pd pa : RegNo} {need g : Tag} {f : Coeffs} (hs : s.err = none)
    (hneed : need ≠ .empty)
    (hi : exec i s = command i s [(polyEmpty s pa, .empty), (notDomain s need pa, .domain)]
      (complete (writePoly s pd f g))) :
    (s.ptag[pa] = need → ∃ t, exec i s = .next t ∧ WrotePoly s t pd g ∧ t.xpos = s.xpos ∧ t.preg[pd] = f) ∧
    (s.ptag[pa] = .empty → Raises i s .empty) ∧
    (s.ptag[pa] ≠ .empty → s.ptag[pa] ≠ need → Raises i s .domain) := by
  refine ⟨fun h => ?_, fun h => ?_, fun hE h => ?_⟩
  · rw [hi]
    exact poly_completes hs (by simp [polyEmpty_eq, notDomain_eq, h, hneed])
  · exact hi.trans (command_raises hs (by simp [polyEmpty_eq, h]))
  · exact hi.trans (command_raises hs (by
      rw [firstFailing_cons, firstFailing_cons, polyEmpty_eq, notDomain_eq, decide_eq_false hE, decide_eq_true h]; rfl))

/-- Settles O35: the source has to be tagged `R`. -/
theorem nttTransformsRqToTq : Obligations.NttTransformsRqToTq := fun pd pa => by
  refine ⟨isTheWordOf_opcode_fields _ (Nat.add_assoc _ _ _).symm, fun s hs => ?_⟩
  obtain ⟨completes, empty, domain⟩ := unary_poly_spec (i := .ntt pd pa) hs (need := .rq) (by decide) rfl
  exact ⟨completes, empty, fun h => domain (by simp [h]) (by simp [h])⟩

/-- Settles O36: the source has to be tagged `T`. -/
theorem inttTransformsTqToRq : Obligations.InttTransformsTqToRq := fun pd pa => by
  refine ⟨isTheWordOf_opcode_fields _ (Nat.add_assoc _ _ _).symm, fun s hs => ?_⟩
  obtain ⟨completes, empty, domain⟩ := unary_poly_spec (i := .intt pd pa) hs (need := .tq) (by decide) rfl
  exact ⟨completes, empty, fun h => domain (by simp [h]) (by simp [h])⟩

/-! ### Stages (R121, R123) -/

/-- What a butterfly with twiddle `z` puts in place of the cells `f[j]` and `f[j+len]`. -/
structure Butterfly where
  lo : FieldElement → FieldElement → FieldElement → FieldElement
  hi : FieldElement → FieldElement → FieldElement → FieldElement

/-- The butterfly of R121. -/
def forwardButterfly : Butterfly := ⟨fun z a b => zadd a (zmul z b), fun z a b => zsub a (zmul z b)⟩

/-- The butterfly of R123. -/
def inverseButterfly : Butterfly := ⟨fun _ a b => zadd a b, fun z a b => zmul z (zsub b a)⟩

/-- `g` has at `j` and `j + len` what the butterfly with twiddle `z` makes of these cells of `f`. -/
structure PairReplaced (B : Butterfly) (z : FieldElement) (len : Nat) (f g : Coeffs) (j : Nat) : Prop where
  lo : cell g j = B.lo z (cell f j) (cell f (j + len))
  hi : cell g (j + len) = B.hi z (cell f j) (cell f (j + len))

/-- `g` is `f` after a stage: the butterfly has replaced the `len` pairs of each block `b`, with twiddle `z b`. -/
def IsStage (B : Butterfly) (z : Nat → FieldElement) (len : Nat) (f g : Coeffs) : Prop :=
  ∀ b r, b < 128 / len → r < len → PairReplaced B (z b) len f g (b * (2 * len) + r)

/-- The twiddle of block `b` of the forward stage `len` (R121). -/
def forwardTwiddle (len b : Nat) : FieldElement := zeta (128 / len + b)

/-- The twiddle of block `b` of the inverse stage `len` (R123). -/
def inverseTwiddle (len b : Nat) : FieldElement := zeta (256 / len - 1 - b)

/-- The forward stage `len` as the model computes it. -/
def nttStage (f : Coeffs) (len : Nat) : Coeffs := ofValues (nttBlocks len (128 / len) (128 / len) f.toList)

/-- The inverse stage `len` as the model computes it. -/
def inttStage (f : Coeffs) (len : Nat) : Coeffs := ofValues (inttBlocks len (128 / len) (256 / len - 1) f.toList)

/-- The stages of the forward transform, in order; the inverse transform has them in the opposite order. -/
def stageLens : List Nat := [128, 64, 32, 16, 8, 4, 2]

theorem dvd_of_mem_stageLens {len : Nat} (h : len ∈ stageLens) : len ∣ 128 := by
  revert len; decide

section
variable {len : Nat}

/-- The blocks of a stage make up the 256 cells. -/
theorem blocks_mul_width (h : len ∣ 128) : 128 / len * (2 * len) = 256 := by
  rw [Nat.mul_left_comm, Nat.div_mul_cancel h]

theorem block_end_le (h : len ∣ 128) {b : Nat} (hb : b < 128 / len) : b * (2 * len) + 2 * len ≤ 256 := by
  rw [← Nat.succ_mul, ← blocks_mul_width h]
  exact Nat.mul_le_mul_right _ hb

/-- Polynomials are equal if the two halves of each block of a stage are. -/
theorem coeffs_ext_blocks (h : len ∣ 128) {f g : Coeffs}
    (hfg : ∀ b r, b < 128 / len → r < len → cell f (b * (2 * len) + r) = cell g (b * (2 * len) + r) ∧
      cell f (b * (2 * len) + r + len) = cell g (b * (2 * len) + r + len)) : f = g := by
  refine coeffs_ext fun n hn => ?_
  have hb : n / (2 * len) < 128 / len := Nat.div_lt_of_lt_mul (by rwa [Nat.mul_comm, blocks_mul_width h])
  have hn := Nat.div_add_mod' n (2 * len)
  have hr : n % (2 * len) < 2 * len := Nat.mod_lt _ (by have := Nat.pos_of_dvd_of_pos h (by decide); omega)
  by_cases hlo : n % (2 * len) < len
  · have := (hfg _ _ hb hlo).1
    rwa [hn] at this
  · have := (hfg _ (n % (2 * len) - len) hb (by omega)).2
    rwa [Nat.add_assoc, Nat.sub_add_cancel (by omega), hn] at this

/-- A polynomial has one outcome after a stage. -/
theorem IsStage.unique {B : Butterfly} {z : Nat → FieldElement} {f g g' : Coeffs} (h : len ∣ 128)
    (hg : IsStage B z len f g) (hg' : IsStage B z len f g') : g = g' := by
  refine coeffs_ext_blocks h fun b r hb hr => ?_
  obtain ⟨lo, hi⟩ := hg b r hb hr
  obtain ⟨lo', hi'⟩ := hg' b r hb hr
  exact ⟨lo.trans lo'.symm, hi.trans hi'.symm⟩

theorem length_toList_eq_blocks (h : len ∣ 128) (f : Coeffs) : f.toList.length = 128 / len * (2 * len) := by
  rw [blocks_mul_width h, Vector.length_toList]

theorem toList_nttStage (h : len ∣ 128) (f : Coeffs) :
    (nttStage f len).toList = nttBlocks len (128 / len) (128 / len) f.toList :=
  toList_ofValues _ (by rw [length_nttBlocks _ _ _ _ (length_toList_eq_blocks h f), blocks_mul_width h])

theorem toList_inttStage (h : len ∣ 128) (f : Coeffs) :
    (inttStage f len).toList = inttBlocks len (128 / len) (256 / len - 1) f.toList :=
  toList_ofValues _ (by rw [length_inttBlocks _ _ _ _ (length_toList_eq_blocks h f), blocks_mul_width h])

/-- The model's forward stage, pair by pair (R121). -/
theorem isStage_nttStage (h : len ∣ 128) (f : Coeffs) :
    IsStage forwardButterfly (forwardTwiddle len) len f (nttStage f len) := by
  intro b r hb hr
  obtain ⟨lo, hi⟩ := getD_nttBlocks len _ (128 / len) _ (length_toList_eq_blocks h f) b r hb hr
  rw [← toList_nttStage h f] at lo hi
  exact ⟨lo, hi⟩

/-- The model's inverse stage, pair by pair (R123). -/
theorem isStage_inttStage (h : len ∣ 128) (f : Coeffs) :
    IsStage inverseButterfly (inverseTwiddle len) len f (inttStage f len) := by
  intro b r hb hr
  obtain ⟨lo, hi⟩ := getD_inttBlocks len _ (256 / len - 1) _ (length_toList_eq_blocks h f) b r hb hr
  rw [← toList_inttStage h f] at lo hi
  exact ⟨lo, hi⟩

end

/-- If each stage is `blocks` on the list of cells, a run of stages is a run of `blocks`. -/
theorem toList_foldl_stages {stage : Coeffs → Nat → Coeffs} {blocks : List FieldElement → Nat → List FieldElement}
    {lens : List Nat} (h : ∀ len ∈ lens, ∀ f, (stage f len).toList = blocks f.toList len) (f : Coeffs) :
    (lens.foldl stage f).toList = lens.foldl blocks f.toList := by
  induction lens generalizing f with
  | nil => rfl
  | cons len lens ih =>
    rw [List.foldl_cons, List.foldl_cons, ih fun l hl => h l (List.mem_cons_of_mem _ hl), h len List.mem_cons_self]

/-- The forward transform is a run of stages. -/
theorem ntt_eq_stages (f : Coeffs) : ntt f = stageLens.foldl nttStage f := by
  rw [← ofValues_toList (stageLens.foldl nttStage f),
    toList_foldl_stages (blocks := fun g len => nttBlocks len (128 / len) (128 / len) g)
      fun len hl => toList_nttStage (dvd_of_mem_stageLens hl)]
  rfl

/-- The inverse transform is a run of stages, followed by the scaling. -/
theorem intt_eq_stages (f : Coeffs) : intt f = (stageLens.reverse.foldl inttStage f).map fun x => zmul x 3303 := by
  rw [← ofValues_toList (Vector.map _ _), Vector.toList_map,
    toList_foldl_stages (blocks := fun g len => inttBlocks len (128 / len) (256 / len - 1) g)
      fun len hl => toList_inttStage (dvd_of_mem_stageLens (List.mem_reverse.1 hl))]
  rfl

/-! ### The in-place loops are stages (R121, R123) -/

theorem cell_setCell_self (f : Coeffs) (j : Nat) (v : FieldElement) (hj : j < 256) : cell (setCell f j v) j = v := by
  rw [cell_eq_getElem _ _ hj, setCell, Vector.getElem_setIfInBounds_self]

theorem cell_setCell_ne (f : Coeffs) (j n : Nat) (v : FieldElement) (h : n ≠ j) : cell (setCell f j v) n = cell f n := by
  simp [cell, setCell, List.getD_eq_getElem?_getD, h.symm]

/-- The body of the innermost loop replaces the pair of cells at `j` and changes no other cell. -/
def ReplacesPair (B : Butterfly) (z : FieldElement) (len : Nat) (body : Coeffs → Nat → Coeffs) : Prop :=
  ∀ f j, j + len < 256 →
    PairReplaced B z len f (body f j) j ∧ ∀ n, n ≠ j → n ≠ j + len → cell (body f j) n = cell f n

theorem nttButterfly_replacesPair (z : FieldElement) {len : Nat} (h : 0 < len) :
    ReplacesPair forwardButterfly z len (nttButterfly z len) := by
  intro f j hj
  refine ⟨⟨cell_setCell_self _ _ _ (by omega), ?_⟩, fun n h1 h2 => ?_⟩
  · rw [nttButterfly, cell_setCell_ne _ _ _ _ (by omega), cell_setCell_self _ _ _ hj]; rfl
  · rw [nttButterfly, cell_setCell_ne _ _ _ _ h1, cell_setCell_ne _ _ _ _ h2]

theorem inttButterfly_replacesPair (z : FieldElement) {len : Nat} (h : 0 < len) :
    ReplacesPair inverseButterfly z len (inttButterfly z len) := by
  intro f j hj
  refine ⟨⟨?_, cell_setCell_self _ _ _ hj⟩, fun n h1 h2 => ?_⟩
  · rw [inttButterfly, cell_setCell_ne _ _ _ _ (by omega), cell_setCell_self _ _ _ (by omega)]; rfl
  · rw [inttButterfly, cell_setCell_ne _ _ _ _ h2, cell_setCell_ne _ _ _ _ h1]

/-- The cells a butterfly reads may be read from any polynomial that has them. -/
theorem PairReplaced.of_source {B : Butterfly} {z : FieldElement} {len j : Nat} {f f' g : Coeffs}
    (h : PairReplaced B z len f' g j) (lo : cell f' j = cell f j) (hi : cell f' (j + len) = cell f (j + len)) :
    PairReplaced B z len f g j :=
  ⟨by rw [h.lo, lo, hi], by rw [h.hi, lo, hi]⟩

/-- The innermost loop after `count` turns: the first `count` pairs of the block are replaced, and nothing else. -/
theorem innerLoop_cells {B : Butterfly} {z : FieldElement} {len start : Nat} {body : Coeffs → Nat → Coeffs}
    (hbody : ReplacesPair B z len body) (f : Coeffs) (count : Nat) (hc : count ≤ len) (hend : start + count + len ≤ 256) :
    (∀ r, r < count → PairReplaced B z len f ((List.range' start count).foldl body f) (start + r)) ∧
    ∀ n, (∀ r, r < count → n ≠ start + r ∧ n ≠ start + r + len) →
      cell ((List.range' start count).foldl body f) n = cell f n := by
  induction count with
  | zero => exact ⟨fun r hr => by omega, fun n _ => rfl⟩
  | succ c ih =>
    obtain ⟨done, rest⟩ := ih (by omega) (by omega)
    rw [List.range'_1_concat, List.foldl_append, List.foldl_cons, List.foldl_nil]
    obtain ⟨pair, other⟩ := hbody ((List.range' start c).foldl body f) (start + c) (by omega)
    refine ⟨fun r hr => ?_, fun n hn => ?_⟩
    · rcases Nat.lt_succ_iff_lt_or_eq.1 hr with hr | rfl
      · exact ⟨(other _ (by omega) (by omega)).trans (done r hr).lo,
          (other _ (by omega) (by omega)).trans (done r hr).hi⟩
      · exact pair.of_source (rest _ fun _ _ => by omega) (rest _ fun _ _ => by omega)
    · obtain ⟨h1, h2⟩ := hn c (Nat.lt_succ_self c)
      exact (other n h1 h2).trans (rest n fun r hr => hn r (by omega))

/-- The body of the middle loop, for an innermost loop with body `body` and a running index moved by `move`. -/
def loopBlock (body : FieldElement → Coeffs → Nat → Coeffs) (move : Nat → Nat) (len : Nat) (fk : Coeffs × Nat)
    (start : Nat) : Coeffs × Nat :=
  ((List.range' start len).foldl (body (zeta fk.2)) fk.1, move fk.2)

/-- The middle loop, for the first `count` blocks. -/
def middleLoop (body : FieldElement → Coeffs → Nat → Coeffs) (move : Nat → Nat) (len count : Nat) (fk : Coeffs × Nat) :
    Coeffs × Nat :=
  ((List.range count).map fun b => b * (2 * len)).foldl (loopBlock body move len) fk

/-- One block more. -/
theorem middleLoop_succ (body : FieldElement → Coeffs → Nat → Coeffs) (move : Nat → Nat) (len count : Nat)
    (fk : Coeffs × Nat) : middleLoop body move len (count + 1) fk =
      loopBlock body move len (middleLoop body move len count fk) (count * (2 * len)) := by
  rw [middleLoop, List.range_succ, List.map_append, List.foldl_append]; rfl

/-- The middle loop after `count` blocks: their pairs are replaced, and the cells above them have not changed. -/
theorem middleLoop_cells {B : Butterfly} {body : FieldElement → Coeffs → Nat → Coeffs} (move : Nat → Nat) {len : Nat}
    (hbody : ∀ z, ReplacesPair B z len (body z)) (f : Coeffs) (k count : Nat) (hend : count * (2 * len) ≤ 256) :
    (middleLoop body move len count (f, k)).2 = move^[count] k ∧
    (∀ b r, b < count → r < len →
      PairReplaced B (zeta (move^[b] k)) len f (middleLoop body move len count (f, k)).1 (b * (2 * len) + r)) ∧
    ∀ n, count * (2 * len) ≤ n → cell (middleLoop body move len count (f, k)).1 n = cell f n := by
  induction count with
  | zero => exact ⟨rfl, fun b r hb => by omega, fun n _ => rfl⟩
  | succ c ih =>
    rw [Nat.succ_mul] at hend
    obtain ⟨index, done, rest⟩ := ih (by omega)
    rw [middleLoop_succ]
    set fk := middleLoop body move len c (f, k)
    obtain ⟨block, other⟩ := innerLoop_cells (hbody (zeta fk.2)) fk.1 (start := c * (2 * len)) len le_rfl (by omega)
    refine ⟨?_, fun b r hb hr => ?_, fun n hn => ?_⟩
    · rw [Function.iterate_succ_apply', ← index]; rfl
    · rcases Nat.lt_succ_iff_lt_or_eq.1 hb with hb | rfl
      · have before : b * (2 * len) + 2 * len ≤ c * (2 * len) := by
          rw [← Nat.succ_mul]; exact Nat.mul_le_mul_right _ hb
        exact ⟨(other _ fun _ _ => by omega).trans (done b r hb hr).lo,
          (other _ fun _ _ => by omega).trans (done b r hb hr).hi⟩
      · rw [← index]
        exact (block r hr).of_source (rest _ (by omega)) (rest _ (by omega))
    · rw [Nat.succ_mul] at hn
      exact (other n fun _ _ => by omega).trans (rest n (by omega))

theorem nttLoop_eq_middleLoop (len : Nat) (fk : Coeffs × Nat) : (blockStarts len).foldl (nttLoopBlock len) fk =
    middleLoop (fun z => nttButterfly z len) Nat.succ len (128 / len) fk := rfl

theorem inttLoop_eq_middleLoop (len : Nat) (fk : Coeffs × Nat) : (blockStarts len).foldl (inttLoopBlock len) fk =
    middleLoop (fun z => inttButterfly z len) Nat.pred len (128 / len) fk := rfl

/-- The middle loop of R121 is the forward stage, and leaves the running index at the next stage's first twiddle. -/
theorem nttLoop_stage {len k : Nat} (h : len ∣ 128) (f : Coeffs) (hk : k = 128 / len) :
    (blockStarts len).foldl (nttLoopBlock len) (f, k) = (nttStage f len, 2 * k) := by
  subst hk
  have pos := Nat.pos_of_dvd_of_pos h (by decide)
  obtain ⟨index, cells, -⟩ := middleLoop_cells Nat.succ (fun z => nttButterfly_replacesPair z pos) f _ (128 / len)
    (blocks_mul_width h).le
  rw [nttLoop_eq_middleLoop]
  refine Prod.ext (IsStage.unique h (B := forwardButterfly) (z := forwardTwiddle len) ?_ (isStage_nttStage h f)) ?_
  · intro b r hb hr
    have := cells b r hb hr
    rwa [Nat.succ_iterate] at this
  · exact index.trans ((Nat.succ_iterate _ _).trans (Nat.two_mul _).symm)

/-- The middle loop of R123 is the inverse stage, and leaves the running index at the next stage's first twiddle. -/
theorem inttLoop_stage {len k : Nat} (h : len ∣ 128) (f : Coeffs) (hk : k = 256 / len - 1) :
    (blockStarts len).foldl (inttLoopBlock len) (f, k) = (inttStage f len, k - 128 / len) := by
  subst hk
  have pos := Nat.pos_of_dvd_of_pos h (by decide)
  obtain ⟨index, cells, -⟩ := middleLoop_cells Nat.pred (fun z => inttButterfly_replacesPair z pos) f _ (128 / len)
    (blocks_mul_width h).le
  rw [inttLoop_eq_middleLoop]
  refine Prod.ext (IsStage.unique h (B := inverseButterfly) (z := inverseTwiddle len) ?_ (isStage_inttStage h f)) ?_
  · intro b r hb hr
    have := cells b r hb hr
    rwa [Nat.pred_iterate] at this
  · exact index.trans (Nat.pred_iterate _ _)

/-- Settles O37: stage by stage, the running index stands at each stage's first twiddle. -/
theorem transformsAreTheInPlaceLoops : Obligations.TransformsAreTheInPlaceLoops := by
  refine fun f => ⟨?_, ?_⟩
  · rw [ntt_eq_stages, nttLoops]
    simp (disch := decide) only [stageLens, List.foldl_cons, List.foldl_nil, nttLoop_stage]
  · rw [intt_eq_stages, inttLoops, show stageLens.reverse = [2, 4, 8, 16, 32, 64, 128] from rfl]
    simp (disch := decide) only [List.foldl_cons, List.foldl_nil, inttLoop_stage]

/-! ### Linearity (R126) -/

/-- A function on polynomials that commutes with sums and with the multiplication of every coefficient by a constant. -/
structure IsLinear (T : Coeffs → Coeffs) : Prop where
  add : ∀ f g, T (padd f g) = padd (T f) (T g)
  scale : ∀ c f, T (f.map (zmul c)) = (T f).map (zmul c)

/-- A butterfly that is linear in its two cells. -/
structure Butterfly.IsLinear (B : Butterfly) : Prop where
  lo_add : ∀ z a b a' b', B.lo z (zadd a a') (zadd b b') = zadd (B.lo z a b) (B.lo z a' b')
  hi_add : ∀ z a b a' b', B.hi z (zadd a a') (zadd b b') = zadd (B.hi z a b) (B.hi z a' b')
  lo_scale : ∀ z c a b, B.lo z (zmul c a) (zmul c b) = zmul c (B.lo z a b)
  hi_scale : ∀ z c a b, B.hi z (zmul c a) (zmul c b) = zmul c (B.hi z a b)

theorem forward_isLinear : forwardButterfly.IsLinear where
  lo_add z a b a' b' := toZ_injective (by simp only [forwardButterfly, toZ_zadd, toZ_zmul]; ring)
  hi_add z a b a' b' := toZ_injective (by simp only [forwardButterfly, toZ_zadd, toZ_zsub, toZ_zmul]; ring)
  lo_scale z c a b := toZ_injective (by simp only [forwardButterfly, toZ_zadd, toZ_zmul]; ring)
  hi_scale z c a b := toZ_injective (by simp only [forwardButterfly, toZ_zsub, toZ_zmul]; ring)

theorem inverse_isLinear : inverseButterfly.IsLinear where
  lo_add z a b a' b' := toZ_injective (by simp only [inverseButterfly, toZ_zadd]; ring)
  hi_add z a b a' b' := toZ_injective (by simp only [inverseButterfly, toZ_zadd, toZ_zsub, toZ_zmul]; ring)
  lo_scale z c a b := toZ_injective (by simp only [inverseButterfly, toZ_zadd, toZ_zmul]; ring)
  hi_scale z c a b := toZ_injective (by simp only [inverseButterfly, toZ_zsub, toZ_zmul]; ring)

section
variable {len : Nat} {B : Butterfly} {z : Nat → FieldElement} {f g f' g' : Coeffs}

/-- The cells of a block of a stage are cells of the polynomial. -/
theorem blockCell_lt (h : len ∣ 128) {b r : Nat} (hb : b < 128 / len) (hr : r < len) :
    b * (2 * len) + r < 256 ∧ b * (2 * len) + r + len < 256 := by
  have := block_end_le h hb
  omega

theorem IsStage.add (hB : B.IsLinear) (h : len ∣ 128) (hf : IsStage B z len f f') (hg : IsStage B z len g g') :
    IsStage B z len (padd f g) (padd f' g') := by
  intro b r hb hr
  obtain ⟨lt, lt'⟩ := blockCell_lt h hb hr
  obtain ⟨flo, fhi⟩ := hf b r hb hr
  obtain ⟨glo, ghi⟩ := hg b r hb hr
  constructor
  · rw [cell_padd _ _ _ lt, cell_padd _ _ _ lt, cell_padd _ _ _ lt', flo, glo, hB.lo_add]
  · rw [cell_padd _ _ _ lt, cell_padd _ _ _ lt', cell_padd _ _ _ lt', fhi, ghi, hB.hi_add]

theorem IsStage.scale (hB : B.IsLinear) (h : len ∣ 128) (hf : IsStage B z len f f') (c : FieldElement) :
    IsStage B z len (f.map (zmul c)) (f'.map (zmul c)) := by
  intro b r hb hr
  obtain ⟨lt, lt'⟩ := blockCell_lt h hb hr
  obtain ⟨lo, hi⟩ := hf b r hb hr
  constructor
  · rw [cell_map _ _ _ lt, cell_map _ _ _ lt, cell_map _ _ _ lt', lo, hB.lo_scale]
  · rw [cell_map _ _ _ lt, cell_map _ _ _ lt', cell_map _ _ _ lt', hi, hB.hi_scale]

/-- A stage with a linear butterfly is linear. -/
theorem isLinear_of_isStage {T : Coeffs → Coeffs} (hB : B.IsLinear) (h : len ∣ 128) (hT : ∀ f, IsStage B z len f (T f)) :
    IsLinear T where
  add f g := (hT _).unique h ((hT f).add hB h (hT g))
  scale c f := (hT _).unique h ((hT f).scale hB h c)

end

theorem nttStage_isLinear {len : Nat} (h : len ∣ 128) : IsLinear (nttStage · len) :=
  isLinear_of_isStage forward_isLinear h (isStage_nttStage h)

theorem inttStage_isLinear {len : Nat} (h : len ∣ 128) : IsLinear (inttStage · len) :=
  isLinear_of_isStage inverse_isLinear h (isStage_inttStage h)

theorem IsLinear.comp {S T : Coeffs → Coeffs} (hS : IsLinear S) (hT : IsLinear T) : IsLinear fun f => S (T f) where
  add f g := by rw [hT.add, hS.add]
  scale c f := by rw [hT.scale, hS.scale]

/-- A run of linear stages is linear. -/
theorem foldl_isLinear {stage : Coeffs → Nat → Coeffs} {lens : List Nat} (h : ∀ len ∈ lens, IsLinear (stage · len)) :
    IsLinear (lens.foldl stage) := by
  induction lens with
  | nil => exact ⟨fun _ _ => rfl, fun _ _ => rfl⟩
  | cons len lens ih =>
    have first := h len List.mem_cons_self
    have rest := ih fun l hl => h l (List.mem_cons_of_mem _ hl)
    exact rest.comp first

theorem ntt_isLinear : IsLinear ntt := by
  rw [funext ntt_eq_stages]
  exact foldl_isLinear fun len hl => nttStage_isLinear (dvd_of_mem_stageLens hl)

/-- The final scaling of the inverse transform is a multiplication of every coefficient by a constant. -/
theorem intt_eq_scaled_stages (f : Coeffs) : intt f = (stageLens.reverse.foldl inttStage f).map (zmul 3303) := by
  rw [intt_eq_stages, funext (zmul_comm 3303)]

theorem zmul_left_comm (a b c : FieldElement) : zmul a (zmul b c) = zmul b (zmul a c) := by
  rw [← zmul_assoc, zmul_comm a b, zmul_assoc]

theorem map_zmul_isLinear (d : FieldElement) : IsLinear fun f => f.map (zmul d) where
  add f g := coeffs_ext fun n hn => by simp only [cell_map _ _ _ hn, cell_padd _ _ _ hn, zmul_zadd]
  scale c f := coeffs_ext fun n hn => by simp only [cell_map _ _ _ hn, zmul_left_comm]

theorem intt_isLinear : IsLinear intt := by
  rw [funext intt_eq_scaled_stages]
  exact (map_zmul_isLinear 3303).comp
    (foldl_isLinear fun len hl => inttStage_isLinear (dvd_of_mem_stageLens (List.mem_reverse.1 hl)))

/-! ### Programs of transforms and sums (R125, R152) -/

/-- `p[r]` holds `f`, tagged `g`. -/
def Holds (s : State) (r : RegNo) (f : Coeffs) (g : Tag) : Prop := s.preg[r] = f ∧ s.ptag[r] = g

/-- Command `i` completes from `s` in `t`, leaves `f` tagged `g` in `p[pd]`, and keeps every other polynomial register. -/
structure Computes (i : Instr) (s t : State) (pd : RegNo) (f : Coeffs) (g : Tag) : Prop where
  run : exec i s = .next t
  err : t.err = none
  dest : Holds t pd f g
  keeps : ∀ {r : RegNo} {f' : Coeffs} {g' : Tag}, r ≠ pd → Holds s r f' g' → Holds t r f' g'

theorem computes_of_wrotePoly {i : Instr} {s t : State} {pd : RegNo} {f : Coeffs} {g : Tag} (hs : s.err = none)
    (run : exec i s = .next t) (wrote : WrotePoly s t pd g) (value : t.preg[pd] = f) : Computes i s t pd f g where
  run := run
  err := wrote.latch.1.trans hs
  dest := ⟨value, wrote.tagged⟩
  keeps hr h := ⟨(wrote.others _ hr).1.trans h.1, (wrote.others _ hr).2.trans h.2⟩

section
variable {s : State} (hs : s.err = none) (pd : RegNo) {pa pb : RegNo} {f f' : Coeffs} {g : Tag}
include hs

theorem ntt_computes (ha : Holds s pa f .rq) : ∃ t, Computes (.ntt pd pa) s t pd (ntt f) .tq := by
  obtain ⟨rfl, tag⟩ := ha
  obtain ⟨t, run, wrote, -, value⟩ := ((nttTransformsRqToTq pd pa).2 s hs).1 tag
  exact ⟨t, computes_of_wrotePoly hs run wrote value⟩

theorem intt_computes (ha : Holds s pa f .tq) : ∃ t, Computes (.intt pd pa) s t pd (intt f) .rq := by
  obtain ⟨rfl, tag⟩ := ha
  obtain ⟨t, run, wrote, -, value⟩ := ((inttTransformsTqToRq pd pa).2 s hs).1 tag
  exact ⟨t, computes_of_wrotePoly hs run wrote value⟩

theorem padd_computes (hg : g ≠ .empty) (ha : Holds s pa f g) (hb : Holds s pb f' g) :
    ∃ t, Computes (.padd pd pa pb) s t pd (padd f f') g := by
  obtain ⟨rfl, tagA⟩ := ha
  obtain ⟨rfl, tagB⟩ := hb
  have pass : firstFailing [(polyEmpty s pa || polyEmpty s pb, .empty), (notDomain s (polyTag s pb) pa, .domain)] = none :=
    by simp [polyEmpty_eq, notDomain_eq, polyTag, tagA, tagB, hg]
  obtain ⟨t, run, wrote, -, value⟩ := poly_completes (i := .padd pd pa pb) (pd := pd)
    (f := padd s.preg[pa] s.preg[pb]) (g := s.ptag[pa]) hs pass
  exact ⟨t, tagA ▸ computes_of_wrotePoly hs run wrote value⟩

end

theorem runAll_cons_next {i : Instr} {is : List Instr} {s t : State} (h : exec i s = .next t) :
    runAll (i :: is) s = runAll is t := by
  rw [runAll, h]

/-- The program of R152: every register it reads holds what an earlier command, or the start, left there. -/
theorem sum_program_computes {s : State} {f g : Coeffs} (hs : s.err = none) (h0 : Holds s 0 f .rq) (h1 : Holds s 1 g .rq) :
    ∃ t, runAll [.padd 2 0 1, .ntt 3 2, .ntt 4 0, .ntt 5 1, .padd 6 4 5] s = some t ∧ t.err = none ∧
      Holds t 3 (ntt (padd f g)) .tq ∧ Holds t 6 (padd (ntt f) (ntt g)) .tq := by
  obtain ⟨t1, c1⟩ := padd_computes hs 2 (by decide) h0 h1
  obtain ⟨t2, c2⟩ := ntt_computes c1.err 3 c1.dest
  obtain ⟨t3, c3⟩ := ntt_computes c2.err 4 (c2.keeps (by decide) (c1.keeps (by decide) h0))
  obtain ⟨t4, c4⟩ := ntt_computes c3.err 5 (c3.keeps (by decide) (c2.keeps (by decide) (c1.keeps (by decide) h1)))
  obtain ⟨t5, c5⟩ := padd_computes c4.err 6 (by decide) (c4.keeps (by decide) c3.dest) c4.dest
  refine ⟨t5, ?_, c5.err, ?_, c5.dest⟩
  · rw [runAll_cons_next c1.run, runAll_cons_next c2.run, runAll_cons_next c3.run, runAll_cons_next c4.run,
      runAll_cons_next c5.run, runAll]
  · exact c5.keeps (by decide) (c4.keeps (by decide) (c3.keeps (by decide) c2.dest))

/-- Settles O40: each stage is linear because its butterfly is, and the program computes both sides. -/
theorem transformsAreLinear : Obligations.TransformsAreLinear := by
  refine ⟨fun f g c => ⟨ntt_isLinear.add f g, intt_isLinear.add f g, ntt_isLinear.scale c f, intt_isLinear.scale c f⟩,
    fun s hs h0 h1 => ?_⟩
  obtain ⟨t, run, err, p3, p6⟩ := sum_program_computes hs ⟨rfl, h0⟩ ⟨rfl, h1⟩
  exact ⟨t, run, err, p3.1.trans ((ntt_isLinear.add _ _).trans p6.1.symm)⟩

/-! ### The transforms are inverse to each other (R125) -/

theorem toZ_two : toZ 2 = 2 := by simp [toZ]

/-- `B'` after `B`, with the twiddles of the same block, gives the double of the two cells. -/
def Butterfly.Undoes (B' : Butterfly) (z' : FieldElement) (B : Butterfly) (z : FieldElement) : Prop :=
  ∀ a b, B'.lo z' (B.lo z a b) (B.hi z a b) = zmul 2 a ∧ B'.hi z' (B.lo z a b) (B.hi z a b) = zmul 2 b

/-- Twiddles whose product is `-1` make the two butterflies undo each other. -/
theorem inverse_undoes_forward {z z' : FieldElement} (h : toZ z' * toZ z = -1) :
    inverseButterfly.Undoes z' forwardButterfly z := by
  refine fun a b => ⟨toZ_injective ?_, toZ_injective ?_⟩ <;>
    simp only [inverseButterfly, forwardButterfly, toZ_zadd, toZ_zsub, toZ_zmul, toZ_two]
  · ring
  · linear_combination (-2 * toZ b) * h

theorem forward_undoes_inverse {z z' : FieldElement} (h : toZ z' * toZ z = -1) :
    forwardButterfly.Undoes z inverseButterfly z' := by
  refine fun a b => ⟨toZ_injective ?_, toZ_injective ?_⟩ <;>
    simp only [inverseButterfly, forwardButterfly, toZ_zadd, toZ_zsub, toZ_zmul, toZ_two]
  · linear_combination (toZ b - toZ a) * h
  · linear_combination (toZ a - toZ b) * h

/-- The twiddles of block `b` of the two stages `len` multiply to `-1`. -/
theorem twiddles_mul : ∀ len ∈ stageLens, ∀ b < 128 / len,
    zmul (inverseTwiddle len b) (forwardTwiddle len b) = zsub 0 1 := by decide

theorem toZ_twiddles_mul {len b : Nat} (hl : len ∈ stageLens) (hb : b < 128 / len) :
    toZ (inverseTwiddle len b) * toZ (forwardTwiddle len b) = -1 := by
  rw [← toZ_zmul, twiddles_mul len hl b hb, toZ_zsub, toZ_zero, toZ_one, zero_sub]

/-- A stage whose butterflies undo those of the stage before doubles the polynomial the two started from. -/
theorem IsStage.undone {B B' : Butterfly} {z z' : Nat → FieldElement} {len : Nat} {f g k : Coeffs} (h : len ∣ 128)
    (hU : ∀ b < 128 / len, B'.Undoes (z' b) B (z b)) (hg : IsStage B z len f g) (hk : IsStage B' z' len g k) :
    k = f.map (zmul 2) := by
  refine coeffs_ext_blocks h fun b r hb hr => ?_
  obtain ⟨lt, lt'⟩ := blockCell_lt h hb hr
  obtain ⟨glo, ghi⟩ := hg b r hb hr
  obtain ⟨klo, khi⟩ := hk b r hb hr
  rw [klo, khi, glo, ghi, cell_map _ _ _ lt, cell_map _ _ _ lt']
  exact hU b hb _ _

theorem inttStage_nttStage {len : Nat} (hl : len ∈ stageLens) (f : Coeffs) :
    inttStage (nttStage f len) len = f.map (zmul 2) :=
  have h := dvd_of_mem_stageLens hl
  (isStage_nttStage h f).undone h (fun _ hb => inverse_undoes_forward (toZ_twiddles_mul hl hb)) (isStage_inttStage h _)

theorem nttStage_inttStage {len : Nat} (hl : len ∈ stageLens) (f : Coeffs) :
    nttStage (inttStage f len) len = f.map (zmul 2) :=
  have h := dvd_of_mem_stageLens hl
  (isStage_inttStage h f).undone h (fun _ hb => forward_undoes_inverse (toZ_twiddles_mul hl hb)) (isStage_nttStage h _)

theorem map_zmul_map_zmul (f : Coeffs) (c d : FieldElement) : (f.map (zmul d)).map (zmul c) = f.map (zmul (zmul c d)) :=
  coeffs_ext fun n hn => by simp only [cell_map _ _ _ hn, zmul_assoc]

theorem map_zmul_one (f : Coeffs) : f.map (zmul 1) = f :=
  coeffs_ext fun n hn => by rw [cell_map _ _ _ hn, zmul_comm, zmul_one]

/-- Stages run backwards, each undoing its own up to a factor 2, leave the power of 2 as a factor. -/
theorem foldl_reverse_undoes {S S' : Coeffs → Nat → Coeffs} {lens : List Nat} (hlin : ∀ len ∈ lens, IsLinear (S' · len))
    (hU : ∀ len ∈ lens, ∀ f, S' (S f len) len = f.map (zmul 2)) (f : Coeffs) :
    lens.reverse.foldl S' (lens.foldl S f) = f.map (zmul (toField (2 ^ lens.length))) := by
  induction lens generalizing f with
  | nil => exact (map_zmul_one f).symm
  | cons len lens ih =>
    have inner := ih (fun l hl => hlin l (List.mem_cons_of_mem _ hl)) (fun l hl => hU l (List.mem_cons_of_mem _ hl))
      (S f len)
    have factor : zmul (toField (2 ^ lens.length)) 2 = toField (2 ^ (lens.length + 1)) :=
      toZ_injective (by rw [toZ_zmul, toZ_toField, toZ_toField, toZ_two]; push_cast; ring)
    calc (len :: lens).reverse.foldl S' ((len :: lens).foldl S f)
        = S' ((S f len).map (zmul (toField (2 ^ lens.length)))) len := by
          rw [List.reverse_cons, List.foldl_append, List.foldl_cons, List.foldl_cons, List.foldl_nil, inner]
      _ = (f.map (zmul 2)).map (zmul (toField (2 ^ lens.length))) := by
          rw [(hlin len List.mem_cons_self).scale, hU len List.mem_cons_self]
      _ = f.map (zmul (toField (2 ^ (lens.length + 1)))) := by rw [map_zmul_map_zmul, factor]

/-- The scaling of R123 undoes the seven doublings: `3303 · 2^7 = 1`. -/
theorem scaling_undoes_doublings (f : Coeffs) : (f.map (zmul (toField (2 ^ 7)))).map (zmul 3303) = f := by
  rw [map_zmul_map_zmul, show zmul 3303 (toField (2 ^ 7)) = 1 by decide, map_zmul_one]

theorem intt_ntt (f : Coeffs) : intt (ntt f) = f := by
  have h := foldl_reverse_undoes (S := nttStage) (lens := stageLens)
    (fun len hl => inttStage_isLinear (dvd_of_mem_stageLens hl)) (fun len hl => inttStage_nttStage hl) f
  rw [intt_eq_scaled_stages, ntt_eq_stages, h]
  exact scaling_undoes_doublings f

theorem ntt_intt (f : Coeffs) : ntt (intt f) = f := by
  have h := foldl_reverse_undoes (S := inttStage) (S' := nttStage) (lens := stageLens.reverse)
    (fun len hl => nttStage_isLinear (dvd_of_mem_stageLens (List.mem_reverse.1 hl)))
    (fun len hl => nttStage_inttStage (List.mem_reverse.1 hl)) f
  rw [List.reverse_reverse] at h
  rw [intt_eq_scaled_stages, ntt_isLinear.scale, ntt_eq_stages, h]
  exact scaling_undoes_doublings f

/-- Settles O39: each stage of one transform undoes its own of the other up to a factor 2. -/
theorem transformsAreInverse : Obligations.TransformsAreInverse := by
  refine ⟨fun f => ⟨intt_ntt f, ntt_intt f⟩, fun s p0 p1 p2 hs h0 => ?_⟩
  obtain ⟨t, ct⟩ := ntt_computes hs p1 (pa := p0) ⟨rfl, h0⟩
  obtain ⟨u, cu⟩ := intt_computes ct.err p2 ct.dest
  exact ⟨t, u, ct.run, cu.run, cu.dest.1.trans (intt_ntt _), cu.dest.2⟩

/-! ### Pairs of the forward transform are residues (R120) -/

/-- The stages split a polynomial along a binary tree with nodes `1, 2, ..., 255`, node `j` having the children `2·j` and
`2·j + 1`: a block of width `w` at node `j` is the residue modulo `X^w − nodeRoot j`. The two roots below node `k` are `ZETA[k]`
and its negative. -/
def nodeRoot (j : Nat) : FieldElement := if j % 2 = 0 then zeta (j / 2) else zsub 0 (zeta (j / 2))

theorem toZ_nodeRoot_even (k : Nat) : toZ (nodeRoot (2 * k)) = toZ (zeta k) := by
  rw [nodeRoot, if_pos (Nat.mul_mod_right 2 k), Nat.mul_div_cancel_left k (by decide)]

theorem toZ_nodeRoot_odd (k : Nat) : toZ (nodeRoot (2 * k + 1)) = -toZ (zeta k) := by
  rw [nodeRoot, if_neg (by omega), show (2 * k + 1) / 2 = k by omega, toZ_zsub, toZ_zero, zero_sub]

/-- The roots below a node are the square roots of its own. -/
theorem zeta_sq : ∀ k < 128, 1 ≤ k → zmul (zeta k) (zeta k) = nodeRoot k := by decide

/-- The roots of the leaves (R29). -/
theorem nodeRoot_leaf : ∀ m < 128, nodeRoot (128 + m) = gamma m := by decide

/-- The `N` blocks of `g`, of width `w`, are the residues of `f` at the `N` nodes of one level. -/
def HasResidues (N w : Nat) (f g : Coeffs) : Prop :=
  ∀ m i, m < N → i < w → toZ (cell g (m * w + i)) =
    ∑ n ∈ Finset.range N, toZ (cell f (n * w + i)) * toZ (nodeRoot (N + m)) ^ n

/-- A sum of powers, even and odd exponents apart. -/
theorem sum_powers_split {R : Type} [CommRing R] (F : Nat → R) (c : R) (N : Nat) :
    ∑ n ∈ Finset.range (2 * N), F n * c ^ n =
      ∑ n ∈ Finset.range N, F (2 * n) * (c ^ 2) ^ n + c * ∑ n ∈ Finset.range N, F (2 * n + 1) * (c ^ 2) ^ n := by
  induction N with
  | zero => simp
  | succ N ih =>
    rw [Nat.mul_succ, Finset.sum_range_succ, Finset.sum_range_succ, ih, Finset.sum_range_succ, Finset.sum_range_succ]
    ring

/-- A polynomial is its own residue at the root of the tree. -/
theorem hasResidues_self (f : Coeffs) : HasResidues 1 256 f f := by
  intro m i hm _
  obtain rfl : m = 0 := by omega
  simp

/-- The residues of a block of width `2·w` at the two square roots of its own root are made of its two halves. -/
theorem HasResidues.split {N w b i : Nat} {f g : Coeffs} (hg : HasResidues N (2 * w) f g) (hb : b < N) (hi : i < w)
    {c : ZMod 3329} (hc : c ^ 2 = toZ (nodeRoot (N + b))) :
    toZ (cell g (b * (2 * w) + i)) + c * toZ (cell g (b * (2 * w) + i + w)) =
      ∑ n ∈ Finset.range (2 * N), toZ (cell f (n * w + i)) * c ^ n := by
  have even n : 2 * n * w + i = n * (2 * w) + i := by ring
  have odd n : (2 * n + 1) * w + i = n * (2 * w) + (i + w) := by ring
  rw [sum_powers_split, Nat.add_assoc, hg b i hb (by omega), hg b (i + w) hb (by omega), hc]
  simp only [even, odd]

/-- The nodes of the stage `len` are numbered below 128. -/
theorem node_bounds : ∀ len ∈ stageLens, 1 ≤ 128 / len ∧ 2 * (128 / len) ≤ 128 := by decide

/-- A forward stage goes one level down. -/
theorem HasResidues.stage {len : Nat} {f g : Coeffs} (hl : len ∈ stageLens) (hg : HasResidues (128 / len) (2 * len) f g) :
    HasResidues (2 * (128 / len)) len f (nttStage g len) := by
  obtain ⟨one_le, le⟩ := node_bounds len hl
  intro m i hm hi
  obtain ⟨b, hmb⟩ := Nat.even_or_odd' m
  have hb : b < 128 / len := by omega
  obtain ⟨lo, hi'⟩ := isStage_nttStage (dvd_of_mem_stageLens hl) g b i hb hi
  have square : toZ (zeta (128 / len + b)) ^ 2 = toZ (nodeRoot (128 / len + b)) := by
    rw [pow_two, ← toZ_zmul, zeta_sq _ (by omega) (by omega)]
  rcases hmb with rfl | rfl
  · rw [← Nat.mul_add, toZ_nodeRoot_even, ← hg.split hb hi square, show 2 * b * len + i = b * (2 * len) + i by ring, lo]
    simp only [forwardButterfly, forwardTwiddle, toZ_zadd, toZ_zmul]
  · rw [← Nat.add_assoc, ← Nat.mul_add, toZ_nodeRoot_odd, ← hg.split hb hi ((neg_sq _).trans square),
      show (2 * b + 1) * len + i = b * (2 * len) + i + len by ring, hi']
    simp only [forwardButterfly, forwardTwiddle, toZ_zsub, toZ_zmul, neg_mul, sub_eq_add_neg]

/-- The seven stages go down to the leaves. -/
theorem hasResidues_ntt (f : Coeffs) : HasResidues 128 2 f (ntt f) := by
  have h128 : HasResidues 2 128 f _ := (hasResidues_self f).stage (len := 128) (by decide)
  have h64 : HasResidues 4 64 f _ := h128.stage (len := 64) (by decide)
  have h32 : HasResidues 8 32 f _ := h64.stage (len := 32) (by decide)
  have h16 : HasResidues 16 16 f _ := h32.stage (len := 16) (by decide)
  have h8 : HasResidues 32 8 f _ := h16.stage (len := 8) (by decide)
  have h4 : HasResidues 64 4 f _ := h8.stage (len := 4) (by decide)
  rw [ntt_eq_stages]
  exact h4.stage (len := 2) (by decide)

theorem val_eq_mod_of_toZ {a : FieldElement} {n : Nat} (h : toZ a = (n : ZMod 3329)) : a.val = n % 3329 := by
  have := (ZMod.natCast_eq_natCast_iff' a.val n 3329).1 h
  rwa [Nat.mod_eq_of_lt a.isLt] at this

/-- Cell `i` of pair `m` of the forward transform (R120). -/
theorem cell_ntt_val (f : Coeffs) {m i : Nat} (hm : m < 128) (hi : i < 2) :
    (cell (ntt f) (2 * m + i)).val =
      (∑ n ∈ Finset.range 128, (cell f (2 * n + i)).val * (gamma m).val ^ n) % 3329 := by
  apply val_eq_mod_of_toZ
  rw [Nat.mul_comm, hasResidues_ntt f m i hm hi, nodeRoot_leaf m hm]
  simp only [toZ, Nat.cast_sum, Nat.cast_mul, Nat.cast_pow, Nat.mul_comm _ 2]

/-- Settles O38: the pairs are the leaves of the tree of residues. -/
theorem nttPairsAreResidues : Obligations.NttPairsAreResidues := fun f _ hm =>
  ⟨cell_ntt_val f hm (i := 0) (by decide), cell_ntt_val f hm (i := 1) (by decide)⟩

end Sys2Proof.Machine
end

section
/-! Statements about polynomial arithmetic (42_poly_arithmetic.md R140 to R153). The commands: their checks, the polynomial they
leave, `PLC` as a run of `PMUL` and `PADD`. The laws: pair `m` of a polynomial is an element of the quotient by `X^2 − GAMMA[m]`
(`pairOf`), where `pmul` is multiplication, and the forward transform evaluates at the root `ω` of that quotient, where
`ω^256 = −1`; so products of transforms are transforms of products modulo `X^256 + 1`. -/
namespace Sys2Proof.Machine

/-! ### Commands with two polynomial sources (R141, R142, R144) -/

/-- A command that checks for `EMPTY` and then for `DOMAIN`: it completes, or it raises the first of the two that
fails. -/
theorem checked_poly_spec {i : Instr} {s : State} {pd : RegNo} {f : Coeffs} {g : Tag} {empty domain : Bool}
    (hs : s.err = none)
    (hi : exec i s = command i s [(empty, .empty), (domain, .domain)] (complete (writePoly s pd f g))) :
    (empty = false → domain = false → ∃ t, exec i s = .next t ∧ WrotePoly s t pd g ∧ t.xpos = s.xpos ∧ t.preg[pd] = f) ∧
    (empty = true → Raises i s .empty) ∧ (empty = false → domain = true → Raises i s .domain) := by
  refine ⟨fun hE hD => ?_, fun hE => ?_, fun hE hD => ?_⟩
  · rw [hi]
    exact poly_completes hs (by simp [hE, hD])
  · exact hi.trans (command_raises hs (by simp [hE]))
  · exact hi.trans (command_raises hs (by simp [hE, hD]))

section
variable {i : Instr} {s : State} {pd pa pb : RegNo} {f : Coeffs}

theorem polyEmpty_or_eq_false : (polyEmpty s pa || polyEmpty s pb) = false ↔ s.ptag[pa] ≠ .empty ∧ s.ptag[pb] ≠ .empty := by
  simp [polyEmpty_eq]

theorem polyEmpty_or_eq_true : (polyEmpty s pa || polyEmpty s pb) = true ↔ s.ptag[pa] = .empty ∨ s.ptag[pb] = .empty := by
  simp [polyEmpty_eq]

theorem notDomain_eq_false {g : Tag} : notDomain s g pa = false ↔ s.ptag[pa] = g := by
  simp [notDomain, polyTag]

/-- A command whose two sources need the same tag, any but `E` (R141, R142). -/
theorem sameTag_poly_spec (hs : s.err = none)
    (hi : exec i s = command i s [(polyEmpty s pa || polyEmpty s pb, .empty), (notDomain s (polyTag s pb) pa, .domain)]
      (complete (writePoly s pd f (polyTag s pa)))) :
    (s.ptag[pa] ≠ .empty → s.ptag[pb] = s.ptag[pa] →
      ∃ t, exec i s = .next t ∧ WrotePoly s t pd s.ptag[pa] ∧ t.xpos = s.xpos ∧ t.preg[pd] = f) ∧
    (s.ptag[pa] = .empty ∨ s.ptag[pb] = .empty → Raises i s .empty) ∧
    (s.ptag[pa] ≠ .empty → s.ptag[pb] ≠ .empty → s.ptag[pa] ≠ s.ptag[pb] → Raises i s .domain) := by
  obtain ⟨completes, empty, domain⟩ := checked_poly_spec hs hi
  refine ⟨fun ha hab => ?_, fun h => empty (polyEmpty_or_eq_true.2 h), fun ha hb hab => ?_⟩
  · exact completes (polyEmpty_or_eq_false.2 ⟨ha, hab ▸ ha⟩) (notDomain_eq_false.2 hab.symm)
  · exact domain (polyEmpty_or_eq_false.2 ⟨ha, hb⟩) ((notDomain_eq ..).trans (decide_eq_true hab))

/-- Settles O41: elementwise sums as R100 defines them, after the checks on the tags. -/
theorem paddAddsElementwise : Obligations.PaddAddsElementwise := fun pd pa pb => by
  refine ⟨isTheWordOf_opcode_fields _ (wordOf_threeRegs _ _ _ _), fun s hs => ?_⟩
  obtain ⟨completes, raises⟩ := sameTag_poly_spec (i := .padd pd pa pb) hs rfl
  refine ⟨fun ha hab => ?_, raises⟩
  obtain ⟨t, run, wrote, xpos, value⟩ := completes ha hab
  exact ⟨t, run, wrote, xpos, fun n hn => by rw [value, cell_padd _ _ n hn, zadd_val]; rfl⟩

/-- Settles O42: elementwise differences as R101 defines them, after the checks on the tags. -/
theorem psubSubtractsElementwise : Obligations.PsubSubtractsElementwise := fun pd pa pb => by
  refine ⟨isTheWordOf_opcode_fields _ (wordOf_threeRegs _ _ _ _), fun s hs => ?_⟩
  obtain ⟨completes, raises⟩ := sameTag_poly_spec (i := .psub pd pa pb) hs rfl
  refine ⟨fun ha hab => ?_, raises⟩
  obtain ⟨t, run, wrote, xpos, value⟩ := completes ha hab
  exact ⟨t, run, wrote, xpos, fun n hn => by rw [value, cell_psub _ _ n hn, zsub_val]; rfl⟩

/-- A command whose two sources need the tag `T` (R144). -/
theorem transformed_poly_spec (hs : s.err = none)
    (hi : exec i s = command i s [(polyEmpty s pa || polyEmpty s pb, .empty),
      (notDomain s .tq pa || notDomain s .tq pb, .domain)] (complete (writePoly s pd f .tq))) :
    (s.ptag[pa] = .tq → s.ptag[pb] = .tq →
      ∃ t, exec i s = .next t ∧ WrotePoly s t pd .tq ∧ t.xpos = s.xpos ∧ t.preg[pd] = f) ∧
    (s.ptag[pa] = .empty ∨ s.ptag[pb] = .empty → Raises i s .empty) ∧
    (s.ptag[pa] ≠ .empty → s.ptag[pb] ≠ .empty → s.ptag[pa] = .rq ∨ s.ptag[pb] = .rq → Raises i s .domain) := by
  obtain ⟨completes, empty, domain⟩ := checked_poly_spec hs hi
  refine ⟨fun ha hb => ?_, fun h => empty (polyEmpty_or_eq_true.2 h), fun ha hb h => ?_⟩
  · exact completes (polyEmpty_or_eq_false.2 (by simp [ha, hb]))
      (Bool.or_eq_false_iff.2 ⟨notDomain_eq_false.2 ha, notDomain_eq_false.2 hb⟩)
  · refine domain (polyEmpty_or_eq_false.2 ⟨ha, hb⟩) ?_
    rcases h with h | h <;> simp [notDomain_eq, h]

end

/-- `c0` of pair `m` of a product, as R143 writes it. -/
theorem toZ_cell_pmul_even (a b : Coeffs) {m : Nat} (hm : m < 128) : toZ (cell (pmul a b) (2 * m)) =
    toZ (cell a (2 * m)) * toZ (cell b (2 * m)) +
      toZ (gamma m) * (toZ (cell a (2 * m + 1)) * toZ (cell b (2 * m + 1))) := by
  rw [cell_pmul_even a b m hm]; simp only [toZ_zadd, toZ_zmul]

/-- `c1` of pair `m` of a product, as R143 writes it. -/
theorem toZ_cell_pmul_odd (a b : Coeffs) {m : Nat} (hm : m < 128) : toZ (cell (pmul a b) (2 * m + 1)) =
    toZ (cell a (2 * m)) * toZ (cell b (2 * m + 1)) + toZ (cell a (2 * m + 1)) * toZ (cell b (2 * m)) := by
  rw [cell_pmul_odd a b m hm]; simp only [toZ_zadd, toZ_zmul]

/-- Settles O43: pair by pair, after the checks on the tags. -/
theorem pmulMultipliesPairs : Obligations.PmulMultipliesPairs := fun pd pa pb => by
  refine ⟨isTheWordOf_opcode_fields _ (wordOf_threeRegs _ _ _ _), fun s hs => ?_⟩
  obtain ⟨completes, raises⟩ := transformed_poly_spec (i := .pmul pd pa pb) hs rfl
  refine ⟨fun ha hb => ?_, raises⟩
  obtain ⟨t, run, wrote, xpos, value⟩ := completes ha hb
  refine ⟨t, run, wrote, xpos, fun m hm => ⟨val_eq_mod_of_toZ ?_, val_eq_mod_of_toZ ?_⟩⟩
  · rw [value, toZ_cell_pmul_even _ _ hm]; simp [toZ, readPoly]
  · rw [value, toZ_cell_pmul_odd _ _ hm]; simp [toZ, readPoly]

/-! ### `PLC` (R145) -/

/-- A rank and windows that `PLC` admits. -/
structure LegalPlc (pa pb : RegNo) (k : BitVec 8) : Prop where
  rank : k.toNat = 2 ∨ k.toNat = 3 ∨ k.toNat = 4
  windowA : pa.val + k.toNat ≤ 16
  windowB : pb.val + k.toNat ≤ 16

/-- The addend and the first `n` pairs of factors are tagged `T`. -/
def SourcesTransformed (s : State) (pe pa pb : RegNo) (n : Nat) : Prop :=
  s.ptag[pe] = .tq ∧ ∀ j, j < n → s.ptag[regAfter pa j] = .tq ∧ s.ptag[regAfter pb j] = .tq

/-- The first `n` pairs of factors `(p[pa + j], p[pb + j])`. -/
def factors (s : State) (pa pb : RegNo) (n : Nat) : List (Coeffs × Coeffs) :=
  (List.range n).map fun j => (s.preg[regAfter pa j], s.preg[regAfter pb j])

section
variable {s : State} {pd pe pa pb : RegNo} {k : BitVec 8}

theorem plcTerms_eq_factors : plcTerms s pa pb k = factors s pa pb k.toNat := by
  simp [plcTerms, factors, window, readPoly, regAfter, List.zip_map']

theorem badRank_eq_true : badRank k = true ↔ k.toNat ≠ 2 ∧ k.toNat ≠ 3 ∧ k.toNat ≠ 4 := by
  simp [badRank]

theorem badRank_eq_false : badRank k = false ↔ k.toNat = 2 ∨ k.toNat = 3 ∨ k.toNat = 4 := by
  simp [badRank, imp_iff_not_or]

theorem plcSources_empty : (plcSources pe pa pb k).any (polyEmpty s) = true ↔ s.ptag[pe] = .empty ∨
    ∃ j, j < k.toNat ∧ (s.ptag[regAfter pa j] = .empty ∨ s.ptag[regAfter pb j] = .empty) := by
  simp only [any_plcSources, polyEmpty_eq, decide_eq_true_eq]

theorem plcSources_notDomain : (plcSources pe pa pb k).any (notDomain s .tq) = true ↔ s.ptag[pe] ≠ .tq ∨
    ∃ j, j < k.toNat ∧ (s.ptag[regAfter pa j] ≠ .tq ∨ s.ptag[regAfter pb j] ≠ .tq) := by
  simp only [any_plcSources, notDomain_eq, decide_eq_true_eq]

/-- With a legal rank and legal windows, `PLC` has the checks on its sources left. -/
theorem exec_plc_of_legal (hl : LegalPlc pa pb k) : exec (.plc pd pe pa pb k) s = command (.plc pd pe pa pb k) s
    [((plcSources pe pa pb k).any (polyEmpty s), .empty), ((plcSources pe pa pb k).any (notDomain s .tq), .domain)]
    (complete (writePoly s pd (linearCombination s.preg[pe] (factors s pa pb k.toNat)) .tq)) := by
  have rank := badRank_eq_false.2 hl.rank
  have windows : (pastLast pa k || pastLast pb k) = false := by simp [pastLast, hl.windowA, hl.windowB]
  show execPlc pd pe pa pb k s = _
  rw [execPlc, command, firstFailing_cons, firstFailing_cons, rank, windows, plcTerms_eq_factors]
  rfl

theorem plc_completes (hs : s.err = none) (hl : LegalPlc pa pb k) (ht : SourcesTransformed s pe pa pb k.toNat) :
    ∃ t, exec (.plc pd pe pa pb k) s = .next t ∧ WrotePoly s t pd .tq ∧ t.xpos = s.xpos ∧
      t.preg[pd] = linearCombination s.preg[pe] (factors s pa pb k.toNat) := by
  obtain ⟨hE, hj⟩ := ht
  refine (checked_poly_spec hs (exec_plc_of_legal hl)).1 (Bool.eq_false_iff.2 fun h => ?_) (Bool.eq_false_iff.2 fun h => ?_)
  · obtain h | ⟨j, lt, h | h⟩ := plcSources_empty.1 h
    · simp [hE] at h
    · simp [(hj j lt).1] at h
    · simp [(hj j lt).2] at h
  · obtain h | ⟨j, lt, h | h⟩ := plcSources_notDomain.1 h
    · exact h hE
    · exact h (hj j lt).1
    · exact h (hj j lt).2

end

/-- A linear combination of registers cell by cell (R145). -/
theorem toZ_cell_linearCombination_factors (e : Coeffs) (s : State) (pa pb : RegNo) (n : Nat) {c : Nat} (hc : c < 256) :
    toZ (cell (linearCombination e (factors s pa pb n)) c) = toZ (cell e c) +
      ∑ j ∈ Finset.range n, toZ (cell (pmul s.preg[regAfter pa j] s.preg[regAfter pb j]) c) := by
  rw [toZ_cell_linearCombination _ _ _ hc, factors, List.map_map]; rfl

/-- Settles O44: the first failing check in the order of R145; the sum pair by pair. -/
theorem plcAccumulatesProducts : Obligations.PlcAccumulatesProducts := fun pd pe pa pb k => by
  refine ⟨isTheWordOf_opcode_fields _ (by simp only [opcodeOf, fieldsOf]; omega), fun s hs =>
    ⟨fun bad => ?_, fun rank => ⟨fun past => ?_, fun wa wb => ?_⟩⟩⟩
  · exact command_raises hs (by rw [firstFailing_cons, badRank_eq_true.2 bad]; rfl)
  · have windows : (pastLast pa k || pastLast pb k) = true := by simpa [pastLast] using past
    exact command_raises hs (by rw [firstFailing_cons, badRank_eq_false.2 rank, firstFailing_cons, windows]; rfl)
  · have hl : LegalPlc pa pb k := ⟨rank, wa, wb⟩
    obtain ⟨-, empty, domain⟩ := checked_poly_spec (pd := pd) hs (exec_plc_of_legal hl)
    refine ⟨fun h => empty (plcSources_empty.2 h), fun hE hjE h => domain (Bool.eq_false_iff.2 fun h => ?_)
      (plcSources_notDomain.2 ?_), fun hE hj => ?_⟩
    · obtain h | ⟨j, lt, h⟩ := plcSources_empty.1 h
      · exact hE h
      · exact h.elim (hjE j lt).1 (hjE j lt).2
    · exact h.imp (fun h => by simp [h]) fun ⟨j, lt, h⟩ => ⟨j, lt, h.imp (fun h => by simp [h]) fun h => by simp [h]⟩
    · obtain ⟨t, run, wrote, xpos, value⟩ := plc_completes (pd := pd) hs hl ⟨hE, hj⟩
      refine ⟨t, run, wrote, xpos, fun m hm => ⟨val_eq_mod_of_toZ ?_, val_eq_mod_of_toZ ?_⟩⟩
      · rw [value, toZ_cell_linearCombination_factors _ _ _ _ _ (by omega)]
        simp only [toZ_cell_pmul_even _ _ hm]
        simp [toZ]
      · rw [value, toZ_cell_linearCombination_factors _ _ _ _ _ (by omega)]
        simp only [toZ_cell_pmul_odd _ _ hm]
        simp [toZ]

/-! ### `PLC` is its expansion (R146) -/

/-- A command with a polynomial destination that ends with no fault latched: its checks passed, and it wrote its polynomial. -/
theorem poly_completed {i : Instr} {s t : State} {checks : List (Bool × Cause)} {pd : RegNo} {f : Coeffs} {g : Tag}
    (hi : exec i s = command i s checks (complete (writePoly s pd f g))) (run : exec i s = .next t) (ht : t.err = none) :
    firstFailing checks = none ∧ Computes i s t pd f g := by
  rw [hi] at run
  obtain ⟨hs, e⟩ | ⟨c, -, -, e⟩ | ⟨hs, pass, e⟩ := command_cases i s checks (complete (writePoly s pd f g)) <;> rw [e] at run
  · cases run
    exact absurd ht hs
  · cases run
    cases ht
  · rw [complete_eq] at run
    cases run
    exact ⟨pass, computes_of_wrotePoly hs (hi.trans (e.trans (complete_eq _))) (wrotePoly_complete s pd f g)
      (writePoly_preg_self s pd f g)⟩

theorem firstFailing_pair_none {empty domain : Bool} (h : firstFailing [(empty, .empty), (domain, .domain)] = none) :
    empty = false ∧ domain = false := by
  cases empty <;> cases domain <;> simp at h ⊢

/-- A fault stays latched: there was none before a command that leaves none (R225). -/
theorem exec_next_err {i : Instr} {s t : State} (run : exec i s = .next t) (ht : t.err = none) : s.err = none := by
  obtain ⟨-, rfl⟩ | ⟨_, hs, -⟩ | ⟨_, hs, -⟩ := exec_next_cases run
  · exact ht
  · exact hs
  · exact hs

section
variable {s t : State} {pd pa pb : RegNo}

theorem pmul_completed (run : exec (.pmul pd pa pb) s = .next t) (ht : t.err = none) :
    (s.ptag[pa] = .tq ∧ s.ptag[pb] = .tq) ∧ Computes (.pmul pd pa pb) s t pd (pmul s.preg[pa] s.preg[pb]) .tq := by
  obtain ⟨pass, computes⟩ := poly_completed rfl run ht
  obtain ⟨notA, notB⟩ := Bool.or_eq_false_iff.1 (firstFailing_pair_none pass).2
  exact ⟨⟨notDomain_eq_false.1 notA, notDomain_eq_false.1 notB⟩, computes⟩

theorem padd_completed (run : exec (.padd pd pa pb) s = .next t) (ht : t.err = none) :
    s.ptag[pa] = s.ptag[pb] ∧ Computes (.padd pd pa pb) s t pd (padd s.preg[pa] s.preg[pb]) s.ptag[pa] := by
  obtain ⟨pass, computes⟩ := poly_completed rfl run ht
  exact ⟨notDomain_eq_false.1 (firstFailing_pair_none pass).2, computes⟩

end

/-- A program that ends has run its first command, and then the rest. -/
theorem runAll_cons_some {i : Instr} {is : List Instr} {s t : State} (h : runAll (i :: is) s = some t) :
    ∃ u, exec i s = .next u ∧ runAll is u = some t := by
  cases hu : exec i s with
  | next u => exact ⟨u, rfl, (runAll_cons_next hu).symm.trans h⟩
  | fault _ => rw [runAll, hu] at h; cases h
  | refused _ => rw [runAll, hu] at h; cases h

/-- A program of two parts that ends has run the one and then the other. -/
theorem runAll_append_some {is js : List Instr} {s t : State} (h : runAll (is ++ js) s = some t) :
    ∃ u, runAll is s = some u ∧ runAll js u = some t := by
  induction is generalizing s with
  | nil => exact ⟨s, rfl, h⟩
  | cons i is ih =>
    obtain ⟨v, run, rest⟩ := runAll_cons_some h
    obtain ⟨u, first, second⟩ := ih rest
    exact ⟨u, (runAll_cons_next run).trans first, second⟩

/-- The expansion with one product more. -/
theorem plcExpansion_succ (pd pe pa pb px : RegNo) (n : Nat) : plcExpansion pd pe pa pb px (n + 1) =
    plcExpansion pd pe pa pb px n ++
      [.pmul px (regAfter pa n) (regAfter pb n), .padd pd (if n = 0 then pe else pd) px] := by
  simp [plcExpansion, List.range_succ]

theorem factors_succ (s : State) (pa pb : RegNo) (n : Nat) :
    factors s pa pb (n + 1) = factors s pa pb n ++ [(s.preg[regAfter pa n], s.preg[regAfter pb n])] := by
  simp [factors, List.range_succ]

/-- The sum with one product more. -/
theorem linearCombination_concat (e : Coeffs) (terms : List (Coeffs × Coeffs)) (a b : Coeffs) :
    linearCombination e (terms ++ [(a, b)]) = padd (linearCombination e terms) (pmul a b) := by
  simp [linearCombination]

/-- `u` is the state after the first `n` products of the expansion from `s`: the sum so far stands in the accumulator, its
sources were tagged `T` as far as they were read, and only scratch and destination have been written. -/
structure Accumulated (s u : State) (pd pe pa pb px : RegNo) (n : Nat) : Prop where
  acc : Holds u (if n = 0 then pe else pd) (linearCombination s.preg[pe] (factors s pa pb n)) s.ptag[pe]
  addend : 0 < n → s.ptag[pe] = .tq
  sources : ∀ j, j < n → s.ptag[regAfter pa j] = .tq ∧ s.ptag[regAfter pb j] = .tq
  keeps : ∀ r : RegNo, r ≠ px → (0 < n → r ≠ pd) → Holds u r s.preg[r] s.ptag[r]

section
variable {s u v t : State} {pd pe pa pb px : RegNo} {n : Nat}

/-- One product and one sum take the accumulator one term further. -/
theorem Accumulated.step (h : Accumulated s u pd pe pa pb px n) (hxd : px ≠ pd) (hxe : px ≠ pe)
    (hx : px ≠ regAfter pa n ∧ px ≠ regAfter pb n) (hd : 0 < n → pd ≠ regAfter pa n ∧ pd ≠ regAfter pb n)
    (product : exec (.pmul px (regAfter pa n) (regAfter pb n)) u = .next v)
    (sum : exec (.padd pd (if n = 0 then pe else pd) px) v = .next t) (ht : t.err = none) :
    Accumulated s t pd pe pa pb px (n + 1) := by
  obtain ⟨sameTag, added⟩ := padd_completed sum ht
  obtain ⟨⟨tagA, tagB⟩, multiplied⟩ := pmul_completed product (exec_next_err sum ht)
  obtain ⟨a, tagA'⟩ := h.keeps (regAfter pa n) hx.1.symm fun pos => (hd pos).1.symm
  obtain ⟨b, tagB'⟩ := h.keeps (regAfter pb n) hx.2.symm fun pos => (hd pos).2.symm
  have accNe : (if n = 0 then pe else pd) ≠ px := by
    split
    · exact hxe.symm
    · exact hxd.symm
  obtain ⟨acc, accTag⟩ := multiplied.keeps accNe h.acc
  obtain ⟨prod, prodTag⟩ := multiplied.dest
  have addend : s.ptag[pe] = .tq := accTag.symm.trans (sameTag.trans prodTag)
  refine ⟨?_, fun _ => addend, fun j hj => ?_, fun r hrx hrd => ?_⟩
  · rw [if_neg (Nat.succ_ne_zero n), factors_succ, linearCombination_concat, ← a, ← b, ← prod, ← acc, ← accTag]
    exact added.dest
  · rcases Nat.lt_succ_iff_lt_or_eq.1 hj with hj | rfl
    · exact h.sources j hj
    · exact ⟨tagA'.symm.trans tagA, tagB'.symm.trans tagB⟩
  · exact added.keeps (hrd (Nat.succ_pos n)) (multiplied.keeps hrx (h.keeps r hrx fun _ => hrd (Nat.succ_pos n)))

/-- What the expansion has done after its first `n` products, if it ends with no fault latched. -/
theorem plcExpansion_accumulates {k : Nat} (hxd : px ≠ pd) (hxe : px ≠ pe)
    (hx : ∀ j, j < k → px ≠ regAfter pa j ∧ px ≠ regAfter pb j)
    (hd : ∀ j, 0 < j → j < k → pd ≠ regAfter pa j ∧ pd ≠ regAfter pb j) (hn : n ≤ k)
    (run : runAll (plcExpansion pd pe pa pb px n) s = some t) (ht : t.err = none) :
    Accumulated s t pd pe pa pb px n := by
  induction n generalizing t with
  | zero =>
    cases run
    exact ⟨⟨rfl, rfl⟩, fun h => absurd h (lt_irrefl 0), fun j hj => absurd hj (Nat.not_lt_zero j), fun r _ _ => ⟨rfl, rfl⟩⟩
  | succ n ih =>
    rw [plcExpansion_succ] at run
    obtain ⟨u, first, last⟩ := runAll_append_some run
    obtain ⟨v, product, last⟩ := runAll_cons_some last
    obtain ⟨w, sum, last⟩ := runAll_cons_some last
    cases last
    have hu := exec_next_err product (exec_next_err sum ht)
    exact (ih (by omega) first hu).step hxd hxe (hx n hn) (fun pos => hd n pos hn) product sum ht

end

/-- Settles O45: the expansion accumulates what `PLC` writes, and read every source of `PLC` tagged `T`. -/
theorem plcIsItsExpansion : Obligations.PlcIsItsExpansion := by
  intro pd pe pa pb px k s t hs rank wa wb hxd hxe hx hd run ht
  have h := plcExpansion_accumulates hxd hxe hx hd le_rfl run ht
  have pos : 0 < k.toNat := by omega
  have addend := h.addend pos
  obtain ⟨acc, accTag⟩ := h.acc
  rw [if_neg pos.ne'] at acc accTag
  obtain ⟨u, plc, wrote, -, value⟩ := plc_completes (pd := pd) hs ⟨rank, wa, wb⟩ ⟨addend, h.sources⟩
  exact ⟨u, plc, wrote.latch.1.trans hs, value.trans acc.symm, wrote.tagged.trans (accTag.trans addend).symm⟩

/-! ### `pmul` is multiplication in the quotients by `X^2 − GAMMA[m]` (R143) -/

/-- The quotient by `X^2 − GAMMA[m]`: the elements `c0 + c1·ω` with `ω^2 = GAMMA[m]`. -/
abbrev PairRing (m : Nat) : Type := QuadraticAlgebra (ZMod 3329) (toZ (gamma m)) 0

/-- Pair `m` of a polynomial, as an element of the quotient. -/
def pairOf (m : Nat) (f : Coeffs) : PairRing m := ⟨toZ (cell f (2 * m)), toZ (cell f (2 * m + 1))⟩

/-- Polynomials with the same 128 pairs are equal. -/
theorem coeffs_ext_pairs {f g : Coeffs} (h : ∀ m, m < 128 → pairOf m f = pairOf m g) : f = g := by
  refine coeffs_ext fun n hn => ?_
  obtain ⟨even, odd⟩ := QuadraticAlgebra.ext_iff.1 (h (n / 2) (by omega))
  rcases Nat.mod_two_eq_zero_or_one n with hn | hn
  · rw [show n = 2 * (n / 2) by omega]
    exact toZ_injective even
  · rw [show n = 2 * (n / 2) + 1 by omega]
    exact toZ_injective odd

section
variable {m : Nat} (hm : m < 128)
include hm

theorem pairOf_padd (a b : Coeffs) : pairOf m (padd a b) = pairOf m a + pairOf m b := by
  ext
  · simp [pairOf, cell_padd a b (2 * m) (by omega)]
  · simp [pairOf, cell_padd a b (2 * m + 1) (by omega)]

theorem pairOf_pmul (a b : Coeffs) : pairOf m (pmul a b) = pairOf m a * pairOf m b := by
  ext
  · simp [pairOf, toZ_cell_pmul_even a b hm, mul_assoc]
  · simp [pairOf, toZ_cell_pmul_odd a b hm]

/-- The pairs `(1, 0)` are the ones of the quotients. -/
theorem pairOf_one : pairOf m (ofValues ((List.range 256).map fun n => if n % 2 = 0 then 1 else 0)) = 1 := by
  have one (n : Nat) (hn : n < 256) :
      cell (ofValues ((List.range 256).map fun n => if n % 2 = 0 then 1 else 0)) n = if n % 2 = 0 then 1 else 0 := by
    rw [cell_ofValues _ (by simp), getD_map_lt _ _ n 0 0 (by simpa using hn)]
    simp [List.getD_eq_getElem?_getD, hn]
  ext
  · show toZ (cell _ (2 * m)) = 1
    rw [one _ (by omega), if_pos (by omega), toZ_one]
  · show toZ (cell _ (2 * m + 1)) = 0
    rw [one _ (by omega), if_neg (by omega), toZ_zero]

end

/-- Settles O46: in each pair, the laws of the quotient. -/
theorem pmulIsARingMultiplication : Obligations.PmulIsARingMultiplication := fun a b c => by
  refine ⟨coeffs_ext_pairs fun m hm => ?_, coeffs_ext_pairs fun m hm => ?_, coeffs_ext_pairs fun m hm => ?_,
    coeffs_ext_pairs fun m hm => ?_⟩
  · rw [pairOf_pmul hm, pairOf_pmul hm, mul_comm]
  · simp only [pairOf_pmul hm, mul_assoc]
  · simp only [pairOf_pmul hm, pairOf_padd hm, mul_add]
  · rw [pairOf_pmul hm, pairOf_one hm, one_mul]

/-! ### The forward transform evaluates at `ω` (R120) -/

/-- The value at `ω` of the polynomial with the coefficients `f`. -/
def valueAt (m : Nat) (f : Coeffs) : PairRing m :=
  ∑ n ∈ Finset.range 256, algebraMap (ZMod 3329) _ (toZ (cell f n)) * QuadraticAlgebra.omega ^ n

theorem omega_sq (m : Nat) :
    (QuadraticAlgebra.omega : PairRing m) ^ 2 = algebraMap (ZMod 3329) _ (toZ (gamma m)) := by
  rw [pow_two, QuadraticAlgebra.omega_mul_omega_eq_algebraMap, map_zero, zero_mul, add_zero]

/-- Each `GAMMA[m]` is an odd power of 17, and `17^128 = −1` (R27). -/
theorem toZ_gamma_pow {m : Nat} (hm : m < 128) : toZ (gamma m) ^ 128 = -1 := by
  have base : (17 : ZMod 3329) ^ 128 = -1 := by reduce_mod_char
  have power : toZ (gamma m) = 17 ^ (2 * bitrev7 m + 1) := by
    rw [toZ, (twiddles_are_powers m hm).2, ZMod.natCast_mod]; push_cast; rfl
  rw [power, ← pow_mul, Nat.mul_comm, pow_mul, base, (odd_two_mul_add_one _).neg_one_pow]

/-- `ω` is a root of `X^256 + 1`. -/
theorem omega_pow {m : Nat} (hm : m < 128) : (QuadraticAlgebra.omega : PairRing m) ^ 256 = -1 := by
  rw [show 256 = 2 * 128 from rfl, pow_mul, omega_sq, ← map_pow, toZ_gamma_pow hm, map_neg, map_one]

/-- Pair `m` of the forward transform is the value at `ω`: the even and the odd coefficients are its two parts. -/
theorem pairOf_ntt (f : Coeffs) {m : Nat} (hm : m < 128) : pairOf m (ntt f) = valueAt m f := by
  have part (i : Nat) (hi : i < 2) : algebraMap (ZMod 3329) (PairRing m) (toZ (cell (ntt f) (2 * m + i))) =
      ∑ n ∈ Finset.range 128, algebraMap (ZMod 3329) (PairRing m) (toZ (cell f (2 * n + i))) *
        (QuadraticAlgebra.omega ^ 2) ^ n := by
    rw [Nat.mul_comm, hasResidues_ntt f m i hm hi, nodeRoot_leaf m hm, omega_sq]
    simp only [map_sum, map_mul, map_pow, Nat.mul_comm _ 2]
  have even := part 0 (by decide)
  have odd := part 1 (by decide)
  simp only [Nat.add_zero] at even
  rw [pairOf, QuadraticAlgebra.mk_eq_add_smul_omega, Algebra.smul_def, valueAt, sum_powers_split _ _ 128, ← even, ← odd,
    mul_comm QuadraticAlgebra.omega]

/-! ### The reference product is the product modulo `X^256 + 1` (R150) -/

section
variable {A : Type} [CommRing A]

/-- `c[m]` of R150 for two sequences of `N` elements of a ring. -/
def convolutionSum (N : Nat) (F G : Nat → A) (m : Nat) : A :=
  ∑ i ∈ Finset.range N with i ≤ m ∧ m < i + N, F i * G (m - i)

theorem map_convolutionSum {B : Type} [CommRing B] (φ : A →+* B) (N : Nat) (F G : Nat → A) (m : Nat) :
    φ (convolutionSum N F G m) = convolutionSum N (fun i => φ (F i)) (fun i => φ (G i)) m := by
  simp only [convolutionSum, map_sum, map_mul]

/-- The convolution has the coefficients of the product. -/
theorem sum_convolutionSum (N : Nat) (F G : Nat → A) (x : A) :
    ∑ m ∈ Finset.range (N + N), convolutionSum N F G m * x ^ m =
      (∑ i ∈ Finset.range N, F i * x ^ i) * ∑ j ∈ Finset.range N, G j * x ^ j := by
  have row (i : Nat) (hi : i < N) : ∑ m ∈ Finset.range (N + N) with i ≤ m ∧ m < i + N, F i * G (m - i) * x ^ m =
      ∑ j ∈ Finset.range N, F i * x ^ i * (G j * x ^ j) := by
    have interval : (Finset.range (N + N)).filter (fun m => i ≤ m ∧ m < i + N) = Finset.Ico i (i + N) := by
      ext m; simp only [Finset.mem_filter, Finset.mem_range, Finset.mem_Ico]; omega
    rw [interval, Finset.sum_Ico_eq_sum_range, Nat.add_sub_cancel_left]
    refine Finset.sum_congr rfl fun j _ => ?_
    rw [Nat.add_sub_cancel_left]; ring
  calc ∑ m ∈ Finset.range (N + N), convolutionSum N F G m * x ^ m
      = ∑ m ∈ Finset.range (N + N), ∑ i ∈ Finset.range N, if i ≤ m ∧ m < i + N then F i * G (m - i) * x ^ m else 0 := by
        simp only [convolutionSum, Finset.sum_mul, Finset.sum_filter, ite_mul, zero_mul]
    _ = ∑ i ∈ Finset.range N, ∑ m ∈ Finset.range (N + N) with i ≤ m ∧ m < i + N, F i * G (m - i) * x ^ m := by
        rw [Finset.sum_comm]; simp only [Finset.sum_filter]
    _ = ∑ i ∈ Finset.range N, ∑ j ∈ Finset.range N, F i * x ^ i * (G j * x ^ j) :=
        Finset.sum_congr rfl fun i hi => row i (Finset.mem_range.1 hi)
    _ = _ := (Finset.sum_mul_sum ..).symm

/-- At a root of `X^N + 1` the upper half of the convolution is subtracted from the lower half. -/
theorem sum_convolutionSum_wrapped {N : Nat} (F G : Nat → A) {x : A} (hx : x ^ N = -1) :
    ∑ m ∈ Finset.range N, (convolutionSum N F G m - convolutionSum N F G (m + N)) * x ^ m =
      (∑ i ∈ Finset.range N, F i * x ^ i) * ∑ j ∈ Finset.range N, G j * x ^ j := by
  rw [← sum_convolutionSum, Finset.sum_range_add, ← Finset.sum_add_distrib]
  refine Finset.sum_congr rfl fun m _ => ?_
  rw [pow_add, hx, Nat.add_comm N m]; ring

end

theorem toZ_foldl_zadd {α : Type} (F : α → FieldElement) (l : List α) (c : FieldElement) :
    toZ (l.foldl (fun c i => zadd c (F i)) c) = toZ c + (l.map fun i => toZ (F i)).sum := by
  induction l generalizing c with
  | nil => simp
  | cons i l ih => rw [List.foldl_cons, ih, toZ_zadd, List.map_cons, List.sum_cons, add_assoc]

/-- The model's convolution is the one of the field. -/
theorem toZ_convolution (f g : Coeffs) (m : Nat) :
    toZ (convolution f g m) = convolutionSum 256 (fun i => toZ (cell f i)) (fun i => toZ (cell g i)) m := by
  rw [convolution, toZ_foldl_zadd, toZ_zero, zero_add, ← List.sum_toFinset _ (List.nodup_range.filter _),
    List.toFinset_filter, List.toFinset_range, convolutionSum]
  simp

/-- There is no `c[511]` (R150). -/
theorem convolution_top (f g : Coeffs) : convolution f g 511 = 0 := by
  have none : ((List.range 256).filter fun i => decide (i ≤ 511) && decide (511 < i + 256)) = [] := by decide
  rw [convolution, none, List.foldl_nil]

theorem toZ_cell_rmul (f g : Coeffs) {n : Nat} (hn : n < 256) :
    toZ (cell (rmul f g) n) = toZ (convolution f g n) - toZ (convolution f g (n + 256)) := by
  rw [rmul, cell_ofValues _ (by simp), getD_map_lt _ _ n 0 0 (by simpa using hn)]
  have entry : (List.range 256).getD n 0 = n := by simp [List.getD_eq_getElem?_getD, hn]
  rw [entry]
  split
  · rw [toZ_zsub]
  · obtain rfl : n = 255 := by omega
    rw [convolution_top, toZ_zero, sub_zero]

theorem valueAt_rmul (f g : Coeffs) {m : Nat} (hm : m < 128) : valueAt m (rmul f g) = valueAt m f * valueAt m g := by
  rw [valueAt, valueAt, valueAt, ← sum_convolutionSum_wrapped _ _ (omega_pow hm)]
  refine Finset.sum_congr rfl fun n hn => ?_
  rw [toZ_cell_rmul f g (Finset.mem_range.1 hn), map_sub, toZ_convolution, toZ_convolution, map_convolutionSum,
    map_convolutionSum]

/-- The forward transform takes the reference product to the product pair by pair. -/
theorem ntt_rmul (f g : Coeffs) : ntt (rmul f g) = pmul (ntt f) (ntt g) :=
  coeffs_ext_pairs fun m hm => by
    rw [pairOf_pmul hm, pairOf_ntt _ hm, pairOf_ntt _ hm, pairOf_ntt _ hm, valueAt_rmul f g hm]

/-! ### Programs of transforms and products (R151, R153) -/

theorem pmul_computes {s : State} (hs : s.err = none) (pd : RegNo) {pa pb : RegNo} {f g : Coeffs} (ha : Holds s pa f .tq)
    (hb : Holds s pb g .tq) : ∃ t, Computes (.pmul pd pa pb) s t pd (pmul f g) .tq := by
  obtain ⟨rfl, tagA⟩ := ha
  obtain ⟨rfl, tagB⟩ := hb
  obtain ⟨t, run, wrote, -, value⟩ := (transformed_poly_spec (i := .pmul pd pa pb) hs rfl).1 tagA tagB
  exact ⟨t, computes_of_wrotePoly hs run wrote value⟩

theorem intt_pmul_ntt (f g : Coeffs) : intt (pmul (ntt f) (ntt g)) = rmul f g := by
  rw [← ntt_rmul, intt_ntt]

/-- The program of R151: every register it reads holds what an earlier command, or the start, left there. -/
theorem product_program_computes {s : State} {f g : Coeffs} (hs : s.err = none) (h0 : Holds s 0 f .rq)
    (h1 : Holds s 1 g .rq) : ∃ t, runAll [.ntt 2 0, .ntt 3 1, .pmul 4 2 3, .intt 5 4] s = some t ∧ t.err = none ∧
      Holds t 5 (intt (pmul (ntt f) (ntt g))) .rq := by
  obtain ⟨t1, c1⟩ := ntt_computes hs 2 h0
  obtain ⟨t2, c2⟩ := ntt_computes c1.err 3 (c1.keeps (by decide) h1)
  obtain ⟨t3, c3⟩ := pmul_computes c2.err 4 (c2.keeps (by decide) c1.dest) c2.dest
  obtain ⟨t4, c4⟩ := intt_computes c3.err 5 c3.dest
  refine ⟨t4, ?_, c4.err, c4.dest⟩
  rw [runAll_cons_next c1.run, runAll_cons_next c2.run, runAll_cons_next c3.run, runAll_cons_next c4.run, runAll]

/-- Settles O47: the transform of the reference product is the product of the transforms, and the program computes the latter. -/
theorem pointwiseProductIsRingProduct : Obligations.PointwiseProductIsRingProduct := by
  refine ⟨intt_pmul_ntt, fun s hs h0 h1 => ?_⟩
  obtain ⟨t, run, err, value, tag⟩ := product_program_computes hs ⟨rfl, h0⟩ ⟨rfl, h1⟩
  exact ⟨t, run, err, value.trans (intt_pmul_ntt _ _), tag⟩

theorem linearCombination_cons (e : Coeffs) (t : Coeffs × Coeffs) (terms : List (Coeffs × Coeffs)) :
    linearCombination e (t :: terms) = linearCombination (padd e (pmul t.1 t.2)) terms := rfl

/-- The linear combination of transforms is the transform of the combination in the ring. -/
theorem linearCombination_ntt (e : Coeffs) (terms : List (Coeffs × Coeffs)) :
    linearCombination (ntt e) (terms.map fun t => (ntt t.1, ntt t.2)) =
      ntt (terms.foldl (fun acc t => padd acc (rmul t.1 t.2)) e) := by
  induction terms generalizing e with
  | nil => rfl
  | cons t terms ih =>
    rw [List.foldl_cons, ← ih, ntt_isLinear.add, ntt_rmul, List.map_cons, linearCombination_cons]

/-- Settles O48: the inverse transform undoes the transform of the combination, and `PLC` computes the combination of the
transforms its windows hold. -/
theorem linearCombinationIsRingCombination : Obligations.LinearCombinationIsRingCombination := by
  have combination (e : Coeffs) (terms : List (Coeffs × Coeffs)) :
      intt (linearCombination (ntt e) (terms.map fun t => (ntt t.1, ntt t.2))) =
        terms.foldl (fun acc t => padd acc (rmul t.1 t.2)) e := by
    rw [linearCombination_ntt, intt_ntt]
  refine ⟨combination, fun pd pe pa pb p2 k e a b s hs rank wa wb tagE valueE h => ?_⟩
  have windows : factors s pa pb k.toNat =
      ((List.range k.toNat).map fun j => (a j, b j)).map fun t => (ntt t.1, ntt t.2) := by
    rw [factors, List.map_map]
    refine List.map_congr_left fun j hj => ?_
    obtain ⟨-, valueA, -, valueB⟩ := h j (List.mem_range.1 hj)
    rw [valueA, valueB]; rfl
  obtain ⟨t, plc, wrote, -, value⟩ := plc_completes (pd := pd) hs ⟨rank, wa, wb⟩
    ⟨tagE, fun j hj => ⟨(h j hj).1, (h j hj).2.2.1⟩⟩
  have computes := computes_of_wrotePoly hs plc wrote value
  obtain ⟨u, c⟩ := intt_computes computes.err p2 computes.dest
  refine ⟨t, u, plc, c.run, c.err, c.dest.2, c.dest.1.trans ?_⟩
  rw [valueE, windows, combination, List.foldl_map]

end Sys2Proof.Machine
end

section
/-! Statements about the samplers (43_samplers.md R160 to R170). `SAMPLEU` through the sample its loop answers
(`uniformSample`), which is absent exactly when the stream is starved; `SAMPLECBD` through the bits of one coefficient, which
are a run of the bit string of BUF. -/
namespace Sys2Proof.Machine

/-! ### `XOPEN` (R163) -/

/-- `XI` is the high byte of what `XOPEN` writes to `XIJ` (R35). -/
theorem streamI_openStream (s : State) (i j : Byte) : streamI (openStream s i j) = i := by
  refine BitVec.eq_of_toNat_eq ?_
  rw [streamI, openStream_xij, BitVec.toNat_ofNat, BitVec.toNat_ofNat]; omega

/-- `XJ` is the low byte of what `XOPEN` writes to `XIJ` (R35). -/
theorem streamJ_openStream (s : State) (i j : Byte) : streamJ (openStream s i j) = j := by
  refine BitVec.eq_of_toNat_eq ?_
  rw [streamJ, openStream_xij, BitVec.toNat_ofNat, BitVec.toNat_ofNat]; omega

/-- Settles O49: `XOPEN` has no check, and its write is the one of `openStream`. -/
theorem xopenSelectsAndRewinds : Obligations.XopenSelectsAndRewinds := fun i j => by
  refine ⟨isTheWordOf_opcode_fields _ (Nat.add_assoc _ _ _).symm, fun s hs => ?_⟩
  refine ⟨_, (command_runs (i := .xopen i j) hs firstFailing_nil).trans (complete_eq _), ?_⟩
  exact ⟨streamI_openStream s i j, streamJ_openStream s i j, rfl, rfl, rfl, ⟨rfl, rfl⟩, ⟨rfl, rfl⟩, ⟨fun _ => rfl, rfl⟩,
    ⟨rfl, rfl, rfl⟩, ⟨rfl, rfl⟩⟩

/-! ### `SAMPLEU` (R164 to R166) -/

section
variable {s : State} {pd : RegNo}

/-- On an open stream `SAMPLEU` passes its check (R165). -/
theorem exec_sampleu_of_open (hs : s.err = none) (hx : s.xvalid = true) :
    exec (.sampleu pd) s = finishSample pd s (uniformSample s) :=
  command_runs (i := .sampleu pd) hs (by simp [hx])

/-- On a starved open stream `SAMPLEU` hangs (R166). -/
theorem exec_sampleu_of_starved (hs : s.err = none) (hx : s.xvalid = true) (hm : ∀ m, (acceptable s m).length < 256) :
    exec (.sampleu pd) s = .fault .samplerHung := by
  rw [exec_sampleu_of_open hs hx, (uniformSample_eq_none s).2 hm]; rfl

end

/-- A sample is tagged `T`, and beside its register only the stream position and `PC` change (R165). -/
theorem wrotePoly_finishSample (s : State) (pd : RegNo) (a : Sampling) :
    ∃ t, finishSample pd s (some a) = .next t ∧ WrotePoly s t pd .tq ∧ t.xpos = a.pos ∧
      t.preg[pd] = ofValues a.out.reverse :=
  ⟨_, complete_eq _, { wrotePoly_complete s pd (ofValues a.out.reverse) .tq with }, rfl, writePoly_preg_self s pd _ .tq⟩

/-- Each chunk makes two candidates (R164). -/
theorem length_acceptable_le (s : State) (m : Nat) : (acceptable s m).length ≤ 2 * m := by
  calc (acceptable s m).length ≤ ((List.range (2 * m)).map (candidate s)).length := List.length_filter_le _ _
    _ = 2 * m := by rw [List.length_map, List.length_range]

/-- Settles O50: a stream that is not starved has a sample, and `SAMPLEU` writes it. -/
theorem sampleuTakesTheFirst256Acceptable : Obligations.SampleuTakesTheFirst256Acceptable := fun pd => by
  refine ⟨isTheWordOf_opcode_fields _ rfl, fun s hs => ⟨fun hx ⟨k, enough⟩ => ?_, fun hx => ?_⟩⟩
  · have fed : uniformSample s ≠ none := fun h => by
      have starved := (uniformSample_eq_none s).1 h k
      omega
    obtain ⟨a, ha⟩ := Option.ne_none_iff_exists'.1 fed
    obtain ⟨m, pos, out, full, least⟩ := uniformSample_eq_some s a ha
    obtain ⟨t, run, wrote, xpos, value⟩ := wrotePoly_finishSample s pd a
    have chunks := length_acceptable_le s m
    refine ⟨m, t, ?_, wrote, xpos.trans pos, by omega, full, least, ?_⟩
    · rw [exec_sampleu_of_open hs hx, ha, run]
    · rw [value, toList_ofValues _ (by rw [List.length_reverse, length_uniformSample s a ha]), ← out]
  · exact command_raises hs (by simp [hx])

/-- Settles O7: of what a command can answer, only a hung `SAMPLEU` is no next state, and it has no sample. -/
theorem onlyAStarvedSamplerHangs : Obligations.OnlyAStarvedSamplerHangs := by
  refine fun i s => ⟨fun stuck => ?_, ?_⟩
  · have answer := exec_answers i s
    generalize exec i s = o at stuck answer
    cases answer with
    | ignored _ => exact absurd rfl (stuck _)
    | raised c _ _ => exact absurd rfl (stuck _)
    | completed u _ _ => exact absurd (complete_eq u) (stuck _)
    | hung pd he hi hx hu => exact ⟨⟨pd, hi⟩, he, hx, (uniformSample_eq_none s).1 hu⟩
  · rintro ⟨⟨pd, rfl⟩, he, hx, hm⟩ t ht
    cases (exec_sampleu_of_starved he hx hm).symm.trans ht

/-- Settles O8: the delivered `SAMPLEU` hangs, and the step then looks at the host's next move. -/
theorem resetEndsAHungSampler : Obligations.ResetEndsAHungSampler := by
  intro s w rest pd hp hd he hx hm
  have hang : step s = resetIfHung (withPending s rest) (.fault .samplerHung) :=
    (step_of_command hp hd).trans (congrArg _ (exec_sampleu_of_starved (s := withPending s rest) he hx hm))
  exact ⟨fun more hr => hang.trans (resetIfHung_hung_reset hr), fun hr => hang.trans (resetIfHung_hung hr)⟩

/-! ### `SAMPLECBD` (R167 to R170) -/

/-- The sum of the first `n` elements of a list, an element past its end counting 0. -/
theorem sum_take_eq_sum_getD (l : List Nat) (n : Nat) : (l.take n).sum = ∑ u ∈ Finset.range n, l.getD u 0 := by
  induction n generalizing l with
  | zero => simp
  | succ n ih =>
    cases l with
    | nil => simp
    | cons b l => rw [List.take_succ_cons, List.sum_cons, ih, Finset.sum_range_succ', Nat.add_comm]; rfl

/-- The sum of `n` elements of a list from element `a` on. -/
theorem sum_drop_take (l : List Nat) (a n : Nat) :
    ((l.drop a).take n).sum = ∑ u ∈ Finset.range n, l.getD (a + u) 0 := by
  rw [sum_take_eq_sum_getD]
  exact Finset.sum_congr rfl fun u _ => by simp [List.getD_eq_getElem?_getD]

/-- Coefficient `i` of a sample, from the `2η` bits it is made of (R167). -/
theorem cell_cbd (eta : Nat) (bytes : List Byte) {i : Nat} (hi : i < 256) : cell (cbd eta bytes) i =
    toField (((∑ u ∈ Finset.range eta, (bitString bytes).getD (2 * i * eta + u) 0 : Nat) : Int) -
      (∑ u ∈ Finset.range eta, (bitString bytes).getD (2 * i * eta + eta + u) 0 : Nat)) := by
  rw [cbd, cell_ofValues _ (by simp), getD_map_lt _ _ _ _ [] (by simpa using hi), getD_groups _ _ _ _ hi,
    show i * (2 * eta) = 2 * i * eta by ring, cbdCoefficient, List.take_take, List.drop_take, List.drop_drop,
    show min eta (2 * eta) = eta by omega, show 2 * eta - eta = eta by omega, sum_drop_take, sum_drop_take]

/-- A bit of the first `n` bytes of BUF (R54). -/
theorem getD_bitString_memReadList (s : State) {n g : Nat} (h : g < 8 * n) :
    (bitString (memReadList s n)).getD g 0 = bufBit s g := by
  rw [getD_bitString _ _ (by rwa [length_memReadList]), getD_memReadList _ _ _ (by omega), bufBit]

/-- A run of `n` bits that lies in the bytes read, summed. -/
theorem sum_getD_bitString_memReadList (s : State) {a n k : Nat} (h : a + n ≤ 8 * k) :
    ∑ u ∈ Finset.range n, (bitString (memReadList s k)).getD (a + u) 0 = ∑ u ∈ Finset.range n, bufBit s (a + u) := by
  refine Finset.sum_congr rfl fun u hu => getD_bitString_memReadList s ?_
  have := Finset.mem_range.1 hu
  omega

/-- Coefficient `i` of the sample of BUF, as R167 writes it. -/
theorem cell_cbd_memReadList_val (s : State) (eta : Nat) {i : Nat} (hi : i < 256) :
    ((cell (cbd eta (memReadList s (64 * eta))) i).val : Int) =
      ((∑ u ∈ Finset.range eta, (bufBit s (2 * i * eta + u) : Int)) -
        ∑ u ∈ Finset.range eta, (bufBit s (2 * i * eta + eta + u) : Int)) % 3329 := by
  have inBuffer : 2 * i * eta + eta + eta ≤ 8 * (64 * eta) := by nlinarith
  rw [cell_cbd _ _ hi, sum_getD_bitString_memReadList s (by omega), sum_getD_bitString_memReadList s inBuffer, toField_val,
    Int.toNat_of_nonneg (Int.emod_nonneg _ (by decide)), Nat.cast_sum, Nat.cast_sum]

theorem badEta_eq_true {eta : BitVec 4} : badEta eta = true ↔ eta.toNat < 1 ∨ 6 < eta.toNat := by simp [badEta]

theorem badEta_eq_false {eta : BitVec 4} : badEta eta = false ↔ 1 ≤ eta.toNat ∧ eta.toNat ≤ 6 := by
  rw [← Bool.not_eq_true, badEta_eq_true]; omega

theorem blenNot_eq_true {s : State} {n : Nat} : blenNot s n = true ↔ s.blen.toNat ≠ n := by simp [blenNot]

theorem blenNot_eq_false {s : State} {n : Nat} : blenNot s n = false ↔ s.blen.toNat = n := by simp [blenNot]

/-- Settles O51: the two checks in order, then the coefficients bit by bit. -/
theorem samplecbdSubtractsBitSums : Obligations.SamplecbdSubtractsBitSums := fun pd eta => by
  refine ⟨isTheWordOf_opcode_fields _ (Nat.add_assoc _ _ _).symm, fun s hs => ⟨fun low high len => ?_, fun bad => ?_,
    fun low high len => ?_⟩⟩
  · obtain ⟨t, run, wrote, xpos, value⟩ := poly_completes (i := .samplecbd pd eta) (pd := pd) (g := .rq)
      (f := cbd eta.toNat (memReadList s (64 * eta.toNat)))
      (checks := [(badEta eta, .illegal), (blenNot s (64 * eta.toNat), .length)]) hs
      (by simp [badEta_eq_false.2 ⟨low, high⟩, blenNot_eq_false.2 len])
    exact ⟨t, run, wrote, xpos, fun i hi => by rw [value, cell_cbd_memReadList_val s _ hi]⟩
  · exact command_raises hs (by simp [badEta_eq_true.2 bad])
  · exact command_raises hs (by simp [badEta_eq_false.2 ⟨low, high⟩, blenNot_eq_true.2 len])

/-- Bits sum to at most their number. -/
theorem sum_bits_le (bits : List Nat) (h : ∀ b ∈ bits, b < 2) : bits.sum ≤ bits.length := by
  simpa using List.sum_le_card_nsmul bits 1 fun b hb => Nat.le_of_lt_succ (h b hb)

/-- The difference of two sums of at most `η` bits lies in `[−η, η]` modulo 3329 (R170). -/
theorem cbdCoefficient_small {eta : Nat} {bits : List Nat} (h : ∀ b ∈ bits, b < 2) (hl : bits.length ≤ 2 * eta) :
    (cbdCoefficient eta bits).val ≤ eta ∨ 3329 - eta ≤ (cbdCoefficient eta bits).val := by
  have hx : (bits.take eta).sum ≤ eta :=
    (sum_bits_le _ fun b hb => h b (List.mem_of_mem_take hb)).trans (List.length_take_le _ _)
  have hy : (bits.drop eta).sum ≤ eta :=
    (sum_bits_le _ fun b hb => h b (List.mem_of_mem_drop hb)).trans (by rw [List.length_drop]; omega)
  rw [cbdCoefficient, toField_val]
  omega

/-- Settles O52: every coefficient is made of one group of `2η` bits. -/
theorem cbdCoefficientsAreSmall : Obligations.CbdCoefficientsAreSmall := by
  intro eta bytes _ _ hlen c hc
  rw [cbd, toList_ofValues _ (by simp)] at hc
  obtain ⟨bits, hg, rfl⟩ := List.mem_map.1 hc
  have enough : 2 * eta * 256 ≤ (bitString bytes).length := by rw [length_bitString, hlen]; omega
  exact cbdCoefficient_small (fun b hb => bitString_lt_two bytes b (mem_of_mem_groups _ _ _ bits hg b hb))
    (length_of_mem_groups _ _ _ enough bits hg).le

end Sys2Proof.Machine
end

section
/-! Statements about the byte buffer and the codec (44_codec.md R180 to R188). The codec through its bit strings: cutting a list
of bits into groups and writing the groups as numbers loses nothing, and every byte and every coefficient is the sum of the bits
of its group. -/
namespace Sys2Proof.Machine

/-! ### `BCLR` and `BPUT` (R184, R185) -/

/-- A buffer command whose checks pass leaves the bytes `m` and the length `n`, and changes nothing else but `PC`. -/
theorem buffer_completes {i : Instr} {s : State} {checks : List (Bool × Cause)} {m : Memory} {n : Nat} (hs : s.err = none)
    (hc : firstFailing checks = none) (hn : n < 512) :
    ∃ t, command i s checks (complete (setBlen { s with buf := m } n)) = .next t ∧ WroteBuffer s t n ∧
      ∀ a, memRead t a = m.read a :=
  ⟨_, (command_runs hs hc).trans (complete_eq _),
    { blen := setBlen_toNat { s with buf := m } n hn
      pc := rfl
      scalars := ⟨rfl, rfl⟩
      polys := ⟨rfl, rfl⟩
      stream := ⟨rfl, rfl, rfl⟩
      latch := ⟨rfl, rfl, rfl⟩
      environment := ⟨rfl, rfl⟩ }, fun _ => rfl⟩

/-- Settles O53: `BCLR` has no check and writes no byte. -/
theorem bclrEmptiesTheBuffer : Obligations.BclrEmptiesTheBuffer :=
  ⟨isTheWordOf_opcode_fields _ rfl, fun s hs =>
    buffer_completes (i := .bclr) (m := s.buf) hs firstFailing_nil (by decide)⟩

/-- Settles O54: the one check is on a full buffer, and the write is at `BLEN`. -/
theorem bputAppendsAByte : Obligations.BputAppendsAByte := fun imm8 => by
  refine ⟨isTheWordOf_opcode_fields _ rfl, fun s hs => ⟨fun room => ?_, fun full => ?_⟩⟩
  · obtain ⟨t, run, wrote, read⟩ := buffer_completes (i := .bput imm8) (m := s.buf.write s.blen.toNat imm8)
      (n := s.blen.toNat + 1) (checks := [(decide (384 ≤ s.blen.toNat), .length)]) hs (by simp [room]) (by omega)
    refine ⟨t, run, wrote, ?_, fun a ha => ?_⟩
    · rw [read, Memory.read_write, if_pos rfl]
    · rw [read, Memory.read_write, if_neg ha, memRead]
  · exact command_raises hs (by simp [full])

/-! ### Bytes and coefficients as sums of bits (R181, R182) -/

/-- The number of a run of `n` bits of a bit string. -/
theorem ofBits_drop_take {l : List Nat} {a n : Nat} (h : a + n ≤ l.length) :
    ofBits ((l.drop a).take n) = ∑ i ∈ Finset.range n, l.getD (a + i) 0 * 2 ^ i := by
  have len : ((l.drop a).take n).length = n := by rw [List.length_take, List.length_drop]; omega
  rw [ofBits_eq_sum, len]
  exact Finset.sum_congr rfl fun i hi => by rw [getD_drop_take n l a i 0 (Finset.mem_range.1 hi)]

/-- Up to `n` bits make a number below `2^n`. -/
theorem ofBits_lt_of_length_le {l : List Nat} {n : Nat} (hl : ∀ b ∈ l, b < 2) (h : l.length ≤ n) : ofBits l < 2 ^ n :=
  (ofBits_lt l hl).trans_le (Nat.pow_le_pow_right (by decide) h)

theorem length_le_of_mem_groups {α : Type} {n count : Nat} {l g : List α} (hg : g ∈ groups n count l) : g.length ≤ n := by
  induction count generalizing l with
  | zero => cases hg
  | succ c ih =>
    rcases List.mem_cons.1 hg with rfl | hg
    · exact List.length_take_le n l
    · exact ih hg

/-- The number of a group of bits fits in the width of the group. -/
theorem ofBits_lt_of_mem_groups {n count : Nat} {l g : List Nat} (hl : ∀ b ∈ l, b < 2) (hg : g ∈ groups n count l) :
    ofBits g < 2 ^ n :=
  ofBits_lt_of_length_le (fun b hb => hl b (mem_of_mem_groups n count l g hg b hb)) (length_le_of_mem_groups hg)

theorem flatMap_toBits_lt_two (d : Nat) (vs : List Nat) : ∀ b ∈ vs.flatMap (toBits d), b < 2 := by
  intro b hb
  obtain ⟨v, -, hv⟩ := List.mem_flatMap.1 hb
  exact toBits_lt_two d v b hv

@[simp] theorem length_flatMap_toBits (d : Nat) (vs : List Nat) : (vs.flatMap (toBits d)).length = d * vs.length :=
  length_flatMap_const d _ _ fun _ _ => length_toBits d _

theorem toList_eq_map_cell (f : Coeffs) : f.toList = (List.range 256).map (cell f) := by
  refine List.ext_getElem (by simp) fun n hn _ => ?_
  rw [List.getElem_map, List.getElem_range, cell_eq_getElem f n (by simpa using hn), Vector.getElem_toList]

/-- Bit `g` of the bit string of a polynomial (R181). -/
theorem getD_bits_coeffBit (d : Nat) (f : Coeffs) {g : Nat} (hg : g < d * 256) :
    ((f.toList.map fun c => c.val).flatMap (toBits d)).getD g 0 = coeffBit d f g := by
  have hd : 0 < d := by omega
  rw [getD_flatMap d _ _ 0 0 (length_toBits d) g (by simpa using hg), getD_toBits _ _ _ (Nat.mod_lt g hd),
    getD_map_lt _ _ _ 0 0 (by simpa using Nat.div_lt_of_lt_mul hg)]
  rfl

/-- Byte `n` of `encode(d, f)` (R181). -/
theorem getD_encodeBytes_toNat {d n : Nat} (f : Coeffs) (hn : n < 32 * d) :
    ((encodeBytes d f).getD n 0).toNat = ∑ u ∈ Finset.range 8, coeffBit d f (8 * n + u) * 2 ^ u := by
  have inString : n * 8 + 8 ≤ ((f.toList.map fun c => c.val).flatMap (toBits d)).length := by
    rw [length_flatMap_toBits, List.length_map, Vector.length_toList]; omega
  have fits : ofBits ((((f.toList.map fun c => c.val).flatMap (toBits d)).drop (n * 8)).take 8) < 2 ^ 8 :=
    ofBits_lt_of_length_le (fun b hb => flatMap_toBits_lt_two _ _ b (List.mem_of_mem_drop (List.mem_of_mem_take hb)))
      (List.length_take_le _ _)
  rw [encodeBytes, encodeValues, getD_map_lt _ _ _ _ [] (by simpa using hn), getD_groups _ _ _ _ hn, BitVec.toNat_ofNat,
    Nat.mod_eq_of_lt fits, ofBits_drop_take inString, Nat.mul_comm n]
  refine Finset.sum_congr rfl fun u hu => ?_
  have := Finset.mem_range.1 hu
  rw [getD_bits_coeffBit d f (by omega)]

/-- Value `c` the decoder reads from BUF (R182). -/
theorem getD_bufValues (s : State) (d : BitVec 4) {c : Nat} (hc : c < 256) :
    (bufValues s d).getD c 0 = bufValue s d.toNat c := by
  have inBuffer : c * d.toNat + d.toNat ≤ 8 * (32 * d.toNat) := by nlinarith
  rw [bufValues, decodeValues, getD_map_lt _ _ _ _ [] (by simpa using hc), getD_groups _ _ _ _ hc,
    ofBits_drop_take (by simpa [length_memReadList] using inBuffer)]
  refine Finset.sum_congr rfl fun i hi => ?_
  have := Finset.mem_range.1 hi
  rw [getD_bitString_memReadList s (by omega)]

@[simp] theorem length_bufValues (s : State) (d : BitVec 4) : (bufValues s d).length = 256 := length_decodeValues _ _

theorem bufValues_eq (s : State) (d : BitVec 4) : bufValues s d = (List.range 256).map (bufValue s d.toNat) := by
  refine List.ext_getElem (by simp) fun c hc _ => ?_
  rw [List.getElem_map, List.getElem_range, ← getD_bufValues s d (by simpa using hc), List.getD_eq_getElem]

/-! ### The checks of the codec commands (R183, R186) -/

theorem badWidth_eq_true {d : BitVec 4} : badWidth d = true ↔ d.toNat < 1 ∨ 12 < d.toNat := by simp [badWidth]

theorem badWidth_eq_false {d : BitVec 4} : badWidth d = false ↔ 1 ≤ d.toNat ∧ d.toNat ≤ 12 := by
  rw [← Bool.not_eq_true, badWidth_eq_true]; omega

theorem polyEmpty_eq_true {s : State} {r : RegNo} : polyEmpty s r = true ↔ s.ptag[r] = .empty := by
  rw [polyEmpty_eq, decide_eq_true_eq]

theorem polyEmpty_eq_false {s : State} {r : RegNo} : polyEmpty s r = false ↔ s.ptag[r] ≠ .empty := by
  rw [polyEmpty_eq, decide_eq_false_iff_not]

theorem tooWide_eq_true {d : Nat} {f : Coeffs} : tooWide d f = true ↔ ∃ n, n < 256 ∧ 2 ^ d ≤ (cell f n).val := by
  simp [tooWide, toList_eq_map_cell]

theorem tooWide_eq_false {d : Nat} {f : Coeffs} : tooWide d f = false ↔ ∀ n, n < 256 → (cell f n).val < 2 ^ d := by
  rw [← Bool.not_eq_true, tooWide_eq_true]; simp

theorem outOfField_bufValues_eq_true {s : State} {d : BitVec 4} :
    outOfField (bufValues s d) = true ↔ ∃ c, c < 256 ∧ 3329 ≤ bufValue s d.toNat c := by
  simp [outOfField, bufValues_eq]

theorem outOfField_bufValues_eq_false {s : State} {d : BitVec 4} :
    outOfField (bufValues s d) = false ↔ ∀ c, c < 256 → bufValue s d.toNat c < 3329 := by
  rw [← Bool.not_eq_true, outOfField_bufValues_eq_true]; simp

/-! ### `ENCODE` (R183) -/

/-- `ENCODE` whose checks pass puts `encode(d, p[pa])` in BUF from address 0 on. -/
theorem encode_completes {s : State} {pa : RegNo} {d : BitVec 4} (hs : s.err = none) (low : 1 ≤ d.toNat)
    (high : d.toNat ≤ 12) (tagged : s.ptag[pa] ≠ .empty) (narrow : ∀ n, n < 256 → (cell s.preg[pa] n).val < 2 ^ d.toNat) :
    ∃ t, exec (.encode pa d) s = .next t ∧ WroteBuffer s t (32 * d.toNat) ∧
      ∀ a, memRead t a = (s.buf.writeList 0 (encodeBytes d.toNat s.preg[pa])).read a := by
  have fits : tooWide d.toNat (readPoly s pa) = false := tooWide_eq_false.2 narrow
  have pass : firstFailing [(badWidth d, .illegal), (polyEmpty s pa, .empty),
      (tooWide d.toNat (readPoly s pa), .range)] = none := by
    simp [badWidth_eq_false.2 ⟨low, high⟩, polyEmpty_eq_false.2 tagged, fits]
  exact buffer_completes (i := .encode pa d) hs pass (by omega)

/-- Settles O55: the three checks in order, then the bytes bit by bit. -/
theorem encodePacksCoefficients : Obligations.EncodePacksCoefficients := fun pa d => by
  refine ⟨isTheWordOf_opcode_fields _ (Nat.add_assoc _ _ _).symm, fun s hs => ⟨fun bad => ?_, fun low high =>
    ⟨fun tag => ?_, fun tagged wide => ?_, fun tagged narrow => ?_⟩⟩⟩
  · exact encode_raises_illegal hs (badWidth_eq_true.2 bad)
  · exact command_raises hs (by simp [badWidth_eq_false.2 ⟨low, high⟩, polyEmpty_eq_true.2 tag])
  · have overflow : tooWide d.toNat (readPoly s pa) = true := tooWide_eq_true.2 wide
    exact command_raises hs (by simp [badWidth_eq_false.2 ⟨low, high⟩, polyEmpty_eq_false.2 tagged, overflow])
  · obtain ⟨t, run, wrote, read⟩ := encode_completes hs low high tagged narrow
    refine ⟨t, run, wrote, fun n hn => ?_, fun a ha => ?_⟩
    · rw [read, Memory.read_writeList, if_pos ⟨n.zero_le, by simpa using hn⟩]
      exact getD_encodeBytes_toNat _ hn
    · rw [read, Memory.read_writeList, if_neg (by simp; omega), memRead]

/-! ### `DECODE.R` and `DECODE.T` (R186, R187) -/

/-- Coefficient `c` of the decoded polynomial, if its value is in the field. -/
theorem cell_decodedPoly_val {s : State} {d : BitVec 4} {c : Nat} (hc : c < 256) (h : bufValue s d.toNat c < 3329) :
    (cell (decodedPoly s d) c).val = bufValue s d.toNat c := by
  rw [decodedPoly, cell_ofValues _ (by simp), getD_map_lt _ _ _ _ 0 (by simpa using hc), getD_bufValues s d hc,
    toField_of_lt h]

section
variable {i : Instr} {s : State} {pd : RegNo} {d : BitVec 4} {g : Tag} (hs : s.err = none)
  (hi : exec i s = command i s (decodeChecks s d) (complete (writePoly s pd (decodedPoly s d) g)))
include hs hi

/-- A decoder command whose checks pass. -/
theorem decode_completes (low : 1 ≤ d.toNat) (high : d.toNat ≤ 12) (len : s.blen.toNat = 32 * d.toNat)
    (small : outOfField (bufValues s d) = false) :
    ∃ t, exec i s = .next t ∧ WrotePoly s t pd g ∧ t.xpos = s.xpos ∧ t.preg[pd] = decodedPoly s d := by
  rw [hi]
  exact poly_completes hs (by simp [decodeChecks, badWidth_eq_false.2 ⟨low, high⟩, blenNot_eq_false.2 len, small])

/-- The decoder with either tag: the three checks in order, then the coefficients bit by bit (R186, R187). -/
theorem decode_spec :
    (d.toNat < 1 ∨ 12 < d.toNat → Raises i s .illegal) ∧
    (1 ≤ d.toNat → d.toNat ≤ 12 →
      (s.blen.toNat ≠ 32 * d.toNat → Raises i s .length) ∧
      (s.blen.toNat = 32 * d.toNat → (∃ c, c < 256 ∧ 3329 ≤ bufValue s d.toNat c) → Raises i s .range) ∧
      (s.blen.toNat = 32 * d.toNat → (∀ c, c < 256 → bufValue s d.toNat c < 3329) →
        ∃ t, exec i s = .next t ∧ WrotePoly s t pd g ∧ t.xpos = s.xpos ∧
          ∀ c, c < 256 → (cell t.preg[pd] c).val = bufValue s d.toNat c)) := by
  refine ⟨fun bad => ?_, fun low high => ⟨fun len => ?_, fun len large => ?_, fun len small => ?_⟩⟩
  · exact hi.trans (command_raises hs (by simp [decodeChecks, badWidth_eq_true.2 bad]))
  · exact hi.trans (command_raises hs (by
      simp [decodeChecks, badWidth_eq_false.2 ⟨low, high⟩, blenNot_eq_true.2 len]))
  · exact hi.trans (command_raises hs (by
      simp [decodeChecks, badWidth_eq_false.2 ⟨low, high⟩, blenNot_eq_false.2 len, outOfField_bufValues_eq_true.2 large]))
  · obtain ⟨t, run, wrote, xpos, value⟩ := decode_completes hs hi low high len (outOfField_bufValues_eq_false.2 small)
    exact ⟨t, run, wrote, xpos, fun c hc => by rw [value, cell_decodedPoly_val hc (small c hc)]⟩

end

/-- Settles O56, with tag `R`. -/
theorem decodeRUnpacksIntoRq : Obligations.DecodeRUnpacksIntoRq := fun _ _ =>
  ⟨isTheWordOf_opcode_fields _ (Nat.add_assoc _ _ _).symm, fun _ hs => decode_spec hs rfl⟩

/-- Settles O57, with tag `T`. -/
theorem decodeTUnpacksIntoTq : Obligations.DecodeTUnpacksIntoTq := fun _ _ =>
  ⟨isTheWordOf_opcode_fields _ (by simp only [opcodeOf, fieldsOf]; omega), fun _ hs => decode_spec hs rfl⟩

/-- Every decoded value is the number of a group of `d` bits (R182). -/
theorem decodeValues_lt (d : Nat) (bytes : List Byte) : ∀ v ∈ decodeValues d bytes, v < 2 ^ d := by
  intro v hv
  obtain ⟨bits, hg, rfl⟩ := List.mem_map.1 hv
  exact ofBits_lt_of_mem_groups (bitString_lt_two bytes) hg

/-- Below width 12 no decoded value is out of the field (R186). -/
theorem outOfField_decodeValues {d : Nat} (hd : d ≤ 11) (bytes : List Byte) :
    outOfField (decodeValues d bytes) = false := by
  simp only [outOfField, List.any_eq_false, decide_eq_true_eq, not_le]
  intro v hv
  calc v < 2 ^ d := decodeValues_lt d bytes v hv
    _ ≤ 2 ^ 11 := Nat.pow_le_pow_right (by decide) hd
    _ < 3329 := by decide

/-- Settles O58: the values fit their width, and below width 12 the width fits the field. -/
theorem decodedValuesFitTheirWidth : Obligations.DecodedValuesFitTheirWidth := by
  refine ⟨decodeValues_lt, fun pd d s hs low high len => ?_⟩
  have small : outOfField (bufValues s d) = false := outOfField_decodeValues high _
  obtain ⟨t, runR, wroteR, -⟩ := decode_completes (i := .decodeR pd d) hs rfl low (by omega) len small
  obtain ⟨u, runT, wroteT, -⟩ := decode_completes (i := .decodeT pd d) hs rfl low (by omega) len small
  exact ⟨⟨t, runR, wroteR.latch.1.trans hs, wroteR.tagged⟩, ⟨u, runT, wroteT.latch.1.trans hs, wroteT.tagged⟩⟩

/-! ### The round trip (R188) -/

theorem map_eq_self {α : Type} {f : α → α} {l : List α} (h : ∀ x ∈ l, f x = x) : l.map f = l :=
  (List.map_congr_left h).trans (List.map_id l)

/-- Writing each group of `n` bits as a number and the numbers as `n` bits each gives the bit string back. -/
theorem flatMap_toBits_ofBits {n count : Nat} {l : List Nat} (hl : ∀ b ∈ l, b < 2) (len : l.length = n * count) :
    ((groups n count l).map ofBits).flatMap (toBits n) = l := by
  have group (g : List Nat) (hg : g ∈ groups n count l) : toBits n (ofBits g) = g := by
    have back := toBits_ofBits g fun b hb => hl b (mem_of_mem_groups n count l g hg b hb)
    rwa [length_of_mem_groups n count l len.ge g hg] at back
  have unchanged : (groups n count l).map (toBits n ∘ ofBits) = groups n count l := map_eq_self group
  rw [List.flatMap_def, List.map_map, unchanged, flatten_groups n count l len]

/-- Writing numbers below `2^n` as `n` bits each and each group of `n` bits as a number gives the numbers back. -/
theorem map_ofBits_toBits {n : Nat} {vs : List Nat} (hv : ∀ v ∈ vs, v < 2 ^ n) :
    (groups n vs.length (vs.flatMap (toBits n))).map ofBits = vs := by
  rw [groups_flatMap n _ vs fun _ _ => length_toBits n _, List.map_map]
  exact map_eq_self fun v h => by rw [Function.comp, ofBits_toBits, Nat.mod_eq_of_lt (hv v h)]

theorem bitString_eq (bytes : List Byte) : bitString bytes = (bytes.map BitVec.toNat).flatMap (toBits 8) := by
  rw [bitString, List.flatMap_map]

theorem encodeValues_eq (d : Nat) (vs : List Nat) :
    encodeValues d vs = ((groups 8 (32 * d) (vs.flatMap (toBits d))).map ofBits).map (BitVec.ofNat 8) := by
  rw [encodeValues, List.map_map]; rfl

/-- The bytes of `encode(d, f)` hold the bit string of `f` (R181). -/
theorem bitString_encodeValues {d : Nat} {vs : List Nat} (len : vs.length = 256) :
    bitString (encodeValues d vs) = vs.flatMap (toBits d) := by
  have bits := flatMap_toBits_lt_two d vs
  have bytes : (encodeValues d vs).map BitVec.toNat = (groups 8 (32 * d) (vs.flatMap (toBits d))).map ofBits := by
    rw [encodeValues, List.map_map]
    refine List.map_congr_left fun g hg => ?_
    rw [Function.comp, BitVec.toNat_ofNat, Nat.mod_eq_of_lt (ofBits_lt_of_mem_groups bits hg)]
  rw [bitString_eq, bytes, flatMap_toBits_ofBits bits (by rw [length_flatMap_toBits, len]; omega)]

theorem decodeValues_encodeValues {d : Nat} {vs : List Nat} (len : vs.length = 256) (hv : ∀ v ∈ vs, v < 2 ^ d) :
    decodeValues d (encodeValues d vs) = vs := by
  rw [decodeValues, bitString_encodeValues len, ← len, map_ofBits_toBits hv]

theorem encodeValues_decodeValues {d : Nat} {bytes : List Byte} (len : bytes.length = 32 * d) :
    encodeValues d (decodeValues d bytes) = bytes := by
  have bits : (decodeValues d bytes).flatMap (toBits d) = bitString bytes :=
    flatMap_toBits_ofBits (bitString_lt_two bytes) (by rw [length_bitString, len]; omega)
  have numbers : (groups 8 (32 * d) (bitString bytes)).map ofBits = bytes.map BitVec.toNat := by
    rw [bitString_eq, ← len, ← bytes.length_map BitVec.toNat]
    exact map_ofBits_toBits fun v hv => by obtain ⟨b, -, rfl⟩ := List.mem_map.1 hv; exact b.isLt
  rw [encodeValues_eq, bits, numbers, List.map_map]
  exact map_eq_self fun b _ => by rw [Function.comp, BitVec.ofNat_toNat, BitVec.setWidth_eq]

/-- The bytes written are the bytes read back. -/
theorem memReadList_of_writeList {t : State} {m : Memory} {vs : List Byte}
    (read : ∀ a, memRead t a = (m.writeList 0 vs).read a) : memReadList t vs.length = vs := by
  rw [memReadList_eq]
  refine List.ext_getElem (by simp) fun n _ hn => ?_
  rw [List.getElem_map, List.getElem_range, read, Memory.read_writeList, if_pos ⟨n.zero_le, by omega⟩, Nat.sub_zero,
    List.getD_eq_getElem]

/-- Reading the values of a polynomial's coefficients as field elements gives the polynomial back. -/
theorem ofValues_map_val (f : Coeffs) : ofValues ((f.toList.map fun c => c.val).map fun v : Nat => toField v) = f := by
  have coefficients : (f.toList.map fun c => c.val).map (fun v : Nat => toField v) = f.toList := by
    rw [List.map_map]
    exact map_eq_self fun c _ => toField_of_lt c.isLt
  rw [coefficients, ofValues_toList]

/-- BUF holds `encode(d, f)`: the decoder reads the coefficients of `f`. -/
theorem bufValues_of_encodeBytes {t : State} {d : BitVec 4} {f : Coeffs}
    (bytes : memReadList t (32 * d.toNat) = encodeBytes d.toNat f)
    (narrow : ∀ n, n < 256 → (cell f n).val < 2 ^ d.toNat) : bufValues t d = f.toList.map fun c => c.val := by
  rw [bufValues, bytes, encodeBytes]
  refine decodeValues_encodeValues (by simp) fun v hv => ?_
  simp only [toList_eq_map_cell, List.map_map, List.mem_map, List.mem_range] at hv
  obtain ⟨n, hn, rfl⟩ := hv
  exact narrow n hn

theorem outOfField_coefficients (f : Coeffs) : outOfField (f.toList.map fun c => c.val) = false := by
  simp only [outOfField, List.any_eq_false, decide_eq_true_eq]
  intro v hv
  obtain ⟨c, -, rfl⟩ := List.mem_map.1 hv
  exact c.isLt.not_ge

/-- The program of R188. -/
theorem codec_program_computes {s : State} {d : BitVec 4} {p0 : RegNo} (p1 : RegNo) (hs : s.err = none)
    (low : 1 ≤ d.toNat) (high : d.toNat ≤ 12) (tagged : s.ptag[p0] ≠ .empty)
    (narrow : ∀ n, n < 256 → (cell s.preg[p0] n).val < 2 ^ d.toNat) :
    ∃ t, runAll [.encode p0 d, .decodeR p1 d] s = some t ∧ t.err = none ∧ Holds t p1 s.preg[p0] .rq := by
  obtain ⟨t, run, wrote, read⟩ := encode_completes hs low high tagged narrow
  have bytes : memReadList t (32 * d.toNat) = encodeBytes d.toNat s.preg[p0] := by
    rw [← length_encodeBytes, memReadList_of_writeList read]
  have values := bufValues_of_encodeBytes bytes narrow
  have ht : t.err = none := wrote.latch.1.trans hs
  obtain ⟨u, runD, wroteD, -, value⟩ := decode_completes (i := .decodeR p1 d) ht rfl low high wrote.blen
    (by rw [values, outOfField_coefficients])
  refine ⟨u, by rw [runAll_cons_next run, runAll_cons_next runD, runAll], wroteD.latch.1.trans ht, ?_, wroteD.tagged⟩
  rw [value, decodedPoly, values, ofValues_map_val]

/-- Settles O59: both round trips by the bit strings, and the program reads back the bytes it wrote. -/
theorem codecRoundTrip : Obligations.CodecRoundTrip := fun _ low high =>
  ⟨fun _ => decodeValues_encodeValues, fun _ => encodeValues_decodeValues, fun _ _ p1 hs tagged narrow =>
    codec_program_computes p1 hs low high tagged narrow⟩

end Sys2Proof.Machine
end

section
/-! Statements about the exceptions (60_exceptions.md): what the fault latch does to the block, what a command that faults writes
and which causes it can raise, and the checks on the command word alone. The latch and the causes go through the inversions
`exec_answers` and `exec_next_cases`, the checks on the word through the laws of the commands that make them. -/
namespace Sys2Proof.Machine

/-! ### An idle step (R240) -/

/-- Settles O6: with no move waiting the step is `idle`. -/
theorem idleBlockKeepsAllState : Obligations.IdleBlockKeepsAllState := fun s hp => by rw [step, hp]; rfl

/-! ### A latched fault (R225) -/

section
variable {s : State} (hs : s.err ≠ none)
include hs

/-- Every other answer of a command needs `ERR = 0`. -/
theorem exec_ignored (i : Instr) : exec i s = .next s := by
  have ha := exec_answers i s
  generalize exec i s = o at ha
  cases ha with
  | ignored _ => rfl
  | raised _ he _ => exact absurd he hs
  | completed _ he _ => exact absurd he hs
  | hung _ he _ _ _ => exact absurd he hs

theorem illegalWord_ignored (w : Word) : illegalWord w s = .next s := if_pos (Option.isSome_iff_ne_none.2 hs)

/-- A delivered word, command or not, is taken from the host's moves and does nothing else. -/
theorem step_ignored {w : Word} {rest : List HostMove} (hp : s.pending = .command w :: rest) :
    step s = .next (withPending s rest) := by
  have latched : (withPending s rest).err ≠ none := hs
  cases hd : decodeWord w with
  | illegal why => rw [step_of_illegal hp hd, illegalWord_ignored latched]
  | command i => rw [step_of_command hp hd, exec_ignored latched, resetIfHung_next]

/-- The latch outlives every step but reset. -/
theorem step_keeps_fault {t : State} (h : step s = .next t) (hr : ∀ rest, s.pending ≠ .reset :: rest) : t.err = s.err := by
  cases hp : s.pending with
  | nil => cases (idleBlockKeepsAllState s hp).symm.trans h; rfl
  | cons move rest =>
    cases move with
    | reset => exact absurd hp (hr rest)
    | command w => cases (step_ignored hs hp).symm.trans h; rfl

end

/-- Settles O5: a command, a delivered word, and a step without reset. -/
theorem faultedBlockIgnoresCommands : Obligations.FaultedBlockIgnoresCommands :=
  ⟨fun i _ hs => exec_ignored hs i, fun _ _ rest hs hp => ⟨rest, step_ignored hs hp⟩,
    fun _ _ hs => step_keeps_fault hs⟩

/-! ### A command that faults (R224, R234) -/

/-- The only way from `ERR = 0` to a latched fault is a fault entry with a marked cause: the writes of a completed command leave the
latch. -/
theorem exec_next_fault {i : Instr} {s t : State} (hs : s.err = none) (h : exec i s = .next t) (ht : t.err ≠ none) :
    ∃ c, mayRaise i c = true ∧ t = faultEntry s c (encodeWord i) := by
  obtain ⟨he, -⟩ | ⟨c, -, marked, rfl⟩ | ⟨u, -, hu, rfl⟩ := exec_next_cases h
  · exact absurd hs he
  · exact ⟨c, marked, rfl⟩
  · obtain ⟨-, herr, -⟩ := hu.keeps
    exact absurd (herr.trans hs) ht

/-- Settles O9: the next state is a fault entry. -/
theorem faultsArePreciseAndWriteOnlyTheLatch : Obligations.FaultsArePreciseAndWriteOnlyTheLatch := fun _ _ _ hs h ht => by
  obtain ⟨c, -, rfl⟩ := exec_next_fault hs h ht
  rfl

/-- Settles O11: the cause of the fault entry is a marked one. -/
theorem commandsRaiseOnlyTheirMarkedCauses : Obligations.CommandsRaiseOnlyTheirMarkedCauses := fun _ _ t c hs h ht => by
  obtain ⟨c', marked, rfl⟩ := exec_next_fault hs h (ht ▸ Option.some_ne_none c)
  cases ht
  exact marked

/-! ### The checks on the command word alone (R221, R229) -/

theorem codecWidthOk_eq_false {d : BitVec 4} : codecWidthOk d = false ↔ d.toNat < 1 ∨ 12 < d.toNat := by
  simp [codecWidthOk, imp_iff_not_or]

theorem etaOk_eq_false {eta : BitVec 4} : etaOk eta = false ↔ eta.toNat < 1 ∨ 6 < eta.toNat := by
  simp [etaOk, imp_iff_not_or]

theorem rankOk_eq_true {k : BitVec 8} : rankOk k = true ↔ k.toNat = 2 ∨ k.toNat = 3 ∨ k.toNat = 4 := by
  simp [rankOk, or_assoc]

theorem windowOk_eq_false {r : RegNo} {k : BitVec 8} : windowOk r k = false ↔ 16 < r.val + k.toNat := by
  simp [windowOk]

/-- An ill-formed `PLC` has a bad rank, or a good rank and a window past `p15`: the order in which R145 checks them. -/
theorem plc_raises_of_illFormed {pd pe pa pb : RegNo} {k : BitVec 8} (h : WellFormed (.plc pd pe pa pb k) = false) :
    ∃ c, ∀ s : State, s.err = none → Raises (.plc pd pe pa pb k) s c := by
  obtain ⟨-, spec⟩ := plcAccumulatesProducts pd pe pa pb k
  by_cases rank : k.toNat = 2 ∨ k.toNat = 3 ∨ k.toNat = 4
  · have windows : windowOk pa k = false ∨ windowOk pb k = false := by
      simpa [WellFormed, rankOk_eq_true.2 rank, ← Bool.not_eq_true, imp_iff_not_or] using h
    exact ⟨.illegal, fun s hs => ((spec s hs).2 rank).1 (windows.imp windowOk_eq_false.1 windowOk_eq_false.1)⟩
  · exact ⟨.shape, fun s hs => (spec s hs).1 (by simpa [not_or] using rank)⟩

/-- Settles O12, command by command: the first check of the command's rule that fails reads the word alone. -/
theorem immediateFaultsDependOnTheWordAlone : Obligations.ImmediateFaultsDependOnTheWordAlone := fun i h => by
  cases i with
  | zli rd imm12 => exact ⟨.range, fun s hs => zli_raises_range hs (by simpa [WellFormed] using h)⟩
  | plc pd pe pa pb k => exact plc_raises_of_illFormed h
  | samplecbd pd eta =>
    exact ⟨.illegal, fun s hs => command_raises hs (by simp [badEta_eq_true.2 (etaOk_eq_false.1 h)])⟩
  | encode pa d =>
    exact ⟨.illegal, fun s hs => encode_raises_illegal hs (badWidth_eq_true.2 (codecWidthOk_eq_false.1 h))⟩
  | decodeR pd d => exact ⟨.illegal, fun s hs => (decode_spec hs rfl).1 (codecWidthOk_eq_false.1 h)⟩
  | decodeT pd d => exact ⟨.illegal, fun s hs => (decode_spec hs rfl).1 (codecWidthOk_eq_false.1 h)⟩
  | _ => cases h

end Sys2Proof.Machine
end

section
/-! Statements about reset and runs (70_reset_and_hazards.md). A run that does not complete stops at one command, `StopsAt`; that
this command and the state before it are unique makes the ends of R256 exclude each other, and an induction over the completed
commands with `step_issued` as its step gives that one of them is reached. -/
namespace Sys2Proof.Machine

/-! ### Reset (R250) -/

theorem step_of_reset {s : State} {rest : List HostMove} (hp : s.pending = .reset :: rest) :
    step s = .next (hostReset s rest) := by
  rw [step, hp]

/-- Settles O2: the step takes the reset before it looks at anything of the block. -/
theorem hostResetIsTotal : Obligations.HostResetIsTotal := fun _ _ hp => step_of_reset hp

/-! ### After the end of a run (R225, R240, R166) -/

section
variable {s t : State} {n : Nat}

theorem afterSteps_of_idle (hp : s.pending = []) (k : Nat) : afterSteps k s = some s := by
  induction k with
  | zero => rfl
  | succ k ih => rw [afterSteps_succ_next k (idleBlockKeepsAllState s hp), ih]

/-- The words after a fault are ignored one by one, and then the block is idle. -/
theorem afterSteps_of_fault {ws : List Word} (hs : s.err ≠ none) (hp : s.pending = issued ws) (k : Nat) :
    ∃ moves, afterSteps k s = some { s with pending := moves } := by
  induction k generalizing s ws with
  | zero => exact ⟨s.pending, rfl⟩
  | succ k ih =>
    cases ws with
    | nil => exact ⟨s.pending, afterSteps_of_idle hp (k + 1)⟩
    | cons w ws =>
      rw [afterSteps_succ_next k (step_ignored hs hp)]
      exact ih (s := withPending s (issued ws)) hs rfl

theorem afterSteps_of_stuck {f : Fault} (h : afterSteps n s = some t) (hf : step t = .fault f) {k : Nat} (hk : n < k) :
    afterSteps k s = none := by
  obtain ⟨j, rfl⟩ := Nat.exists_eq_add_of_lt hk
  rw [Nat.add_assoc, afterSteps_add (j + 1) h, afterSteps, hf]

end

/-! ### The command at which a run stops -/

/-- The run of `prog` from `s` comes to command `n` in the state `u`, and this command does not complete. -/
structure StopsAt (prog : List Word) (s : State) (n : Nat) (u : State) : Prop where
  inProgram : n < prog.length
  reached : CompletesFirst s n u
  notCompleted : ¬ CommandCompletes s n

section
variable {prog : List Word} {s t u v : State} {n m : Nat}

theorem CompletesFirst.unique (hu : CompletesFirst s n u) (hv : CompletesFirst s n v) : u = v :=
  Option.some.inj (hu.1.symm.trans hv.1)

theorem CompletesFirst.succ (hu : CompletesFirst s n u) (hv : step u = .next v) (hue : u.err = none) (hve : v.err = none)
    (hpc : v.pc = u.pc + 1) : CompletesFirst s (n + 1) v := by
  refine ⟨afterSteps_snoc hu.1 hv, fun m hm => ?_⟩
  obtain hlt | rfl := Nat.lt_succ_iff_lt_or_eq.1 hm
  · exact hu.2 m hlt
  · exact ⟨u, v, hu.1, hv, hue, hve, hpc⟩

/-- A command that completes leaves a next state without a fault. -/
theorem CompletesFirst.next_of_completes (hu : CompletesFirst s n u) (hc : CommandCompletes s n) :
    ∃ v, step u = .next v ∧ v.err = none := by
  obtain ⟨x, v, hx, hv, -, hve, -⟩ := hc
  cases hu.1.symm.trans hx
  exact ⟨v, hv, hve⟩

theorem StopsAt.le (h : StopsAt prog s n u) (hv : CompletesFirst s m v) : m ≤ n :=
  Nat.le_of_not_lt fun hlt => h.notCompleted (hv.2 n hlt)

theorem StopsAt.unique (hu : StopsAt prog s n u) (hv : StopsAt prog s m v) : u = v := by
  obtain rfl := Nat.le_antisymm (hv.le hu.reached) (hu.le hv.reached)
  exact hu.reached.unique hv.reached

theorem StopsAt.not_completed (h : StopsAt prog s n u) : ¬ Completed prog s t :=
  fun hc => absurd (h.le hc.1) h.inProgram.not_ge

theorem Faulted.stopsAt (h : Faulted prog s t) :
    ∃ n u, StopsAt prog s n u ∧ step u = .next t ∧ t.err ≠ none ∧ t.pending = issued (prog.drop (n + 1)) := by
  obtain ⟨n, u, w, c, hu, hw, ht, rfl⟩ := h
  obtain ⟨hn, -⟩ := List.getElem?_eq_some_iff.1 hw
  refine ⟨n, u, ⟨hn, hu, fun hc => ?_⟩, ht, Option.some_ne_none c, rfl⟩
  obtain ⟨v, hv, hve⟩ := hu.next_of_completes hc
  cases ht.symm.trans hv
  cases hve

theorem Hung.stopsAt (h : Hung prog s) : ∃ n u, StopsAt prog s n u ∧ step u = .fault .samplerHung := by
  obtain ⟨n, u, w, pd, hu, hw, -, hf⟩ := h
  obtain ⟨hn, -⟩ := List.getElem?_eq_some_iff.1 hw
  refine ⟨n, u, ⟨hn, hu, fun hc => ?_⟩, hf⟩
  obtain ⟨v, hv, -⟩ := hu.next_of_completes hc
  cases hf.symm.trans hv

/-! ### The ends of R256 exclude each other, and each is an end -/

theorem Completed.end_state (h : Completed prog s t) :
    (∀ t', Completed prog s t' → t' = t) ∧ (∀ t', ¬ Faulted prog s t') ∧ ¬ Hung prog s ∧ ∀ k, afterSteps k t = some t := by
  refine ⟨fun t' h' => h'.1.unique h.1, fun t' hf => ?_, fun hh => ?_, ?_⟩
  · obtain ⟨n, u, hstop, -⟩ := hf.stopsAt
    exact hstop.not_completed h
  · obtain ⟨n, u, hstop, -⟩ := hh.stopsAt
    exact hstop.not_completed h
  · obtain ⟨-, -, -, hp⟩ := h
    exact afterSteps_of_idle hp

theorem Faulted.end_state (h : Faulted prog s t) :
    (∀ t', Faulted prog s t' → t' = t) ∧ ¬ Hung prog s ∧ t.err ≠ none ∧
      ∀ k, ∃ moves, afterSteps k t = some { t with pending := moves } := by
  obtain ⟨n, u, hstop, ht, hte, hp⟩ := h.stopsAt
  refine ⟨fun t' h' => ?_, fun hh => ?_, hte, afterSteps_of_fault hte hp⟩
  · obtain ⟨_, u', hstop', ht', -⟩ := h'.stopsAt
    cases hstop.unique hstop'
    cases ht.symm.trans ht'
    rfl
  · obtain ⟨_, u', hstop', hf⟩ := hh.stopsAt
    cases hstop.unique hstop'
    cases ht.symm.trans hf

theorem Hung.no_later_state (h : Hung prog s) : ∃ n, n < prog.length ∧ ∀ k, n < k → afterSteps k s = none := by
  obtain ⟨n, u, hstop, hf⟩ := h.stopsAt
  exact ⟨n, hstop.inProgram, fun k hk => afterSteps_of_stuck hstop.reached.1 hf hk⟩

end

/-! ### The steps of a run -/

/-- Only a host whose next move is reset makes anything of a hung command. -/
theorem resetIfHung_of_ne_reset {s : State} (o : Outcome) (h : ∀ more, s.pending ≠ .reset :: more) : resetIfHung s o = o := by
  cases o with
  | next t => rfl
  | refused r => rfl
  | fault f => cases f; exact resetIfHung_hung h

namespace Launch

variable {prog : List Word} {s u : State} {n : Nat}

theorem after_first (h : Launch prog s) (hn : n ≤ prog.length) (hu : CompletesFirst s n u) :
    u.err = none ∧ u.pending = issued (prog.drop n) ∧ u.pc = s.pc + BitVec.ofNat 32 n ∧ u.xof = s.xof := by
  obtain ⟨-, he, hp⟩ := h
  exact completesFirst_keeps he hp hn hu

section
variable {w : Word} (h : Launch prog s) (hu : CompletesFirst s n u) (hw : prog[n]? = some w)
include h hu hw

/-- Before command `n` no fault is latched and its word is the host's next move. -/
theorem next_word : u.err = none ∧ u.pending = issued (w :: prog.drop (n + 1)) := by
  obtain ⟨hn, rfl⟩ := List.getElem?_eq_some_iff.1 hw
  obtain ⟨he, hp, -⟩ := h.after_first hn.le hu
  exact ⟨he, by rw [hp, List.drop_eq_getElem_cons hn]⟩

theorem step_command {i : Instr} (hd : decodeWord w = .command i) :
    step u = exec i (withPending u (issued (prog.drop (n + 1)))) := by
  obtain ⟨-, hp⟩ := h.next_word hu hw
  exact (step_of_command hp hd).trans (resetIfHung_of_ne_reset _ (issued_ne_reset _))

theorem step_illegal (hd : ∃ why, decodeWord w = .illegal why) :
    step u = .next (faultEntry (withPending u (issued (prog.drop (n + 1)))) .illegal w) := by
  obtain ⟨he, hp⟩ := h.next_word hu hw
  exact unmatchedWordsRaiseIllegal.2 u w _ hp he ((decodeWord_illegal_iff w).1 hd)

/-- The step with the word of command `n` completes the command or ends the run. -/
theorem completes_or_ends : (∃ v, CompletesFirst s (n + 1) v) ∨ (∃ t, Faulted prog s t) ∨ Hung prog s := by
  obtain ⟨he, hp⟩ := h.next_word hu hw
  obtain ⟨v, hv, hve, hpc, -⟩ | ⟨c, x, ht, hx⟩ | ⟨pd, hd, hf⟩ := step_issued he hp
  · exact .inl ⟨v, hu.succ hv he hve hpc⟩
  · have ecmd : x = w := by
      obtain rfl | ⟨i, hd, rfl⟩ := hx
      · rfl
      · exact encodeOfDecodeIsTheWord w i hd
    exact .inr (.inl ⟨_, n, u, w, c, hu, hw, ht, by rw [ecmd]⟩)
  · exact .inr (.inr ⟨n, u, w, pd, hu, hw, hd, hf⟩)

end

/-- The first `n` commands complete, or the run has ended before. -/
theorem completesFirst_or_ends (h : Launch prog s) (hn : n ≤ prog.length) :
    (∃ u, CompletesFirst s n u) ∨ (∃ t, Faulted prog s t) ∨ Hung prog s := by
  induction n with
  | zero => exact .inl ⟨s, rfl, fun m hm => absurd hm m.not_lt_zero⟩
  | succ n ih =>
    obtain ⟨u, hu⟩ | ended := ih (Nat.le_of_succ_le hn)
    · exact h.completes_or_ends hu (List.getElem?_eq_getElem hn)
    · exact .inr ended

theorem reaches_an_end (h : Launch prog s) : (∃ t, Completed prog s t) ∨ (∃ t, Faulted prog s t) ∨ Hung prog s := by
  obtain ⟨t, ht⟩ | ended := h.completesFirst_or_ends le_rfl
  · obtain ⟨he, hp, hpc, -⟩ := h.after_first le_rfl ht
    exact .inl ⟨t, ht, he, hpc, by rw [hp, List.drop_length, issued_nil]⟩
  · exact .inr ended

end Launch

/-- Settles O60: the ends are reached by induction over the completed commands and exclude each other by the one command at which
a run stops. -/
theorem runsEndInExactlyOneOfThreeWays : Obligations.RunsEndInExactlyOneOfThreeWays := by
  intro prog s launch
  refine ⟨launch.reaches_an_end, fun t => Completed.end_state, fun t => Faulted.end_state, Hung.no_later_state, ?_⟩
  intro n u hn hu
  obtain ⟨he, -, hpc, hxof⟩ := launch.after_first hn hu
  have counted : n < 2 ^ 32 → (u.pc - s.pc).toNat = n := fun small => by
    rw [hpc, add_sub_cancel_left, BitVec.toNat_ofNat, Nat.mod_eq_of_lt small]
  exact ⟨hpc, counted, he, hxof, fun w hw => ⟨fun i => launch.step_command hu hw, launch.step_illegal hu hw⟩⟩

end Sys2Proof.Machine
end
